-- ==== Sys2Proof/Word.lean ====
section
/-! DEFINITION. The words of the block: bytes, 16-bit register values, 4-bit register addresses, 32-bit command words
(spec 00_scope.md R9, R12; 30_encoding.md R58). Host buffer addresses and lengths are numbers below 2^`HOST_ADDR_W` and
2^`LEN_W`, parameters of the configuration (R10; `Config.fitAddr`, `Config.fitLen`). -/

namespace Sys2Proof

/-- A byte of the serial link or of the host buffer (R12). -/
abbrev Byte := BitVec 8

/-- A 16-bit register value of the chip (`REG_W`, R9). -/
abbrev Half := BitVec 16

/-- A register address of the chip (`ADDR_W`, R9). -/
abbrev RegAddr := BitVec 4

/-- A host command word (R58). -/
abbrev CmdWord := BitVec 32

/-- The version nibble (R30). -/
abbrev Nibble := BitVec 4

end Sys2Proof
end

