-- ==== Sys2Proof/Syntax.lean ====
section
/-! DEFINITION. The instructions of spec/opcode_table.json, one constructor per row: eleven host commands
(30_encoding.md R60), ten micro-operations (R63), three wire frames (R53, R54, R55). -/

namespace Sys2Proof

/-- The four duration parameters a `Delay` can name (00_scope.md R10, 40_line_and_gate.md R77). -/
inductive Duration where
  | rstHold   -- T_RST_HOLD
  | analog    -- T_ANALOG
  | soft1     -- T_SOFT1
  | soft2     -- T_SOFT2
deriving DecidableEq, Repr

/-- One constructor per row of the opcode table. -/
inductive Instr where
  -- host commands (R60)
  | wrreg (addr : RegAddr) (value : Half)
  | rdreg (addr : RegAddr)
  | wrdata
  | wrchunk (n : BitVec 16)
  | fill (byte : Byte) (count : BitVec 16)
  | hreset
  | sreset
  | cancel
  | verq
  | flowrd
  | waitrdy
  -- micro-operations (R63)
  | csa
  | csd
  | dsa
  | dsd
  | rsta
  | rstd
  | poll
  | xchg (out : Byte)
  | delay (t : Duration)
  | speedhi
  -- wire frames (R53, R54, R55)
  | sciWriteFrame (addr : RegAddr) (value : Half)
  | sciReadFrame (addr : RegAddr) (dummy1 dummy2 : Byte)  -- the dummy bytes are operands: log entry 26
  | sdiChunkFrame (bytes : List Byte)
deriving DecidableEq, Repr

end Sys2Proof
end

