-- ==== Sys2Proof/Config.lean ====
section
/-! DEFINITION. The configuration record `CFG` (00_scope.md R10, 10_state.md R27), the OPEN parameters and the free
values of the environment oracle (R14). A constant declared `opaque` has no body: no proof can see its value. -/

namespace Sys2Proof

/-- The seventeen parameters of R10. -/
structure Config where
  /-- `CLOCKF_VALUE`, OPEN. -/
  clockfValue : Half
  /-- `VOL_MUTE`. -/
  volMute : Half
  /-- `VOL_ANALOG_ON`, OPEN. -/
  volAnalogOn : Half
  /-- `VOL_DEFAULT`, OPEN. -/
  volDefault : Half
  /-- `AUDATA_SLOW`. -/
  audataSlow : Half
  /-- `AUDATA_TARGET`, OPEN. -/
  audataTarget : Half
  /-- `ENDFILL_ADDR`, OPEN. -/
  endfillAddr : Half
  /-- `CANCEL_RESULT_ADDR`. -/
  cancelResultAddr : RegAddr
  /-- `VER_LSB`, 0..12. -/
  verLsb : Fin 13
  /-- `DUMMY_BYTE`. -/
  dummyByte : Byte
  /-- `POLL_LIMIT`: none, or a number k >= 1 (`Config.wf`). -/
  pollLimit : Option Nat
  /-- `T_RST_HOLD`, OPEN, in no stated unit (D22). -/
  tRstHold : Nat
  /-- `T_ANALOG`, OPEN. -/
  tAnalog : Nat
  /-- `T_SOFT1`, OPEN. -/
  tSoft1 : Nat
  /-- `T_SOFT2`, OPEN. -/
  tSoft2 : Nat
  /-- `HOST_ADDR_W`, the width of a host buffer address. -/
  hostAddrW : Nat
  /-- `LEN_W`, the width of a buffer length. -/
  lenW : Nat
deriving DecidableEq, Repr

/-- `POLL_LIMIT` is none or a positive number (R10, R75), and every length that a command has without the host's length register,
up to 65535 (R92, R109), is one of `Stream` (R89: `L` < 2^`LEN_W`). Log entry 4. -/
abbrev Config.wf (c : Config) : Prop := c.pollLimit ≠ some 0 ∧ 16 ≤ c.lenW

/-- The low `HOST_ADDR_W` bits: what a host buffer address register holds of a number (R22, R25). -/
def Config.fitAddr (c : Config) (x : Nat) : Nat := x % 2 ^ c.hostAddrW

/-- The low `LEN_W` bits: what a length register holds of a number (R22, R25). -/
def Config.fitLen (c : Config) (x : Nat) : Nat := x % 2 ^ c.lenW

/-- The value of the parameter that a duration names (R10, R77). The model has no time and no rule reads it (R160). -/
def Config.duration (c : Config) (t : Duration) : Nat :=
  match t with
  | .rstHold => c.tRstHold
  | .analog => c.tAnalog
  | .soft1 => c.tSoft1
  | .soft2 => c.tSoft2

/-- The free value of the flow-control line at poll number `k` (R14), where the state holds no scripted answer. Log entry 2. -/
opaque Config.flow : Nat → Bool

/-- The free value of the byte returned by exchange number `k` (R14), where the state holds no scripted answer. Log entry 2. -/
opaque Config.reply : Nat → Byte

/-- OPEN `CLOCKF_VALUE` (R10, D21). -/
opaque Config.openClockf : Half

/-- OPEN `VOL_ANALOG_ON` (R10, D21). -/
opaque Config.openVolAnalogOn : Half

/-- OPEN `VOL_DEFAULT` (R10, D21). -/
opaque Config.openVolDefault : Half

/-- OPEN `AUDATA_TARGET` (R10, D21). -/
opaque Config.openAudataTarget : Half

/-- OPEN `ENDFILL_ADDR` (R10, D15). -/
opaque Config.openEndfillAddr : Half

/-- OPEN `T_RST_HOLD` (R10, D22). -/
opaque Config.openRstHold : Nat

/-- OPEN `T_ANALOG` (R10, D22). -/
opaque Config.openAnalog : Nat

/-- OPEN `T_SOFT1` (R10, D22). -/
opaque Config.openSoft1 : Nat

/-- OPEN `T_SOFT2` (R10, D22). -/
opaque Config.openSoft2 : Nat

end Sys2Proof
end

