-- ==== Sys2Proof/WellFormed.lean ====
section
/-! DEFINITION. Which instructions are well formed. Every field but one has the width the encoding gives it, so the one
check left is the length of a data frame (30_encoding.md R55: 0 <= n <= 32). -/

namespace Sys2Proof

/-- `CHUNK_MAX` (R9): the largest number of bytes sent after one flow-control wait. -/
def chunkMax : Nat := 32

/-- A data frame has at most `CHUNK_MAX` bytes (R55, R149); every other instruction is well formed by its types. -/
def Instr.wellFormed (i : Instr) : Bool :=
  match i with
  | .sdiChunkFrame bytes => decide (bytes.length ≤ chunkMax)
  | .wrreg _ _ | .rdreg _ | .wrdata | .wrchunk _ | .fill _ _ | .hreset | .sreset | .cancel | .verq | .flowrd | .waitrdy
  | .csa | .csd | .dsa | .dsd | .rsta | .rstd | .poll | .xchg _ | .delay _ | .speedhi
  | .sciWriteFrame _ _ | .sciReadFrame _ _ _ => true

end Sys2Proof
end

