-- ==== Sys2Proof/Decode.lean ====
section
/-! DEFINITION. Encodings (30_encoding.md): the host command word (R58 to R61), the micro-operation codes (R63) and the wire
frames (R53 to R56, R66). The levels are kept apart (R52): a code says at which level its bits stand. -/

namespace Sys2Proof

/-- Bits at one of the three levels of encoding (R52, R63, R66). -/
inductive Code where
  /-- A word on the host command port (R58). -/
  | command (w : CmdWord)
  /-- A micro-operation's 4-bit code (R63) and its operand byte: the outbound byte of XCHG, the number of DELAY's duration
  name, else 0. The operand byte's layout is a DESIGN CHOICE, log entry 12. -/
  | micro (code : BitVec 4) (operand : Byte)
  /-- The outbound bytes of a frame under command-select, in order (R66). -/
  | csFrame (bytes : List Byte)
  /-- The bytes of a frame under data-select, in order (R66). -/
  | dsFrame (bytes : List Byte)
deriving DecidableEq, Repr

/-- Why bits are no instruction. -/
inductive DecodeError where
  /-- The `op` field is none of the eleven of R60. -/
  | unknownOp (op : Byte)
  /-- A listed `op` with a non-zero bit in a field that must be 0 (R61). -/
  | reservedBits (op : Byte)
  /-- A micro-operation code 0xA to 0xF (R63). -/
  | unusedMicroCode (code : BitVec 4)
  /-- An operand byte that the micro-operation does not take. -/
  | microOperand (code : BitVec 4)
  /-- A first byte under command-select that is neither 0x02 nor 0x03 (R62). -/
  | unknownWireOp (op : Byte)
  /-- The upper four bits of a frame's address byte are not 0 (R56). -/
  | addressByte (b : Byte)
  /-- A frame under command-select that is not four bytes long (R66). -/
  | frameLength (n : Nat)
  /-- A frame under data-select of more than 32 bytes (R55, R149). -/
  | chunkLength (n : Nat)
deriving DecidableEq, Repr

/-! ## Fields -/

/-- `op`, bits 31:24 of a command word (R58). -/
def opField (w : CmdWord) : Byte := w.extractLsb' 24 8

/-- `a`, bits 23:16 of a command word (R58). -/
def aField (w : CmdWord) : Byte := w.extractLsb' 16 8

/-- `v`, bits 15:0 of a command word (R58). -/
def vField (w : CmdWord) : BitVec 16 := w.extractLsb' 0 16

/-- Bits 3:0 of a byte: the register address in `a` or in a frame's address byte (R56, R58). -/
def lowNibble (b : Byte) : RegAddr := b.extractLsb' 0 4

/-- Bits 7:4 of a byte. -/
def highNibble (b : Byte) : BitVec 4 := b.extractLsb' 4 4

/-- A command word from its three fields (R58). -/
def packCommand (op a : Byte) (v : BitVec 16) : CmdWord := op ++ a ++ v

/-! ## Decoding -/

/-- The eleven operations of R60. -/
inductive CommandOp where
  | wrreg
  | rdreg
  | wrdata
  | wrchunk
  | fill
  | hreset
  | sreset
  | cancel
  | verq
  | flowrd
  | waitrdy
deriving DecidableEq, Repr

/-- The `op` column of R60. -/
def commandOp (op : Byte) : Option CommandOp :=
  match op.toNat with
  | 0x02 => some .wrreg
  | 0x03 => some .rdreg
  | 0x10 => some .wrdata
  | 0x11 => some .wrchunk
  | 0x12 => some .fill
  | 0x20 => some .hreset
  | 0x21 => some .sreset
  | 0x30 => some .cancel
  | 0x40 => some .verq
  | 0x50 => some .flowrd
  | 0x51 => some .waitrdy
  | _ => none

/-- The operand fields of R59; none where a field that must be 0 is not (R61). -/
def commandOperands (o : CommandOp) (a : Byte) (v : BitVec 16) : Option Instr :=
  match o with
  | .wrreg => if highNibble a = 0 then some (.wrreg (lowNibble a) v) else none
  | .rdreg => if highNibble a = 0 ∧ v = 0 then some (.rdreg (lowNibble a)) else none
  | .wrdata => if a = 0 ∧ v = 0 then some .wrdata else none
  | .wrchunk => if a = 0 then some (.wrchunk v) else none
  | .fill => some (.fill a v)
  | .hreset => if a = 0 ∧ v = 0 then some .hreset else none
  | .sreset => if a = 0 ∧ v = 0 then some .sreset else none
  | .cancel => if a = 0 ∧ v = 0 then some .cancel else none
  | .verq => if a = 0 ∧ v = 0 then some .verq else none
  | .flowrd => if a = 0 ∧ v = 0 then some .flowrd else none
  | .waitrdy => if a = 0 ∧ v = 0 then some .waitrdy else none

/-- The decoder of the command port (R60, R61). -/
def decodeCommand (w : CmdWord) : Except DecodeError Instr :=
  match commandOp (opField w) with
  | none => .error (.unknownOp (opField w))
  | some o =>
    match commandOperands o (aField w) (vField w) with
    | some i => .ok i
    | none => .error (.reservedBits (opField w))

/-- The number of a duration name in DELAY's operand byte (DESIGN CHOICE, log entry 12). -/
def Duration.code (t : Duration) : Byte :=
  match t with
  | .rstHold => 0
  | .analog => 1
  | .soft1 => 2
  | .soft2 => 3

/-- The duration a DELAY operand byte names. -/
def durationOf (operand : Byte) : Option Duration :=
  match operand.toNat with
  | 0 => some .rstHold
  | 1 => some .analog
  | 2 => some .soft1
  | 3 => some .soft2
  | _ => none

/-- A micro-operation that takes no operand: its operand byte is 0. -/
def bareMicro (code : BitVec 4) (operand : Byte) (i : Instr) : Except DecodeError Instr :=
  if operand = 0 then .ok i else .error (.microOperand code)

/-- The codes of R63. -/
def decodeMicro (code : BitVec 4) (operand : Byte) : Except DecodeError Instr :=
  match code.toNat with
  | 0x0 => bareMicro code operand .csa
  | 0x1 => bareMicro code operand .csd
  | 0x2 => bareMicro code operand .dsa
  | 0x3 => bareMicro code operand .dsd
  | 0x4 => bareMicro code operand .rsta
  | 0x5 => bareMicro code operand .rstd
  | 0x6 => bareMicro code operand .poll
  | 0x7 => .ok (.xchg operand)
  | 0x8 =>
    match durationOf operand with
    | some t => .ok (.delay t)
    | none => .error (.microOperand code)
  | 0x9 => bareMicro code operand .speedhi
  | _ => .error (.unusedMicroCode code)

/-- A frame under command-select: four bytes, the first tells write from read (R53, R54, R66), the second is the address
byte (R56). The last two bytes of a read frame, `DUMMY_BYTE` in R54, may be any two: log entry 26. -/
def decodeCsFrame (bytes : List Byte) : Except DecodeError Instr :=
  match bytes with
  | [op, ab, x, y] =>
    if op = 0x02#8 then
      if highNibble ab = 0 then .ok (.sciWriteFrame (lowNibble ab) (x ++ y)) else .error (.addressByte ab)
    else if op = 0x03#8 then
      if highNibble ab = 0 then .ok (.sciReadFrame (lowNibble ab) x y) else .error (.addressByte ab)
    else .error (.unknownWireOp op)
  | _ => .error (.frameLength bytes.length)

/-- A frame under data-select: 0 to 32 payload bytes (R55). -/
def decodeDsFrame (bytes : List Byte) : Except DecodeError Instr :=
  if bytes.length ≤ chunkMax then .ok (.sdiChunkFrame bytes) else .error (.chunkLength bytes.length)

/-- The instruction that bits at their level stand for, or why they are none. -/
def decode (c : Code) : Except DecodeError Instr :=
  match c with
  | .command w => decodeCommand w
  | .micro code operand => decodeMicro code operand
  | .csFrame bytes => decodeCsFrame bytes
  | .dsFrame bytes => decodeDsFrame bytes

/-! ## Encoding -/

/-- A register address as the one byte that carries it: `zext_8(addr)` (R56). -/
def addressByte (a : RegAddr) : Byte := 0#4 ++ a

/-- The command word of a host command (R60); a micro-operation or a frame has none and gives the word 0, which is illegal. -/
def commandWord (i : Instr) : CmdWord :=
  match i with
  | .wrreg a v => packCommand 0x02 (addressByte a) v
  | .rdreg a => packCommand 0x03 (addressByte a) 0
  | .wrdata => packCommand 0x10 0 0
  | .wrchunk n => packCommand 0x11 0 n
  | .fill b n => packCommand 0x12 b n
  | .hreset => packCommand 0x20 0 0
  | .sreset => packCommand 0x21 0 0
  | .cancel => packCommand 0x30 0 0
  | .verq => packCommand 0x40 0 0
  | .flowrd => packCommand 0x50 0 0
  | .waitrdy => packCommand 0x51 0 0
  | .csa | .csd | .dsa | .dsd | .rsta | .rstd | .poll | .xchg _ | .delay _ | .speedhi
  | .sciWriteFrame _ _ | .sciReadFrame _ _ _ | .sdiChunkFrame _ => 0

/-- The bits of an instruction, at its level. -/
def encode (i : Instr) : Code :=
  match i with
  | .wrreg _ _ | .rdreg _ | .wrdata | .wrchunk _ | .fill _ _ | .hreset | .sreset | .cancel | .verq | .flowrd | .waitrdy =>
    .command (commandWord i)
  | .csa => .micro 0x0 0
  | .csd => .micro 0x1 0
  | .dsa => .micro 0x2 0
  | .dsd => .micro 0x3 0
  | .rsta => .micro 0x4 0
  | .rstd => .micro 0x5 0
  | .poll => .micro 0x6 0
  | .xchg out => .micro 0x7 out
  | .delay t => .micro 0x8 t.code
  | .speedhi => .micro 0x9 0
  | .sciWriteFrame a v => .csFrame [0x02, addressByte a, v.extractLsb' 8 8, v.extractLsb' 0 8]
  | .sciReadFrame a d1 d2 => .csFrame [0x03, addressByte a, d1, d2]
  | .sdiChunkFrame bytes => .dsFrame bytes

/-- The instruction the decoder reads from table bits: 32 bits are a command word; up to 8 bits are a micro-operation's code in
bits 3:0 (bits above it 0), its operand byte 0. The wire frames' rows have the bits of WRREG and RDREG; the block's decoder
reads command words, so such bits are the command (log entry 13). -/
def decodeTableWord (nbits w : Nat) : Option Instr :=
  if nbits = 32 then
    if w < 2 ^ 32 then (decode (.command (BitVec.ofNat 32 w))).toOption else none
  else if nbits = 4 ∨ nbits = 8 then
    if w < 2 ^ 4 then (decode (.micro (BitVec.ofNat 4 w) 0)).toOption else none
  else none

end Sys2Proof
end

