-- ==== Sys2Proof/Machine/Constants.lean ====
section
/-! DEFINITION. The constants the spec fixes (00_scope.md R9), the register map (10_state.md R28), the mode bits (R29), and
the configuration of the block after reset (R10). -/

namespace Sys2Proof.Machine

/-- `OP_WRITE`, first byte of a register write frame (R9, R53). -/
def opWrite : Byte := 0x02

/-- `OP_READ`, first byte of a register read frame (R9, R54). -/
def opRead : Byte := 0x03

/-- `SM_RESET`, mode bit 2 (R9, R29). -/
def smReset : Half := 0x0004

/-- `SM_CANCEL`, mode bit 3 (R9, R29). -/
def smCancel : Half := 0x0008

/-- `SM_TESTS`, mode bit 5 (R9, R29): named by the spec, never written as 1 and never read by the block. -/
def smTests : Half := 0x0020

/-- `SM_NATIVE`, mode bit 11 (R9, R29). -/
def smNative : Half := 0x0800

/-- `MODE_SOFT_RESET` = `SM_NATIVE` or `SM_RESET` = 0x0804 (R9). -/
def modeSoftReset : Half := smNative ||| smReset

/-- `MODE_CANCEL` = `SM_NATIVE` or `SM_CANCEL` = 0x0808 (R9). -/
def modeCancel : Half := smNative ||| smCancel

/-- `CANCEL_PREFILL` (R9, R109). -/
def cancelPrefill : Nat := 2052

/-- `CANCEL_BUDGET` (R9, R113). -/
def cancelBudget : Nat := 2048

/-- `VER_TABLE_LEN` (R9, R121). -/
def verTableLen : Nat := 8

/-! The chip's registers (R28). -/

def regMode : RegAddr := 0x0
def regStatus : RegAddr := 0x1
def regBass : RegAddr := 0x2
def regClockf : RegAddr := 0x3
def regDtime : RegAddr := 0x4
def regAudata : RegAddr := 0x5
def regRamdata : RegAddr := 0x6
def regRamaddr : RegAddr := 0x7
def regHdat0 : RegAddr := 0x8
def regHdat1 : RegAddr := 0x9
def regAistart : RegAddr := 0xA
def regVol : RegAddr := 0xB
def regAictl0 : RegAddr := 0xC
def regAictl1 : RegAddr := 0xD
def regAictl2 : RegAddr := 0xE
def regAictl3 : RegAddr := 0xF

/-- The configuration at `State.reset`: the values R10 decides (D2, D7, D8, D18, D20, D21), and for each OPEN parameter a constant
without a body. `POLL_LIMIT` has its default, none. Log entries 3 and 17. -/
def initialConfig : Config where
  clockfValue := Config.openClockf
  volMute := 0xFFFF
  volAnalogOn := Config.openVolAnalogOn
  volDefault := Config.openVolDefault
  audataSlow := 0x000A
  audataTarget := Config.openAudataTarget
  endfillAddr := Config.openEndfillAddr
  cancelResultAddr := regStatus
  verLsb := 4
  dummyByte := 0xFF
  pollLimit := none
  tRstHold := Config.openRstHold
  tAnalog := Config.openAnalog
  tSoft1 := Config.openSoft1
  tSoft2 := Config.openSoft2
  hostAddrW := 32
  lenW := 32

/-- The example configuration `CFG_EX` (R11): the values of the worked examples, the four durations symbolic. No rule depends on
it, and no other definition of the machine uses it. -/
def cfgEx : Config where
  clockfValue := 0x8800
  volMute := 0xFFFF
  volAnalogOn := 0x0101
  volDefault := 0x2020
  audataSlow := 0x000A
  audataTarget := 0xAC45
  endfillAddr := 0x1E06
  cancelResultAddr := 0x1
  verLsb := 4
  dummyByte := 0xFF
  pollLimit := none
  tRstHold := Config.openRstHold
  tAnalog := Config.openAnalog
  tSoft1 := Config.openSoft1
  tSoft2 := Config.openSoft2
  hostAddrW := 32
  lenW := 32

end Sys2Proof.Machine
end

