-- ==== Sys2Proof/Machine/State.lean ====
section
/-! DEFINITION. The state of the block, its observation, its inputs, and why a step can stop (10_state.md, 00_scope.md R14
and R15). -/

namespace Sys2Proof.Machine

/-- One event of the trace (R15). -/
inductive Event where
  | csOn                          -- CS+
  | csOff                         -- CS-
  | dsOn                          -- DS+
  | dsOff                         -- DS-
  | rstOn                         -- RST+
  | rstOff                        -- RST-
  | poll (ready : Bool)           -- POLL(b)
  | xchg (out inp : Byte)         -- XCHG(out, in)
  | delay (t : Duration)          -- DELAY(T)
  | speedUp                       -- SPEED+
deriving DecidableEq, Repr

/-- The named error conditions and success (60_exceptions.md R126). -/
inductive ErrorCode where
  | ok
  | oversize
  | notResponding
  | cancelUnconfirmed
  | badVersion
  | illegalCmd
deriving DecidableEq, Repr

/-- The response delivered at the end of a command: the pair `(ERR, RESULT)` (R23). -/
structure Response where
  err : BitVec 4
  result : Half
deriving DecidableEq, Repr

/-- What the host presents on the command port (R22). -/
structure Launch where
  word : CmdWord
  base : Nat
  len : Nat
deriving DecidableEq, Repr

/-- The byte functions `f` that `Chunk` and `Stream` are called with (R88): the fill byte, or the host buffer from `BASE` plus
an offset. -/
inductive Source where
  | fill
  | buffer (off : Nat)
deriving DecidableEq, Repr

/-- The procedures a frame of `pc` can be in (R24): the eleven commands' own pseudocode and the seven procedures, with the
arguments of the call. -/
inductive Proc where
  | wrreg
  | rdreg
  | wrdata
  | wrchunk
  | fill
  | hreset
  | sreset
  | cancel
  | verq
  | flowrd
  | waitrdy
  | waitReady
  | sciWrite (a : RegAddr) (v : Half)
  | sciRead (a : RegAddr)
  | chunk (f : Source) (n : Nat)
  | stream (f : Source) (len : Nat)
  | hardReset
  | softReset
deriving DecidableEq, Repr

/-- One frame of `pc` (R24): the procedure and the number of the pseudocode line to execute next. `sub` is the place inside
that line where the line does more than one thing (HardReset 4a, 4b, 4c; the four exchanges of SoftReset 8; storing a value
that a call returned); 0 is its start. Log entry 15. -/
structure Frame where
  proc : Proc
  step : Nat
  sub : Nat
deriving DecidableEq, Repr

/-- `HOSTBUF` as the host has filled it (20_memory.md R37): address and byte, addresses strictly rising (`Memory.wf`). An
address that is not listed holds no byte (log entry 7). -/
abbrev Memory := List Host.Cell

/-- The state. -/
structure State where
  /-- `CS`, 1 = asserted (R16). -/
  cs : Bool
  /-- `DS` (R16). -/
  ds : Bool
  /-- `RST`, true holds the chip in reset (R16, R17). -/
  rst : Bool
  /-- `SPEED`, true = the higher clock speed (R19). -/
  speed : Bool
  /-- `CMD`, latched at acceptance (R22). -/
  cmd : CmdWord
  /-- `BUF_BASE`, `HOST_ADDR_W` bits, latched at acceptance (R22). -/
  bufBase : Nat
  /-- `BUF_LEN`, `LEN_W` bits, latched at acceptance (R22). -/
  bufLen : Nat
  /-- `BUSY` (R23). -/
  busy : Bool
  /-- `ERR` (R23, R126). -/
  err : BitVec 4
  /-- `RESULT` (R23). -/
  result : Half
  /-- `pc` (R24): the empty list is `IDLE`; the head is the innermost frame. -/
  pc : List Frame
  /-- `ADDR` (R25). -/
  addr : RegAddr
  /-- `DATA` (R25). -/
  data : Half
  /-- `FILL` (R25). -/
  fill : Byte
  /-- `BASE`, `HOST_ADDR_W` bits (R25). -/
  base : Nat
  /-- `REM`, `LEN_W` bits (R25): every write keeps the low `LEN_W` bits. Log entry 16. -/
  rem : Nat
  /-- `OFF`, `LEN_W` bits (R25). -/
  off : Nat
  /-- `N`, 6 bits (R25). -/
  n : BitVec 6
  /-- `I`, 6 bits (R25). -/
  i : BitVec 6
  /-- `BUD`, 12 bits (R25). -/
  bud : BitVec 12
  /-- `NPOLL`, as wide as `POLL_LIMIT` needs (R25). Log entry 16. -/
  npoll : Nat
  /-- `TMP` (R25). -/
  tmp : Half
  /-- The value the last `FlowReady()` returned, the pseudocode's `b` (R74, R79). Log entry 6. -/
  b : Bool
  /-- The value the last `Exchange` returned (R76). Log entry 6. -/
  reply : Byte
  /-- The pseudocode's `hi` (R83). Log entry 6. -/
  hi : Byte
  /-- The pseudocode's `lo` (R83). Log entry 6. -/
  lo : Byte
  /-- The pseudocode's `n` of `Stream` (R89). Log entry 6. -/
  size : Nat
  /-- The pseudocode's `r` (R85, R107). Log entry 6. -/
  r : Half
  /-- The pseudocode's `v` of VERQ (R119). Log entry 6. -/
  v : Nibble
  /-- The event trace, newest first (R15); `State.trace` is the trace in order. -/
  events : List Event
  /-- The responses, newest first (R15, R23); `State.responsesInOrder` is the list in order. -/
  responses : List Response
  /-- The answers the environment has ready for the coming polls, next first (R14, R20). Log entry 2. -/
  flowScript : List Bool
  /-- The running count of polls (R14). -/
  pollCount : Nat
  /-- The bytes the environment has ready for the coming exchanges, next first (R14, R21). Log entry 2. -/
  replyScript : List Byte
  /-- The running count of exchanges (R14). -/
  xchgCount : Nat
  /-- What the host presents on the command port, next first (R22, R64). Log entry 9. -/
  port : List Launch
  /-- The host buffer space (R37); no step changes it. -/
  hostbuf : Memory
  /-- The block-reset input (R141, R143, R162). Log entry 11. -/
  resetIn : Bool
  /-- The configuration record (R27); no step changes it. Log entry 3. -/
  cfg : Config
deriving DecidableEq, Repr

/-- Why the model stops with a fault. Both are unreachable from a launch that the model admits. -/
inductive Fault where
  /-- `MemRead` of a host buffer byte that is not defined. Raised by line 5 of `Chunk`; a launch that would read such a byte is
  refused before it starts (R163), so only a state that no launch reaches raises it. Safe. -/
  | hostbufUndefined
  /-- `pc` names a line that the procedure's pseudocode does not have. Raised by the line tables; no step reaches such a `pc`.
  Safe. -/
  | noSuchLine
deriving DecidableEq, Repr

/-- Why the model gives a step no meaning. -/
inductive Refusal where
  /-- An instruction that has no meaning in the model yet, by its mnemonic. Raised by `exec`'s refused arms only. Safe. -/
  | notModelled (mnemonic : String)
  /-- A launch of WRDATA or WRCHUNK whose buffer addresses would pass 2^`HOST_ADDR_W`. Raised at acceptance; the spec says the
  model refuses it (R37, R163). Safe. -/
  | bufferWraps
  /-- A launch of WRDATA or WRCHUNK with a buffer byte that is not defined. Raised at acceptance; the spec says the model refuses
  it (R163). Safe. -/
  | bufferUndefined
  /-- A data frame of more than 32 bytes, which is no frame of R55 and which the decoder never gives. Raised by the frame's
  meaning. Safe. -/
  | oversizedFrame
deriving DecidableEq, Repr

/-- The machine right after block reset (R35, R141): lines deasserted, low speed, flags 0, `IDLE`, trace empty. Operand and
working registers, for which the spec states no value, are 0 (DESIGN CHOICE, log entry 5); nothing is presented, scripted or
placed in the host buffer. -/
def State.reset : State where
  cs := false
  ds := false
  rst := false
  speed := false
  cmd := 0
  bufBase := 0
  bufLen := 0
  busy := false
  err := 0
  result := 0
  pc := []
  addr := 0
  data := 0
  fill := 0
  base := 0
  rem := 0
  off := 0
  n := 0
  i := 0
  bud := 0
  npoll := 0
  tmp := 0
  b := false
  reply := 0
  hi := 0
  lo := 0
  size := 0
  r := 0
  v := 0
  events := []
  responses := []
  flowScript := []
  pollCount := 0
  replyScript := []
  xchgCount := 0
  port := []
  hostbuf := []
  resetIn := false
  cfg := initialConfig

end Sys2Proof.Machine
end

