-- ==== Sys2Proof/Machine/Operands.lean ====
section
/-! DEFINITION. Every operand form: the latched command word's fields (R58, R59), the split and assembly of values (R41, R57),
the version nibble (R120), the cancel bit (R112) and the byte sources of a chunk (R88). -/

namespace Sys2Proof.Machine

/-- `CMD.a`. -/
def cmdA (s : State) : Byte := aField s.cmd

/-- `CMD.a[3:0]`. -/
def cmdAddr (s : State) : RegAddr := lowNibble (aField s.cmd)

/-- `CMD.v`. -/
def cmdV (s : State) : BitVec 16 := vField s.cmd

/-- `v[15:8]` (R41, R57). -/
def hiByte (v : Half) : Byte := v.extractLsb' 8 8

/-- `v[7:0]` (R41, R57). -/
def loByte (v : Half) : Byte := v.extractLsb' 0 8

/-- `hi ++ lo` (R57). -/
def joinBytes (hi lo : Byte) : Half := hi ++ lo

/-- `zext_8(addr)` (R56). -/
def addrByte (a : RegAddr) : Byte := addressByte a

/-- `s[VER_LSB+3 : VER_LSB]` (R57, R119, R120). -/
def versionNibble (c : Config) (status : Half) : Nibble := status.extractLsb' c.verLsb.val 4

/-- The version nibble is an index of the table (R121). -/
def versionInTable (v : Nibble) : Bool := decide (v.toNat < verTableLen)

/-- The cancel bit of a mode register value is clear: bit 3 is 0 (R112). -/
def cancelClear (mode : Half) : Bool := !mode.getLsbD 3

/-- `zext_16` of one bit (R79). -/
def boolHalf (b : Bool) : Half := if b then 1 else 0

/-- `zext_16` of the version nibble (R119). -/
def nibbleHalf (v : Nibble) : Half := v.setWidth 16

/-- `MemRead(a, 1)` where the address is defined (R37). -/
def Memory.read (m : Memory) (a : Nat) : Option Byte :=
  match m with
  | [] => none
  | (c, x) :: rest => if a = c then some x else Memory.read rest a

/-- The host places a byte in its buffer space (the block never does, R37). -/
def Memory.write (m : Memory) (a : Nat) (x : Byte) : Memory :=
  match m with
  | [] => [(a, x)]
  | (c, y) :: rest =>
    if a < c then (a, x) :: (c, y) :: rest
    else if a = c then (a, x) :: rest
    else (c, y) :: Memory.write rest a x

/-- The host places bytes at `a`, `a`+1, ... -/
def Memory.writeBytes (m : Memory) (a : Nat) (xs : List Byte) : Memory :=
  match xs with
  | [] => m
  | x :: rest => Memory.writeBytes (Memory.write m a x) (a + 1) rest

/-- Addresses rise strictly from `lo` on and stay below 2^`w`. -/
def Memory.risingFrom (w lo : Nat) (m : Memory) : Bool :=
  match m with
  | [] => true
  | (c, _) :: rest => decide (lo ≤ c) && decide (c < 2 ^ w) && Memory.risingFrom w (c + 1) rest

/-- The canonical form of a `HOSTBUF` with addresses of `w` = `HOST_ADDR_W` bits (R37). -/
def Memory.wf (w : Nat) (m : Memory) : Bool := Memory.risingFrom w 0 m

/-- Every byte at `a` .. `a` + `len` - 1 is defined (R163, `L_BUF`). -/
def Memory.definedAt (m : Memory) (a len : Nat) : Bool :=
  match len with
  | 0 => true
  | k + 1 => (Memory.read m a).isSome && Memory.definedAt m (a + 1) k

/-- The source moved on by `k` bytes: `i -> f(k + i)` (R89 line 4). -/
def Source.shift (f : Source) (k : Nat) : Source :=
  match f with
  | .fill => .fill
  | .buffer off => .buffer (off + k)

/-- `f(i)`: the fill byte, or `MemRead(x[BASE] + off + i, 1)` (R88, R90, R91, R92). -/
def sourceByte (f : Source) (i : Nat) (s : State) : Option Byte :=
  match f with
  | .fill => some s.fill
  | .buffer off => Memory.read s.hostbuf (s.base + off + i)

end Sys2Proof.Machine
end

