-- ==== Sys2Proof/Machine/Flags.lean ====
section
/-! DEFINITION. The flags `BUSY`, `ERR`, `RESULT` and the only operation that writes them at a command's end, `done`
(00_scope.md R13, 10_state.md R23, 60_exceptions.md R126). -/

namespace Sys2Proof.Machine

/-- The number `ERR` holds for each outcome (R126). -/
def ErrorCode.code (e : ErrorCode) : BitVec 4 :=
  match e with
  | .ok => 0
  | .oversize => 1
  | .notResponding => 2
  | .cancelUnconfirmed => 3
  | .badVersion => 4
  | .illegalCmd => 5

/-- `done(E, r)`: `ERR` and `RESULT` written, `BUSY` cleared, `pc` to `IDLE`, the response delivered (R13, R23). -/
def finish (e : ErrorCode) (r : Half) (s : State) : State :=
  { s with
    err := e.code, result := r, busy := false, pc := [],
    responses := { err := e.code, result := r } :: s.responses }

end Sys2Proof.Machine
end

