-- ==== Sys2Proof/Machine/Ops.lean ====
section
/-! DEFINITION. The shared operations: appending to the trace, the line operations, the two draws of the environment, the error
exit `raise`, acceptance of a command, moving `pc`, block reset. -/

namespace Sys2Proof.Machine

/-- The event trace in order, oldest first (R15). -/
def State.trace (s : State) : List Event := s.events.reverse

/-- The responses in order, oldest first (R15). -/
def State.responsesInOrder (s : State) : List Response := s.responses.reverse

/-- Append one event to the trace (R15). -/
def emit (e : Event) (s : State) : State := { s with events := e :: s.events }

/-! ## Lines (R67 to R72, R78) -/

/-- `Assert(CS)`. -/
def assertCs (s : State) : State := emit .csOn { s with cs := true }

/-- `Deassert(CS)`. -/
def deassertCs (s : State) : State := emit .csOff { s with cs := false }

/-- `Assert(DS)`. -/
def assertDs (s : State) : State := emit .dsOn { s with ds := true }

/-- `Deassert(DS)`. -/
def deassertDs (s : State) : State := emit .dsOff { s with ds := false }

/-- `Assert(RST)`. -/
def assertRst (s : State) : State := emit .rstOn { s with rst := true }

/-- `Deassert(RST)`. -/
def deassertRst (s : State) : State := emit .rstOff { s with rst := false }

/-- `SpeedHigh()`. -/
def speedHigh (s : State) : State := emit .speedUp { s with speed := true }

/-- `Delay(T)`: an event and nothing else (R77). -/
def delayFor (t : Duration) (s : State) : State := emit (.delay t) s

/-! ## The environment oracle (R14) -/

/-- The answer to the `k`-th coming poll (0 = the next): the script's, and beyond it the free value of the running count. -/
def State.flowAt (s : State) (k : Nat) : Bool :=
  match s.flowScript[k]? with
  | some x => x
  | none => Config.flow (s.pollCount + k)

/-- The byte the `k`-th coming exchange returns (0 = the next). -/
def State.replyAt (s : State) (k : Nat) : Byte :=
  match s.replyScript[k]? with
  | some x => x
  | none => Config.reply (s.xchgCount + k)

/-- `FlowReady()` (R73): one draw, one event; the value returned stands in `b`. -/
def flowReady (s : State) : State :=
  emit (.poll (s.flowAt 0))
    { s with b := s.flowAt 0, flowScript := s.flowScript.tail, pollCount := s.pollCount + 1 }

/-- `Exchange(out)` (R76): one draw, one event; the byte returned stands in `reply`. -/
def exchange (out : Byte) (s : State) : State :=
  emit (.xchg out (s.replyAt 0))
    { s with reply := s.replyAt 0, replyScript := s.replyScript.tail, xchgCount := s.xchgCount + 1 }

/-! ## The error exit (R130) -/

/-- Line 1 of `raise`: if `CS` is asserted, deassert it. -/
def releaseCs (s : State) : State := if s.cs then deassertCs s else s

/-- Line 2 of `raise`: if `DS` is asserted, deassert it. -/
def releaseDs (s : State) : State := if s.ds then deassertDs s else s

/-- `raise E(info)` (R130): the block's exception entry. The whole command ends; `info` is 0 where the raise gives none. -/
def raiseError (e : ErrorCode) (info : Half) (s : State) : State :=
  finish e info (releaseDs (releaseCs s))

/-! ## Return from a command (R136)

There is no return operation: `finish` and `raiseError` leave the block in `IDLE` with `BUSY` = 0, and the next step accepts
the next command. -/

/-! ## The command port (R22) -/

/-- `CMD`, `BUF_BASE` and `BUF_LEN` latched from what the host presents, `rest` still waiting (R22, R50); the operand registers
hold `HOST_ADDR_W` and `LEN_W` bits. -/
def latch (l : Launch) (rest : List Launch) (s : State) : State :=
  { s with port := rest, cmd := l.word, bufBase := s.cfg.fitAddr l.base, bufLen := s.cfg.fitLen l.len }

/-- What the block takes from the port when it is idle: the oldest presented command, latched into `CMD`, `BUF_BASE` and
`BUF_LEN` (R22, R50); none where the host presents nothing. -/
def fetch (s : State) : Option (State × CmdWord) :=
  match s.port with
  | [] => none
  | l :: rest => some (latch l rest s, l.word)

/-- Acceptance of a legal command (R22): `CMD` holds its word, `BUSY` is set, `pc` is the first line of the command's own
pseudocode. -/
def accept (p : Proc) (w : CmdWord) (s : State) : State :=
  { s with cmd := w, busy := true, pc := [{ proc := p, step := 1, sub := 0 }] }

/-- The start of a host command. While `BUSY` = 1 a command is not accepted and not lost, it waits (R22): nothing changes. -/
def start (p : Proc) (i : Instr) (s : State) : Host.Outcome State Fault Refusal :=
  if s.busy then .next s else .next (accept p (commandWord i) s)

/-- The launch premise `L_BUF` (R163) for a transfer of `len` bytes from `BUF_BASE`: which part of it fails, if any. -/
def launchRefusal (len : Nat) (s : State) : Option Refusal :=
  if s.bufBase + len > 2 ^ s.cfg.hostAddrW then some .bufferWraps
  else if Memory.definedAt s.hostbuf s.bufBase len then none
  else some .bufferUndefined

/-- The start of a transfer out of the host buffer: refused where `L_BUF` fails (R37, R163). -/
def startTransfer (p : Proc) (i : Instr) (len : Nat) (s : State) : Host.Outcome State Fault Refusal :=
  if s.busy then .next s
  else
    match launchRefusal len s with
    | some why => .refused why
    | none => start p i s

/-! ## Moving `pc` (R24) -/

/-- The innermost frame moved to line `k`, place `j`. -/
def retop (k j : Nat) (pc : List Frame) : List Frame :=
  match pc with
  | [] => []
  | f :: fs => { proc := f.proc, step := k, sub := j } :: fs

/-- `pc <- step k` in the same procedure. -/
def goTo (k j : Nat) (s : State) : State := { s with pc := retop k j s.pc }

/-- A call: the caller will go on at line `k`, place `j`; the callee starts at its first line. -/
def call (p : Proc) (k j : Nat) (s : State) : State :=
  { s with pc := { proc := p, step := 1, sub := 0 } :: retop k j s.pc }

/-- A return: the innermost frame ends. -/
def leave (s : State) : State := { s with pc := s.pc.tail }

/-! ## What one pseudocode line asks for -/

/-- Where the value that a micro-operation returns is kept, beside `b` and `reply`. -/
inductive Dest where
  | discard
  | hi
  | lo
deriving DecidableEq, Repr

/-- What one line of pseudocode does (R13, R24). `k` and `j` are the line and place to go on at. -/
inductive Act where
  /-- One micro-operation. -/
  | micro (u : Instr) (d : Dest) (k j : Nat)
  /-- An assignment: the state after it. -/
  | assign (t : State) (k j : Nat)
  /-- A test or a jump. -/
  | goto (k j : Nat)
  /-- A procedure call. -/
  | call (p : Proc) (k j : Nat)
  /-- The end of a procedure. -/
  | ret
  /-- `done(E, r)`. -/
  | done (e : ErrorCode) (r : Half)
  /-- `raise E(info)`. -/
  | raise (e : ErrorCode) (info : Half)
  /-- The line cannot be executed. -/
  | stop (f : Fault)

/-- The value of the last exchange kept under the name the pseudocode gives it (R83 lines 6 and 7). -/
def keep (d : Dest) (s : State) : State :=
  match d with
  | .discard => s
  | .hi => { s with hi := s.reply }
  | .lo => { s with lo := s.reply }

/-- After a micro-operation: its value kept, `pc` at the next line. -/
def afterMicro (d : Dest) (k j : Nat) (s : State) : State := goTo k j (keep d s)

/-- A line that is no micro-operation. (A micro-operation is executed by `step` through `exec`; here it changes nothing.) -/
def perform (act : Act) (s : State) : Host.Outcome State Fault Refusal :=
  match act with
  | .micro _ _ _ _ => .next s
  | .assign t k j => .next (goTo k j t)
  | .goto k j => .next (goTo k j s)
  | .call p k j => .next (call p k j s)
  | .ret => .next (leave s)
  | .done e r => .next (finish e r s)
  | .raise e info => .next (raiseError e info s)
  | .stop f => .fault f

/-- What follows an outcome that is a next state. -/
def andThen (o : Host.Outcome State Fault Refusal) (f : State → State) : Host.Outcome State Fault Refusal :=
  match o with
  | .next s => .next (f s)
  | .fault r => .fault r
  | .refused r => .refused r

/-! ## Block reset (R141, R143) -/

/-- Block reset: every state element at its reset value; no micro-operation, no response. The configuration (R35), the host's
side (port, buffer) and the environment's draws are not the block's and stay; the reset input is taken. Log entry 11. -/
def blockReset (s : State) : State :=
  { State.reset with
    cfg := s.cfg, port := s.port, hostbuf := s.hostbuf,
    flowScript := s.flowScript, pollCount := s.pollCount,
    replyScript := s.replyScript, xchgCount := s.xchgCount }

end Sys2Proof.Machine
end

