-- ==== Sys2Proof/Machine/Cancel.lean ====
section
/-! DEFINITION. Playback-Cancel handshake (44_playback_cancel.md): the meaning of CANCEL and its pseudocode. -/

namespace Sys2Proof.Machine

/-- CANCEL (R107): accepted, its pseudocode is `cancelLine`. -/
def execCancel (s : State) : Host.Outcome State Fault Refusal := start .cancel .cancel s

/-- CANCEL (R107). Place 1 of lines 2, 9, 11, 12 stores the value the read returned; place 2 of line 11 is its `done`. -/
def cancelLine (step sub : Nat) (s : State) : Act :=
  match step, sub with
  | 1, 0 => .call (.sciWrite regRamaddr s.cfg.endfillAddr) 2 0
  | 2, 0 => .call (.sciRead regRamdata) 2 1
  | 2, 1 => .assign { s with tmp := s.data, fill := loByte s.data } 3 0
  | 3, 0 => .call (.stream .fill cancelPrefill) 4 0
  | 4, 0 => .call (.sciWrite regMode modeCancel) 5 0
  | 5, 0 => .assign { s with bud := BitVec.ofNat 12 cancelBudget } 6 0
  | 6, 0 => if 0 < s.bud then .goto 7 0 else .goto 12 0
  | 7, 0 => .call (.chunk .fill chunkMax) 8 0
  | 8, 0 => .assign { s with bud := s.bud - BitVec.ofNat 12 chunkMax } 9 0
  | 9, 0 => .call (.sciRead regMode) 9 1
  | 9, 1 => .assign { s with tmp := s.data } 10 0
  | 10, 0 => if cancelClear s.tmp then .goto 11 0 else .goto 6 0
  | 11, 0 => .call (.sciRead s.cfg.cancelResultAddr) 11 1
  | 11, 1 => .assign { s with r := s.data } 11 2
  | 11, 2 => .done .ok s.r
  | 12, 0 => .call (.sciRead s.cfg.cancelResultAddr) 12 1
  | 12, 1 => .assign { s with r := s.data } 13 0
  | 13, 0 => .done .cancelUnconfirmed s.r
  | _, _ => .stop .noSuchLine

end Sys2Proof.Machine
end

