-- ==== Sys2Proof/Machine/LineGate.lean ====
section
/-! DEFINITION. Line Controller, Flow-Control Gate and the other micro-operations (40_line_and_gate.md): the meanings of CSA,
CSD, DSA, DSD, RSTA, RSTD, POLL, XCHG, DELAY, SPEEDHI, FLOWRD, WAITRDY, and the pseudocode of `WaitReady`, FLOWRD, WAITRDY. -/

namespace Sys2Proof.Machine

/-! ## Micro-operations -/

/-- CSA (R67). -/
def execCsa (s : State) : Host.Outcome State Fault Refusal := .next (assertCs s)

/-- CSD (R68). -/
def execCsd (s : State) : Host.Outcome State Fault Refusal := .next (deassertCs s)

/-- DSA (R69). -/
def execDsa (s : State) : Host.Outcome State Fault Refusal := .next (assertDs s)

/-- DSD (R70). -/
def execDsd (s : State) : Host.Outcome State Fault Refusal := .next (deassertDs s)

/-- RSTA (R71). -/
def execRsta (s : State) : Host.Outcome State Fault Refusal := .next (assertRst s)

/-- RSTD (R72). -/
def execRstd (s : State) : Host.Outcome State Fault Refusal := .next (deassertRst s)

/-- POLL (R73). -/
def execPoll (s : State) : Host.Outcome State Fault Refusal := .next (flowReady s)

/-- XCHG (R76). -/
def execXchg (out : Byte) (s : State) : Host.Outcome State Fault Refusal := .next (exchange out s)

/-- DELAY (R77). -/
def execDelay (t : Duration) (s : State) : Host.Outcome State Fault Refusal := .next (delayFor t s)

/-- SPEEDHI (R78). -/
def execSpeedhi (s : State) : Host.Outcome State Fault Refusal := .next (speedHigh s)

/-! ## Host commands -/

/-- FLOWRD (R79): accepted, its pseudocode is `flowrdLine`. -/
def execFlowrd (s : State) : Host.Outcome State Fault Refusal := start .flowrd .flowrd s

/-- WAITRDY (R80): accepted, its pseudocode is `waitrdyLine`. -/
def execWaitrdy (s : State) : Host.Outcome State Fault Refusal := start .waitrdy .waitrdy s

/-! ## Pseudocode -/

/-- Step 5 of `WaitReady`: `POLL_LIMIT` = some k and `NPOLL` >= k (R74, R75). -/
def limitReached (limit : Option Nat) (npoll : Nat) : Bool :=
  match limit with
  | none => false
  | some k => decide (k ≤ npoll)

/-- `WaitReady()` (R74). -/
def waitReadyLine (step sub : Nat) (s : State) : Act :=
  match step, sub with
  | 1, 0 => .assign { s with npoll := 0 } 2 0
  | 2, 0 => .micro .poll .discard 3 0
  | 3, 0 => if s.b then .ret else .goto 4 0
  | 4, 0 => .assign { s with npoll := s.npoll + 1 } 5 0
  | 5, 0 => if limitReached s.cfg.pollLimit s.npoll then .raise .notResponding 0 else .goto 6 0
  | 6, 0 => .goto 2 0
  | _, _ => .stop .noSuchLine

/-- FLOWRD (R79). -/
def flowrdLine (step sub : Nat) (s : State) : Act :=
  match step, sub with
  | 1, 0 => .micro .poll .discard 2 0
  | 2, 0 => .done .ok (boolHalf s.b)
  | _, _ => .stop .noSuchLine

/-- WAITRDY (R80). -/
def waitrdyLine (step sub : Nat) : Act :=
  match step, sub with
  | 1, 0 => .call .waitReady 2 0
  | 2, 0 => .done .ok 0
  | _, _ => .stop .noSuchLine

end Sys2Proof.Machine
end

