-- ==== Sys2Proof/Machine/Register.lean ====
section
/-! DEFINITION. Register Protocol (41_register_protocol.md): the meanings of WRREG and RDREG and the pseudocode of `SciWrite`,
`SciRead`, WRREG, RDREG. -/

namespace Sys2Proof.Machine

/-- WRREG (R84): accepted, its pseudocode is `wrregLine`. -/
def execWrreg (addr : RegAddr) (value : Half) (s : State) : Host.Outcome State Fault Refusal :=
  start .wrreg (.wrreg addr value) s

/-- RDREG (R85): accepted, its pseudocode is `rdregLine`. -/
def execRdreg (addr : RegAddr) (s : State) : Host.Outcome State Fault Refusal :=
  start .rdreg (.rdreg addr) s

/-- `SciWrite(a, v)` (R82). -/
def sciWriteLine (a : RegAddr) (v : Half) (step sub : Nat) (s : State) : Act :=
  match step, sub with
  | 1, 0 => .assign { s with addr := a, data := v } 2 0
  | 2, 0 => .call .waitReady 3 0
  | 3, 0 => .micro .csa .discard 4 0
  | 4, 0 => .micro (.xchg opWrite) .discard 5 0
  | 5, 0 => .micro (.xchg (addrByte s.addr)) .discard 6 0
  | 6, 0 => .micro (.xchg (hiByte s.data)) .discard 7 0
  | 7, 0 => .micro (.xchg (loByte s.data)) .discard 8 0
  | 8, 0 => .micro .csd .discard 9 0
  | 9, 0 => .ret
  | _, _ => .stop .noSuchLine

/-- `SciRead(a)` (R83); the value returned stands in `DATA`. -/
def sciReadLine (a : RegAddr) (step sub : Nat) (s : State) : Act :=
  match step, sub with
  | 1, 0 => .assign { s with addr := a } 2 0
  | 2, 0 => .call .waitReady 3 0
  | 3, 0 => .micro .csa .discard 4 0
  | 4, 0 => .micro (.xchg opRead) .discard 5 0
  | 5, 0 => .micro (.xchg (addrByte s.addr)) .discard 6 0
  | 6, 0 => .micro (.xchg s.cfg.dummyByte) .hi 7 0
  | 7, 0 => .micro (.xchg s.cfg.dummyByte) .lo 8 0
  | 8, 0 => .assign { s with data := joinBytes s.hi s.lo } 9 0
  | 9, 0 => .micro .csd .discard 10 0
  | 10, 0 => .ret
  | _, _ => .stop .noSuchLine

/-- WRREG (R84). -/
def wrregLine (step sub : Nat) (s : State) : Act :=
  match step, sub with
  | 1, 0 => .call (.sciWrite (cmdAddr s) (cmdV s)) 2 0
  | 2, 0 => .done .ok 0
  | _, _ => .stop .noSuchLine

/-- RDREG (R85). -/
def rdregLine (step sub : Nat) (s : State) : Act :=
  match step, sub with
  | 1, 0 => .call (.sciRead (cmdAddr s)) 1 1
  | 1, 1 => .assign { s with r := s.data } 2 0
  | 2, 0 => .done .ok s.r
  | _, _ => .stop .noSuchLine

end Sys2Proof.Machine
end

