-- ==== Sys2Proof/Machine/ResetSeq.lean ====
section
/-! DEFINITION. Reset Sequencer (43_reset_sequencer.md): the meanings of HRESET and SRESET and the pseudocode of `HardReset`,
`SoftReset`, HRESET, SRESET. -/

namespace Sys2Proof.Machine

/-- HRESET (R101): accepted, its pseudocode is `hresetLine`. -/
def execHreset (s : State) : Host.Outcome State Fault Refusal := start .hreset .hreset s

/-- SRESET (R102): accepted, its pseudocode is `sresetLine`. -/
def execSreset (s : State) : Host.Outcome State Fault Refusal := start .sreset .sreset s

/-- `HardReset()` (R99); places 0, 1, 2 of line 4 are 4a, 4b, 4c. -/
def hardResetLine (step sub : Nat) (s : State) : Act :=
  match step, sub with
  | 1, 0 => .micro .rsta .discard 2 0
  | 2, 0 => .micro (.delay .rstHold) .discard 3 0
  | 3, 0 => .micro (.xchg s.cfg.dummyByte) .discard 4 0
  | 4, 0 => .micro .csd .discard 4 1
  | 4, 1 => .micro .dsd .discard 4 2
  | 4, 2 => .micro .rstd .discard 5 0
  | 5, 0 => .call (.sciWrite regVol s.cfg.volMute) 6 0
  | 6, 0 => .call (.sciWrite regClockf s.cfg.clockfValue) 7 0
  | 7, 0 => .call .waitReady 8 0
  | 8, 0 => .call (.sciWrite regAudata s.cfg.audataSlow) 9 0
  | 9, 0 => .micro (.delay .analog) .discard 10 0
  | 10, 0 => .call (.sciWrite regVol s.cfg.volAnalogOn) 11 0
  | 11, 0 => .call (.sciWrite regAudata s.cfg.audataTarget) 12 0
  | 12, 0 => .call (.sciWrite regVol s.cfg.volDefault) 13 0
  | 13, 0 => .call .softReset 14 0
  | 14, 0 => .micro .speedhi .discard 15 0
  | 15, 0 => .ret
  | _, _ => .stop .noSuchLine

/-- `SoftReset()` (R100); places 0 to 3 of line 8 are its four exchanges. -/
def softResetLine (step sub : Nat) (s : State) : Act :=
  match step, sub with
  | 1, 0 => .call (.sciWrite regMode modeSoftReset) 2 0
  | 2, 0 => .micro (.delay .soft1) .discard 3 0
  | 3, 0 => .call .waitReady 4 0
  | 4, 0 => .call (.sciWrite regClockf s.cfg.clockfValue) 5 0
  | 5, 0 => .micro (.delay .soft2) .discard 6 0
  | 6, 0 => .call .waitReady 7 0
  | 7, 0 => .micro .dsa .discard 8 0
  | 8, 0 => .micro (.xchg 0) .discard 8 1
  | 8, 1 => .micro (.xchg 0) .discard 8 2
  | 8, 2 => .micro (.xchg 0) .discard 8 3
  | 8, 3 => .micro (.xchg 0) .discard 9 0
  | 9, 0 => .micro .dsd .discard 10 0
  | 10, 0 => .ret
  | _, _ => .stop .noSuchLine

/-- HRESET (R101). -/
def hresetLine (step sub : Nat) : Act :=
  match step, sub with
  | 1, 0 => .call .hardReset 2 0
  | 2, 0 => .done .ok 0
  | _, _ => .stop .noSuchLine

/-- SRESET (R102). -/
def sresetLine (step sub : Nat) : Act :=
  match step, sub with
  | 1, 0 => .call .softReset 2 0
  | 2, 0 => .done .ok 0
  | _, _ => .stop .noSuchLine

end Sys2Proof.Machine
end

