-- ==== Sys2Proof/Machine/Streaming.lean ====
section
/-! DEFINITION. Streaming Protocol (42_streaming_protocol.md): the meanings of WRCHUNK, WRDATA, FILL and the pseudocode of
`Chunk`, `Stream`, WRCHUNK, WRDATA, FILL. -/

namespace Sys2Proof.Machine

/-- WRDATA (R91): refused where `L_BUF` fails (R163), else accepted; its pseudocode is `wrdataLine`. -/
def execWrdata (s : State) : Host.Outcome State Fault Refusal :=
  startTransfer .wrdata .wrdata s.bufLen s

/-- WRCHUNK (R90): accepted; its pseudocode is `wrchunkLine`. A chunk of at most 32 bytes needs `L_BUF` (R163); a longer one
reads no byte (R95) and needs nothing (log entry 8). -/
def execWrchunk (n : BitVec 16) (s : State) : Host.Outcome State Fault Refusal :=
  if n.toNat > chunkMax then start .wrchunk (.wrchunk n) s else startTransfer .wrchunk (.wrchunk n) n.toNat s

/-- FILL (R92): accepted, its pseudocode is `fillLine`. -/
def execFill (byte : Byte) (count : BitVec 16) (s : State) : Host.Outcome State Fault Refusal :=
  start .fill (.fill byte count) s

/-- `Chunk(f, n)` (R88). -/
def chunkLine (f : Source) (n : Nat) (step sub : Nat) (s : State) : Act :=
  match step, sub with
  | 1, 0 => .assign { s with n := BitVec.ofNat 6 n, i := 0 } 2 0
  | 2, 0 => .call .waitReady 3 0
  | 3, 0 => .micro .dsa .discard 4 0
  | 4, 0 => if s.i < s.n then .goto 5 0 else .goto 7 0
  | 5, 0 =>
    match sourceByte f s.i.toNat s with
    | some x => .micro (.xchg x) .discard 6 0
    | none => .stop .hostbufUndefined
  | 6, 0 => .assign { s with i := s.i + 1 } 4 0
  | 7, 0 => .micro .dsd .discard 8 0
  | 8, 0 => .ret
  | _, _ => .stop .noSuchLine

/-- `Stream(f, L)` (R89). -/
def streamLine (f : Source) (len : Nat) (step sub : Nat) (s : State) : Act :=
  match step, sub with
  | 1, 0 => .assign { s with off := 0, rem := s.cfg.fitLen len } 2 0
  | 2, 0 => if s.rem > 0 then .goto 3 0 else .goto 7 0
  | 3, 0 => .assign { s with size := min chunkMax s.rem } 4 0
  | 4, 0 => .call (.chunk (f.shift s.off) s.size) 5 0
  | 5, 0 => .assign { s with off := s.cfg.fitLen (s.off + s.size) } 6 0
  | 6, 0 => .assign { s with rem := s.rem - s.size } 2 0
  | 7, 0 => .ret
  | _, _ => .stop .noSuchLine

/-- WRCHUNK (R90). -/
def wrchunkLine (step sub : Nat) (s : State) : Act :=
  match step, sub with
  | 1, 0 => if (cmdV s).toNat > chunkMax then .raise .oversize 0 else .goto 2 0
  | 2, 0 => .assign { s with base := s.bufBase } 3 0
  | 3, 0 => .call (.chunk (.buffer 0) (cmdV s).toNat) 4 0
  | 4, 0 => .done .ok 0
  | _, _ => .stop .noSuchLine

/-- WRDATA (R91). -/
def wrdataLine (step sub : Nat) (s : State) : Act :=
  match step, sub with
  | 1, 0 => .assign { s with base := s.bufBase } 2 0
  | 2, 0 => .call (.stream (.buffer 0) s.bufLen) 3 0
  | 3, 0 => .done .ok 0
  | _, _ => .stop .noSuchLine

/-- FILL (R92). -/
def fillLine (step sub : Nat) (s : State) : Act :=
  match step, sub with
  | 1, 0 => .assign { s with fill := cmdA s } 2 0
  | 2, 0 => .call (.stream .fill (cmdV s).toNat) 3 0
  | 3, 0 => .done .ok 0
  | _, _ => .stop .noSuchLine

end Sys2Proof.Machine
end

