-- ==== Sys2Proof/Machine/Version.lean ====
section
/-! DEFINITION. Version Query (45_version_query.md): the meaning of VERQ and its pseudocode. -/

namespace Sys2Proof.Machine

/-- VERQ (R119): accepted, its pseudocode is `verqLine`. -/
def execVerq (s : State) : Host.Outcome State Fault Refusal := start .verq .verq s

/-- VERQ (R119); place 1 of line 1 stores the value the read returned. -/
def verqLine (step sub : Nat) (s : State) : Act :=
  match step, sub with
  | 1, 0 => .call (.sciRead regStatus) 1 1
  | 1, 1 => .assign { s with tmp := s.data } 2 0
  | 2, 0 => .assign { s with v := versionNibble s.cfg s.tmp } 3 0
  | 3, 0 => if versionInTable s.v then .goto 4 0 else .raise .badVersion (nibbleHalf s.v)
  | 4, 0 => .done .ok (nibbleHalf s.v)
  | _, _ => .stop .noSuchLine

end Sys2Proof.Machine
end

