-- ==== Sys2Proof/Machine/Wire.lean ====
section
/-! DEFINITION. The wire frames (30_encoding.md R53, R54, R55): what one whole frame does, from the assertion of its select
line to the deassertion (20_memory.md R45). The gate before it is the procedures' (R82, R83, R88). -/

namespace Sys2Proof.Machine

/-- SCI_WRITE_FRAME (R53): four exchanges under `CS`, replies discarded; lines 3 to 8 of `SciWrite`. -/
def execSciWriteFrame (addr : RegAddr) (value : Half) (s : State) : Host.Outcome State Fault Refusal :=
  .next (deassertCs (exchange (loByte value) (exchange (hiByte value) (exchange (addrByte addr)
    (exchange opWrite (assertCs s))))))

/-- SCI_READ_FRAME (R54): four exchanges under `CS`; the third and the fourth reply are captured as the high and the low byte of
the value, which is assembled in `DATA`; lines 3 to 9 of `SciRead`. R54 sends `DUMMY_BYTE` as the third and the fourth byte, and so
does the sequencer; that the frame as an instruction has any two bytes there, also unequal ones, is the model's choice
(DESIGN CHOICE, log entry 26). -/
def execSciReadFrame (addr : RegAddr) (dummy1 dummy2 : Byte) (s : State) : Host.Outcome State Fault Refusal :=
  let s2 := exchange (addrByte addr) (exchange opRead (assertCs s))
  let s3 := keep .hi (exchange dummy1 s2)
  let s4 := keep .lo (exchange dummy2 s3)
  .next (deassertCs { s4 with data := joinBytes s4.hi s4.lo })

/-- The exchanges of a data frame, in order (R42, R55). -/
def exchangeAll (bytes : List Byte) (s : State) : State :=
  match bytes with
  | [] => s
  | x :: rest => exchangeAll rest (exchange x s)

/-- SDI_CHUNK_FRAME (R55): at most 32 exchanges under `DS`, replies discarded. -/
def execSdiChunkFrame (bytes : List Byte) (s : State) : Host.Outcome State Fault Refusal :=
  if bytes.length ≤ chunkMax then .next (deassertDs (exchangeAll bytes (assertDs s))) else .refused .oversizedFrame

end Sys2Proof.Machine
end

