-- ==== Sys2Proof/Machine/Dispatch.lean ====
section
/-! DEFINITION. One arm per instruction. -/

namespace Sys2Proof.Machine

def exec (i : Instr) (s : State) : Host.Outcome State Fault Refusal :=
  match i with
  | .wrreg addr value => Sys2Proof.Machine.execWrreg addr value s
  | .rdreg addr => Sys2Proof.Machine.execRdreg addr s
  | .wrdata => Sys2Proof.Machine.execWrdata s
  | .wrchunk n => Sys2Proof.Machine.execWrchunk n s
  | .fill byte count => Sys2Proof.Machine.execFill byte count s
  | .hreset => Sys2Proof.Machine.execHreset s
  | .sreset => Sys2Proof.Machine.execSreset s
  | .cancel => Sys2Proof.Machine.execCancel s
  | .verq => Sys2Proof.Machine.execVerq s
  | .flowrd => Sys2Proof.Machine.execFlowrd s
  | .waitrdy => Sys2Proof.Machine.execWaitrdy s
  | .csa => Sys2Proof.Machine.execCsa s
  | .csd => Sys2Proof.Machine.execCsd s
  | .dsa => Sys2Proof.Machine.execDsa s
  | .dsd => Sys2Proof.Machine.execDsd s
  | .rsta => Sys2Proof.Machine.execRsta s
  | .rstd => Sys2Proof.Machine.execRstd s
  | .poll => Sys2Proof.Machine.execPoll s
  | .xchg out => Sys2Proof.Machine.execXchg out s
  | .delay t => Sys2Proof.Machine.execDelay t s
  | .speedhi => Sys2Proof.Machine.execSpeedhi s
  | .sciWriteFrame addr value => Sys2Proof.Machine.execSciWriteFrame addr value s
  | .sciReadFrame addr dummy1 dummy2 => Sys2Proof.Machine.execSciReadFrame addr dummy1 dummy2 s
  | .sdiChunkFrame bytes => Sys2Proof.Machine.execSdiChunkFrame bytes s

end Sys2Proof.Machine
end

