-- ==== Sys2Proof/Machine/Sequencer.lean ====
section
/-! DEFINITION. The sequencer: which pseudocode line stands at `pc` (10_state.md R24), what an idle block does with the command
port (R22, R61), and where a given instruction is the next one to run. -/

namespace Sys2Proof.Machine

/-- What the line at a frame asks for. -/
def lineOf (f : Frame) (s : State) : Act :=
  match f.proc with
  | .wrreg => wrregLine f.step f.sub s
  | .rdreg => rdregLine f.step f.sub s
  | .wrdata => wrdataLine f.step f.sub s
  | .wrchunk => wrchunkLine f.step f.sub s
  | .fill => fillLine f.step f.sub s
  | .hreset => hresetLine f.step f.sub
  | .sreset => sresetLine f.step f.sub
  | .cancel => cancelLine f.step f.sub s
  | .verq => verqLine f.step f.sub s
  | .flowrd => flowrdLine f.step f.sub s
  | .waitrdy => waitrdyLine f.step f.sub
  | .waitReady => waitReadyLine f.step f.sub s
  | .sciWrite a v => sciWriteLine a v f.step f.sub s
  | .sciRead a => sciReadLine a f.step f.sub s
  | .chunk g n => chunkLine g n f.step f.sub s
  | .stream g len => streamLine g len f.step f.sub s
  | .hardReset => hardResetLine f.step f.sub s
  | .softReset => softResetLine f.step f.sub s

/-- What a line asks for, done: a micro-operation goes through `exec`, then its value is kept and `pc` moves on (R13, R24). -/
def runAct (act : Act) (s : State) : Host.Outcome State Fault Refusal :=
  match act with
  | .micro u d k j => andThen (exec u s) (afterMicro d k j)
  | .assign t k j => perform (.assign t k j) s
  | .goto k j => perform (.goto k j) s
  | .call p k j => perform (.call p k j) s
  | .ret => perform .ret s
  | .done e r => perform (.done e r) s
  | .raise e info => perform (.raise e info) s
  | .stop why => perform (.stop why) s

/-- One line of a running command. -/
def runLine (f : Frame) (s : State) : Host.Outcome State Fault Refusal := runAct (lineOf f s) s

/-- An idle block: it does nothing until the host presents a command (R24, R142); it takes the command from the port and decodes
it; a legal command starts, an illegal word ends at once with `raise IllegalCmd` (R61, R132). -/
def runIdle (s : State) : Host.Outcome State Fault Refusal :=
  match fetch s with
  | none => .next s
  | some (t, w) =>
    match decode (.command w) with
    | .ok i => exec i t
    | .error _ => .next (raiseError .illegalCmd 0 t)

/-- One step of the sequencer. With `IDLE` and `BUSY` = 1, which no run reaches, nothing happens (log entry 24). -/
def sequence (s : State) : Host.Outcome State Fault Refusal :=
  match s.pc with
  | [] => if s.busy then .next s else runIdle s
  | f :: _ => runLine f s

/-! ## Placing the next instruction (log entry 10) -/

/-- The block idle with `w` presented on the command port, the operand registers as they are. -/
def placeCommand (w : CmdWord) (s : State) : State :=
  { s with
    resetIn := false, busy := false, pc := [],
    port := { word := w, base := s.bufBase, len := s.bufLen } :: s.port }

/-- A `pc` whose next line is the micro-operation: a line of a procedure that performs it, under a caller. -/
def microSite (u : Instr) : List Frame :=
  match u with
  | .csa => [⟨.sciWrite 0 0, 3, 0⟩, ⟨.wrreg, 2, 0⟩]
  | .csd => [⟨.sciWrite 0 0, 8, 0⟩, ⟨.wrreg, 2, 0⟩]
  | .dsa => [⟨.softReset, 7, 0⟩, ⟨.sreset, 2, 0⟩]
  | .dsd => [⟨.softReset, 9, 0⟩, ⟨.sreset, 2, 0⟩]
  | .rsta => [⟨.hardReset, 1, 0⟩, ⟨.hreset, 2, 0⟩]
  | .rstd => [⟨.hardReset, 4, 2⟩, ⟨.hreset, 2, 0⟩]
  | .poll => [⟨.flowrd, 1, 0⟩]
  | .xchg _ => [⟨.sciWrite 0 0, 7, 0⟩, ⟨.wrreg, 2, 0⟩]
  | .delay .rstHold => [⟨.hardReset, 2, 0⟩, ⟨.hreset, 2, 0⟩]
  | .delay .analog => [⟨.hardReset, 9, 0⟩, ⟨.hreset, 2, 0⟩]
  | .delay .soft1 => [⟨.softReset, 2, 0⟩, ⟨.sreset, 2, 0⟩]
  | .delay .soft2 => [⟨.softReset, 5, 0⟩, ⟨.sreset, 2, 0⟩]
  | .speedhi => [⟨.hardReset, 14, 0⟩, ⟨.hreset, 2, 0⟩]
  | .wrreg _ _ | .rdreg _ | .wrdata | .wrchunk _ | .fill _ _ | .hreset | .sreset | .cancel | .verq | .flowrd | .waitrdy
  | .sciWriteFrame _ _ | .sciReadFrame _ _ _ | .sdiChunkFrame _ => []

/-- The register value a micro-operation's operand is read from at its site: `DATA` for XCHG. -/
def siteData (u : Instr) (d : Half) : Half :=
  match u with
  | .xchg out => joinBytes (hiByte d) out
  | _ => d

/-- The block busy, at a line that performs the micro-operation `u`. -/
def placeMicro (u : Instr) (s : State) : State :=
  { s with resetIn := false, busy := true, pc := microSite u, data := siteData u s.data }

/-- The instruction of `nbits` bits `w` placed where the next step runs it: a command word on the port of an idle block, a
micro-operation at `pc`; other bits are presented as a command word, which is then illegal. -/
def placeBits (nbits w : Nat) (s : State) : State :=
  match decodeTableWord nbits w with
  | some u => if nbits = 32 then placeCommand (BitVec.ofNat 32 w) s else placeMicro u s
  | none => placeCommand (BitVec.ofNat 32 w) s

end Sys2Proof.Machine
end

