-- ==== Sys2Proof/Machine/Step.lean ====
section
/-! DEFINITION. One step of the block. -/

namespace Sys2Proof.Machine

/-- One step: block reset where its input is asserted (70_reset_and_hazards.md R141, R143), else one step of the sequencer: the
acceptance of a command when idle, one pseudocode line when busy (10_state.md R24). Log entry 1. -/
def step (s : State) : Host.Outcome State Fault Refusal :=
  if s.resetIn then .next (blockReset s) else sequence s

/-- `s` with the instruction of `nbits` bits `w` where `step` runs it next. -/
def State.withFetchWord (s : State) (nbits w : Nat) : State := placeBits nbits w s

end Sys2Proof.Machine
end

