-- ==== Sys2Proof/Safety.lean ====
section
/-! DEFINITION. What claims speak about: runs, launch premises (70_reset_and_hazards.md R161, R163), the environment's answers
(20_memory.md R51), the outbound side of a trace, which `pc` stacks are legal (10_state.md R24), where the lines must stand
(R18), and the shape every trace must have (R86, R148, R149, R150). -/

namespace Sys2Proof.Machine

/-! ## Runs -/

/-- `k` steps, stopping at the first fault or refusal. -/
def run (k : Nat) (s : State) : Host.Outcome State Fault Refusal :=
  match k with
  | 0 => .next s
  | j + 1 =>
    match step s with
    | .next t => run j t
    | .fault r => .fault r
    | .refused r => .refused r

/-- `u` is a state of the run that starts at `s`. -/
def Reaches (s u : State) : Prop := ∃ k, run k s = .next u

/-! ## Launch premises (R163) -/

/-- `L_IDLE`: `pc` = `IDLE`, `BUSY` = 0, `CS` = `DS` = `RST` = 0; and the block-reset input is not asserted. -/
abbrev LIdle (s : State) : Prop :=
  s.pc = [] ∧ s.busy = false ∧ s.cs = false ∧ s.ds = false ∧ s.rst = false ∧ s.resetIn = false

/-- `L_CFG`: the configuration record is fixed, which every step keeps, and every parameter of R10 has a value, which the record
holds; a value that R10 admits (`Config.wf`). -/
abbrev LCfg (s : State) : Prop := s.cfg.wf

/-- `L_SPEED(v)`. -/
abbrev LSpeed (v : Bool) (s : State) : Prop := s.speed = v

/-- `L_HRESET_DONE`, a premise of a launch (`L_IDLE`): since the last block reset an HRESET has completed with `ERR` = 0. The trace
starts at the last block reset (R35), SPEED+ is the last event of an HRESET (R99) and no line after it can fail, so that at
`IDLE` the trace holds SPEED+ exactly where an HRESET has completed (DEDUCED, log entry 27). -/
abbrev LHresetDone (s : State) : Prop := s.pc = [] ∧ Event.speedUp ∈ s.trace

/-- The operand registers hold numbers of their own widths (R22). -/
abbrev OperandsFit (s : State) : Prop := s.bufBase < 2 ^ s.cfg.hostAddrW ∧ s.bufLen < 2 ^ s.cfg.lenW

/-- `L_BUF` for a transfer of `len` bytes from `BUF_BASE`. -/
abbrev LBuf (len : Nat) (s : State) : Prop :=
  s.bufBase + len ≤ 2 ^ s.cfg.hostAddrW ∧ ∀ j, j < len → (Memory.read s.hostbuf (s.bufBase + j)).isSome = true

/-- The host buffer holds the bytes `xs` from `BUF_BASE` on, inside the address space (`L_BUF`, with the bytes named). -/
abbrev BufferHolds (xs : List Byte) (s : State) : Prop :=
  s.bufBase + xs.length ≤ 2 ^ s.cfg.hostAddrW ∧
  ∀ m (h : m < xs.length), Memory.read s.hostbuf (s.bufBase + m) = some xs[m]

/-! ## The command port's opcode map -/

/-- The `match` and `mask` columns of R60, row by row: WRREG, RDREG, WRDATA, WRCHUNK, FILL, HRESET, SRESET, CANCEL, VERQ,
FLOWRD, WAITRDY. -/
def commandRows : List (CmdWord × CmdWord) :=
  [(0x02000000#32, 0xFFF00000#32), (0x03000000#32, 0xFFF0FFFF#32), (0x10000000#32, 0xFFFFFFFF#32),
   (0x11000000#32, 0xFFFF0000#32), (0x12000000#32, 0xFF000000#32), (0x20000000#32, 0xFFFFFFFF#32),
   (0x21000000#32, 0xFFFFFFFF#32), (0x30000000#32, 0xFFFFFFFF#32), (0x40000000#32, 0xFFFFFFFF#32),
   (0x50000000#32, 0xFFFFFFFF#32), (0x51000000#32, 0xFFFFFFFF#32)]

/-- The word matches no row of R60 (R61). -/
abbrev MatchesNoRow (w : CmdWord) : Prop := ∀ r ∈ commandRows, w &&& r.2 ≠ r.1

/-- The decoder of the command port gives no instruction. -/
abbrev Illegal (w : CmdWord) : Prop := ∃ e, decode (.command w) = .error e

/-! ## The environment's answers (R14, R51)

The forms of R51's assumptions, over the draws and the trace, are log entry 28 (DEDUCED). -/

/-- The number of polls before gate `g` (0 = the next), where gate `h` reads busy `js h` times and then ready (R74). -/
def gateStart (js : Nat → Nat) (g : Nat) : Nat :=
  match g with
  | 0 => 0
  | h + 1 => gateStart js h + (js h + 1)

/-- At each of the next `m` gates the polls read busy `js g` times and then ready. -/
abbrev PollsThrough (m : Nat) (js : Nat → Nat) (s : State) : Prop :=
  ∀ g, g < m → (∀ k, k < js g → s.flowAt (gateStart js g + k) = false) ∧ s.flowAt (gateStart js g + js g) = true

/-- The next `m` gates pass, gate `g` after `js g` busy polls: the poll limit, if there is one, is not reached (R74, R75). -/
abbrev GatesPass (m : Nat) (js : Nat → Nat) (s : State) : Prop :=
  PollsThrough m js s ∧ ∀ g, g < m → ∀ l, s.cfg.pollLimit = some l → js g < l

/-- The next `m` gates pass, gate `g` after `js g` busy polls, and then a wait times out: the limit is `k` >= 1 and `k` busy polls
follow (R75, R89). -/
abbrev GateTimesOut (m k : Nat) (js : Nat → Nat) (s : State) : Prop :=
  s.cfg.pollLimit = some k ∧ 1 ≤ k ∧ GatesPass m js s ∧ ∀ q, q < k → s.flowAt (gateStart js m + q) = false

/-- The next wait ends well after `j` busy polls: they read busy, the one after them reads ready, and the poll limit, if there
is one, is not reached by them (R74, R75). -/
abbrev ReadyAfter (j : Nat) (s : State) : Prop :=
  (∀ k, k < j → s.flowAt k = false) ∧ s.flowAt j = true ∧ (∀ m, s.cfg.pollLimit = some m → j < m)

/-- The next wait times out: the limit is `k` >= 1 and the next `k` polls read busy (R75). -/
abbrev TimesOut (k : Nat) (s : State) : Prop :=
  s.cfg.pollLimit = some k ∧ 1 ≤ k ∧ ∀ m, m < k → s.flowAt m = false

/-- `ENV_READY` for the next `m` waits: in each the chip signals ready at some poll; the number of busy polls has no bound (R51). -/
abbrev EnvReady (m : Nat) (s : State) : Prop := ∃ js, PollsThrough m js s

/-- One frame as it stands on the link: the channel, whether it came right after a poll that read ready, and its exchanges,
outbound and inbound byte. -/
structure LinkFrame where
  cs : Bool
  gated : Bool
  bytes : List (Byte × Byte)
deriving DecidableEq, Repr

/-- The closed frames of a trace; `gate` says whether the last event was a ready poll, `cur` is the frame that is open. -/
def linkFrames (gate : Bool) (cur : Option LinkFrame) (tr : List Event) : List LinkFrame :=
  match tr with
  | [] => []
  | .csOn :: es => linkFrames false (some ⟨true, gate, []⟩) es
  | .dsOn :: es => linkFrames false (some ⟨false, gate, []⟩) es
  | .csOff :: es => cur.toList ++ linkFrames false none es
  | .dsOff :: es => cur.toList ++ linkFrames false none es
  | .xchg out inp :: es => linkFrames false (cur.map fun f => { f with bytes := f.bytes ++ [(out, inp)] }) es
  | .poll ready :: es => linkFrames ready cur es
  | .rstOn :: es => linkFrames false cur es
  | .rstOff :: es => linkFrames false cur es
  | .delay _ :: es => linkFrames false cur es
  | .speedUp :: es => linkFrames false cur es

/-- The frames that the block has sent since the last block reset. -/
def State.linkFrames (s : State) : List LinkFrame := Machine.linkFrames false none s.trace

/-- `ENV_ACCEPT32`: what the chip has taken, `took`, is each register frame and each data frame of at most 32 bytes that came right
after a ready poll, and nothing else: bytes sent without the gate are dropped (R51). -/
abbrev EnvAccept32 (took : List LinkFrame) (s : State) : Prop :=
  took = s.linkFrames.filter fun f => f.gated && (f.cs || decide (f.bytes.length ≤ 32))

/-- `ENV_RELIABLE`: the bytes that the chip has seen on the link, inbound to it and outbound from it, are the bytes of the trace
(R51). -/
abbrev EnvReliable (seen : List (Byte × Byte)) (s : State) : Prop :=
  seen = s.trace.filterMap fun e => match e with
    | .xchg out inp => some (out, inp)
    | .csOn | .csOff | .dsOn | .dsOff | .rstOn | .rstOff | .poll _ | .delay _ | .speedUp => none

/-- A register frame's access: whether it is a write, the register, and the value sent or the value captured (R53, R54). -/
def LinkFrame.access (f : LinkFrame) : Option (Bool × RegAddr × Half) :=
  match f.cs, f.bytes with
  | true, [(op, _), (ab, _), (hi, rhi), (lo, rlo)] =>
    if op = 0x02#8 then some (true, ab.extractLsb' 0 4, hi ++ lo)
    else if op = 0x03#8 then some (false, ab.extractLsb' 0 4, rhi ++ rlo)
    else none
  | _, _ => none

/-- Every read in the frames returns the value last written to its register; `held` is what was written before, if anything. -/
def readsReturnWrites (held : RegAddr → Option Half) (frames : List LinkFrame) : Bool :=
  match frames with
  | [] => true
  | f :: rest =>
    match f.access with
    | some (true, a, v) => readsReturnWrites (fun c => if c = a then some v else held c) rest
    | some (false, a, v) => (held a).all (· == v) && readsReturnWrites held rest
    | none => readsReturnWrites held rest

/-- `ENV_ROUNDTRIP`: every register read since the last block reset has returned the value last written to that register (R51). -/
abbrev EnvRoundtrip (s : State) : Prop := readsReturnWrites (fun _ => none) s.linkFrames = true

/-- The first `n` reads of the mode register by a CANCEL launched in `s` show the cancel bit set (R111, R112). The `M`-th of them
captures its low byte as reply 2063 + 36 `M` of the command: 4 of the write, 4 of the read, 2052 of the pre-fill, 4 of the
request, 36 for each round before, 32 of the chunk and the fourth of the read (R107). -/
abbrev CancelBitSet (n : Nat) (s : State) : Prop :=
  ∀ M, 1 ≤ M → M ≤ n → (s.replyAt (2063 + 36 * M)).getLsbD 3 = true

/-- `ENV_CANCEL`: the chip honours a CANCEL launched in `s`, and the `N`-th read of the mode register is the first to show the
cancel bit clear (R51). A chip that never does has `CancelBitSet 64`. -/
abbrev EnvCancel (N : Nat) (s : State) : Prop :=
  1 ≤ N ∧ CancelBitSet (N - 1) s ∧ (s.replyAt (2063 + 36 * N)).getLsbD 3 = false

/-! ## Expected traces, outbound side -/

/-- An event without the reply byte, which is the environment's. -/
def Event.outbound (e : Event) : Event :=
  match e with
  | .xchg out _ => .xchg out 0
  | .csOn => .csOn
  | .csOff => .csOff
  | .dsOn => .dsOn
  | .dsOff => .dsOff
  | .rstOn => .rstOn
  | .rstOff => .rstOff
  | .poll ready => .poll ready
  | .delay t => .delay t
  | .speedUp => .speedUp

/-- A wait that reads busy `j` times and then ready (R74). -/
def waitTrace (j : Nat) : List Event := List.replicate j (.poll false) ++ [.poll true]

/-- A register write frame: `02 0a hi lo` under `CS` (R53). -/
def writeFrame (a : RegAddr) (v : Half) : List Event :=
  [.csOn, .xchg 0x02 0, .xchg (0#4 ++ a) 0, .xchg (v.extractLsb' 8 8) 0, .xchg (v.extractLsb' 0 8) 0, .csOff]

/-- A register read frame: `03 0a dd dd` under `CS` (R54). -/
def readFrame (a : RegAddr) (dummy : Byte) : List Event :=
  [.csOn, .xchg 0x03 0, .xchg (0#4 ++ a) 0, .xchg dummy 0, .xchg dummy 0, .csOff]

/-- A data frame: the bytes under `DS` (R55). -/
def chunkFrame (bytes : List Byte) : List Event :=
  .dsOn :: (bytes.map fun x => Event.xchg x 0) ++ [.dsOff]

/-- Bodies behind gates (R148), the first of them gate `g`: gate `h` reads busy `js h` times and then ready. -/
def gatedFrom (js : Nat → Nat) (g : Nat) (bodies : List (List Event)) : List Event :=
  match bodies with
  | [] => []
  | body :: rest => waitTrace (js g) ++ body ++ gatedFrom js (g + 1) rest

/-- The greedy split of a transfer into chunks of 32 bytes and a rest (R93); `fuel` is at least the number of chunks. -/
def splitChunks (fuel : Nat) (bytes : List Byte) : List (List Byte) :=
  match fuel, bytes with
  | 0, _ => []
  | _ + 1, [] => []
  | k + 1, x :: rest => (x :: rest).take 32 :: splitChunks k ((x :: rest).drop 32)

/-- The frames of a transfer, one behind each gate (R89). -/
def streamBodies (bytes : List Byte) : List (List Event) := (splitChunks bytes.length bytes).map chunkFrame

/-- The number of chunks of a transfer of `len` bytes: `ceil(len/32)` (R93). -/
def chunkCount (len : Nat) : Nat := (len + 31) / 32

/-- A soft reset (R100): what follows each of its four gates. -/
def softResetBodies (c : Config) : List (List Event) :=
  [writeFrame 0x0 0x0804 ++ [.delay .soft1], [], writeFrame 0x3 c.clockfValue ++ [.delay .soft2], chunkFrame [0, 0, 0, 0]]

/-- A hard reset's steps before its first gate: 1 to 4 (R99). -/
def hardResetHead (c : Config) : List Event :=
  [.rstOn, .delay .rstHold, .xchg c.dummyByte 0, .csOff, .dsOff, .rstOff]

/-- A hard reset (R99): what follows each of its eleven gates; the last step is SPEED+, which follows the last gate's frame. -/
def hardResetBodies (c : Config) : List (List Event) :=
  [writeFrame 0xB c.volMute, writeFrame 0x3 c.clockfValue, [], writeFrame 0x5 c.audataSlow ++ [.delay .analog],
    writeFrame 0xB c.volAnalogOn, writeFrame 0x5 c.audataTarget, writeFrame 0xB c.volDefault,
    writeFrame 0x0 0x0804 ++ [.delay .soft1], [], writeFrame 0x3 c.clockfValue ++ [.delay .soft2],
    chunkFrame [0, 0, 0, 0] ++ [.speedUp]]

/-- `rounds` rounds of the cancel loop: 32 fill bytes, a read of the mode register (R111). -/
def cancelRounds (rounds : Nat) (fillByte dummy : Byte) : List (List Event) :=
  (List.replicate rounds [chunkFrame (List.replicate 32 fillByte), readFrame 0x0 dummy]).flatten

/-- A CANCEL of `rounds` rounds (R107): what follows each of its gates, one for each frame. -/
def cancelBodies (rounds : Nat) (c : Config) (fillByte : Byte) : List (List Event) :=
  [writeFrame 0x7 c.endfillAddr, readFrame 0x6 c.dummyByte] ++ streamBodies (List.replicate 2052 fillByte) ++
  [writeFrame 0x0 0x0808] ++ cancelRounds rounds fillByte c.dummyByte ++ [readFrame c.cancelResultAddr c.dummyByte]

/-- What a command has sent whose first `m` gates passed and whose next wait timed out at the limit `k`: the bodies behind the
gates that passed, and the polls of the failing wait (R130). -/
def stoppedAt (m k : Nat) (js : Nat → Nat) (bodies : List (List Event)) : List Event :=
  gatedFrom js 0 (bodies.take m) ++ List.replicate k (.poll false)

/-! ## The run of one command -/

/-- The run of one command has ended in `u` (R161): `IDLE`, `BUSY` = 0, lines deasserted; `ERR` = `err` and `RESULT` = `result`
are in the flags and in one new response; the trace has gained exactly `sent` (outbound side); the host buffer, the port, the
configuration are as before. -/
def Ended (s u : State) (err : BitVec 4) (result : Half) (sent : List Event) : Prop :=
  u.pc = [] ∧ u.busy = false ∧ u.cs = false ∧ u.ds = false ∧ u.rst = false ∧ u.resetIn = false ∧
  u.err = err ∧ u.result = result ∧ u.responsesInOrder = s.responsesInOrder ++ [⟨err, result⟩] ∧
  (∃ more, u.trace = s.trace ++ more ∧ more.map Event.outbound = sent) ∧
  u.hostbuf = s.hostbuf ∧ u.port = s.port ∧ u.cfg = s.cfg

/-- The working registers that no line of a command's run writes (R25, column "written by"), the same in `u` as in `s`. -/
def KeptBy (p : Proc) (s u : State) : Prop :=
  match p with
  | .wrreg | .rdreg | .hreset | .sreset =>
    u.fill = s.fill ∧ u.base = s.base ∧ u.rem = s.rem ∧ u.off = s.off ∧ u.n = s.n ∧ u.i = s.i ∧ u.bud = s.bud ∧
      u.tmp = s.tmp
  | .verq =>
    u.fill = s.fill ∧ u.base = s.base ∧ u.rem = s.rem ∧ u.off = s.off ∧ u.n = s.n ∧ u.i = s.i ∧ u.bud = s.bud
  | .waitrdy =>
    u.addr = s.addr ∧ u.data = s.data ∧ u.fill = s.fill ∧ u.base = s.base ∧ u.rem = s.rem ∧ u.off = s.off ∧ u.n = s.n ∧
      u.i = s.i ∧ u.bud = s.bud ∧ u.tmp = s.tmp
  | .flowrd =>
    u.addr = s.addr ∧ u.data = s.data ∧ u.fill = s.fill ∧ u.base = s.base ∧ u.rem = s.rem ∧ u.off = s.off ∧ u.n = s.n ∧
      u.i = s.i ∧ u.bud = s.bud ∧ u.npoll = s.npoll ∧ u.tmp = s.tmp
  | .wrchunk =>
    u.addr = s.addr ∧ u.data = s.data ∧ u.fill = s.fill ∧ u.rem = s.rem ∧ u.off = s.off ∧ u.bud = s.bud ∧ u.tmp = s.tmp
  | .wrdata => u.addr = s.addr ∧ u.data = s.data ∧ u.fill = s.fill ∧ u.bud = s.bud ∧ u.tmp = s.tmp
  | .fill => u.addr = s.addr ∧ u.data = s.data ∧ u.base = s.base ∧ u.bud = s.bud ∧ u.tmp = s.tmp
  | .cancel => u.base = s.base
  | .waitReady | .sciWrite _ _ | .sciRead _ | .chunk _ _ | .stream _ _ | .hardReset | .softReset => True

/-- The procedure of a host command's own pseudocode; none for a micro-operation or a frame. -/
def commandProc (i : Instr) : Option Proc :=
  match i with
  | .wrreg _ _ => some .wrreg
  | .rdreg _ => some .rdreg
  | .wrdata => some .wrdata
  | .wrchunk _ => some .wrchunk
  | .fill _ _ => some .fill
  | .hreset => some .hreset
  | .sreset => some .sreset
  | .cancel => some .cancel
  | .verq => some .verq
  | .flowrd => some .flowrd
  | .waitrdy => some .waitrdy
  | .csa | .csd | .dsa | .dsd | .rsta | .rstd | .poll | .xchg _ | .delay _ | .speedhi
  | .sciWriteFrame _ _ | .sciReadFrame _ _ _ | .sdiChunkFrame _ => none

/-- The state in which the command `i` has been accepted and nothing else has changed (R22). -/
def acceptedAs (i : Instr) (p : Proc) (s : State) : State :=
  { s with cmd := commandWord i, busy := true, pc := [⟨p, 1, 0⟩] }

/-- `exec i s` answers the next state in which the command has been accepted (R22), and the run from there ends in a state `u`
with the response `(err, result)` and the trace `sent`, `SPEED` ending as `speed`; the operand registers are as latched and
the working registers that the command does not write are as before. -/
def Completes (i : Instr) (p : Proc) (s : State) (err : BitVec 4) (result : Half) (sent : List Event) (speed : Bool) : Prop :=
  commandProc i = some p ∧ exec i s = .next (acceptedAs i p s) ∧
  ∃ u, Reaches (acceptedAs i p s) u ∧ Ended s u err result sent ∧ u.speed = speed ∧
    u.cmd = commandWord i ∧ u.bufBase = s.bufBase ∧ u.bufLen = s.bufLen ∧ KeptBy p s u

/-! ## Legal control stacks (R24) -/

/-- The procedure is a command's own pseudocode. -/
def Proc.isCommand (p : Proc) : Bool :=
  match p with
  | .wrreg | .rdreg | .wrdata | .wrchunk | .fill | .hreset | .sreset | .cancel | .verq | .flowrd | .waitrdy => true
  | .waitReady | .sciWrite _ _ | .sciRead _ | .chunk _ _ | .stream _ _ | .hardReset | .softReset => false

/-- The lines and places of each procedure's pseudocode. -/
def Proc.lines (p : Proc) : List (Nat × Nat) :=
  match p with
  | .wrreg | .waitrdy | .hreset | .sreset | .flowrd => [(1, 0), (2, 0)]
  | .rdreg => [(1, 0), (1, 1), (2, 0)]
  | .wrdata | .fill => [(1, 0), (2, 0), (3, 0)]
  | .wrchunk => [(1, 0), (2, 0), (3, 0), (4, 0)]
  | .verq => [(1, 0), (1, 1), (2, 0), (3, 0), (4, 0)]
  | .cancel =>
    [(1, 0), (2, 0), (2, 1), (3, 0), (4, 0), (5, 0), (6, 0), (7, 0), (8, 0), (9, 0), (9, 1), (10, 0), (11, 0), (11, 1),
      (11, 2), (12, 0), (12, 1), (13, 0)]
  | .waitReady => [(1, 0), (2, 0), (3, 0), (4, 0), (5, 0), (6, 0)]
  | .sciWrite _ _ => [(1, 0), (2, 0), (3, 0), (4, 0), (5, 0), (6, 0), (7, 0), (8, 0), (9, 0)]
  | .sciRead _ => [(1, 0), (2, 0), (3, 0), (4, 0), (5, 0), (6, 0), (7, 0), (8, 0), (9, 0), (10, 0)]
  | .chunk _ _ => [(1, 0), (2, 0), (3, 0), (4, 0), (5, 0), (6, 0), (7, 0), (8, 0)]
  | .stream _ _ => [(1, 0), (2, 0), (3, 0), (4, 0), (5, 0), (6, 0), (7, 0)]
  | .hardReset =>
    [(1, 0), (2, 0), (3, 0), (4, 0), (4, 1), (4, 2), (5, 0), (6, 0), (7, 0), (8, 0), (9, 0), (10, 0), (11, 0), (12, 0),
      (13, 0), (14, 0), (15, 0)]
  | .softReset =>
    [(1, 0), (2, 0), (3, 0), (4, 0), (5, 0), (6, 0), (7, 0), (8, 0), (8, 1), (8, 2), (8, 3), (9, 0), (10, 0)]

/-- Where a caller of `WaitReady` goes on. -/
def afterWaitReady (caller : Proc) : List (Nat × Nat) :=
  match caller with
  | .sciWrite _ _ => [(3, 0)]
  | .sciRead _ => [(3, 0)]
  | .chunk _ _ => [(3, 0)]
  | .softReset => [(4, 0), (7, 0)]
  | .hardReset => [(8, 0)]
  | .waitrdy => [(2, 0)]
  | .wrreg | .rdreg | .wrdata | .wrchunk | .fill | .hreset | .sreset | .cancel | .verq | .flowrd | .waitReady
  | .stream _ _ => []

/-- Where a caller of `SciWrite` goes on. -/
def afterSciWrite (caller : Proc) : List (Nat × Nat) :=
  match caller with
  | .wrreg => [(2, 0)]
  | .hardReset => [(6, 0), (7, 0), (9, 0), (11, 0), (12, 0), (13, 0)]
  | .softReset => [(2, 0), (5, 0)]
  | .cancel => [(2, 0), (5, 0)]
  | .rdreg | .wrdata | .wrchunk | .fill | .hreset | .sreset | .verq | .flowrd | .waitrdy | .waitReady
  | .sciWrite _ _ | .sciRead _ | .chunk _ _ | .stream _ _ => []

/-- Where a caller of `SciRead` goes on. -/
def afterSciRead (caller : Proc) : List (Nat × Nat) :=
  match caller with
  | .rdreg => [(1, 1)]
  | .verq => [(1, 1)]
  | .cancel => [(2, 1), (9, 1), (11, 1), (12, 1)]
  | .wrreg | .wrdata | .wrchunk | .fill | .hreset | .sreset | .flowrd | .waitrdy | .waitReady | .sciWrite _ _
  | .sciRead _ | .chunk _ _ | .stream _ _ | .hardReset | .softReset => []

/-- Where a caller of `Chunk` goes on. -/
def afterChunk (caller : Proc) : List (Nat × Nat) :=
  match caller with
  | .wrchunk => [(4, 0)]
  | .stream _ _ => [(5, 0)]
  | .cancel => [(8, 0)]
  | .wrreg | .rdreg | .wrdata | .fill | .hreset | .sreset | .verq | .flowrd | .waitrdy | .waitReady
  | .sciWrite _ _ | .sciRead _ | .chunk _ _ | .hardReset | .softReset => []

/-- Where a caller of `Stream` goes on. -/
def afterStream (caller : Proc) : List (Nat × Nat) :=
  match caller with
  | .wrdata => [(3, 0)]
  | .fill => [(3, 0)]
  | .cancel => [(4, 0)]
  | .wrreg | .rdreg | .wrchunk | .hreset | .sreset | .verq | .flowrd | .waitrdy | .waitReady | .sciWrite _ _
  | .sciRead _ | .chunk _ _ | .stream _ _ | .hardReset | .softReset => []

/-- Where a caller of `HardReset` goes on. -/
def afterHardReset (caller : Proc) : List (Nat × Nat) :=
  match caller with
  | .hreset => [(2, 0)]
  | .wrreg | .rdreg | .wrdata | .wrchunk | .fill | .sreset | .cancel | .verq | .flowrd | .waitrdy | .waitReady
  | .sciWrite _ _ | .sciRead _ | .chunk _ _ | .stream _ _ | .hardReset | .softReset => []

/-- Where a caller of `SoftReset` goes on. -/
def afterSoftReset (caller : Proc) : List (Nat × Nat) :=
  match caller with
  | .hardReset => [(14, 0)]
  | .sreset => [(2, 0)]
  | .wrreg | .rdreg | .wrdata | .wrchunk | .fill | .hreset | .cancel | .verq | .flowrd | .waitrdy | .waitReady
  | .sciWrite _ _ | .sciRead _ | .chunk _ _ | .stream _ _ | .softReset => []

/-- Where a caller goes on when the callee returns, for each call that the pseudocode makes. -/
def Proc.resumesAt (callee caller : Proc) : List (Nat × Nat) :=
  match callee with
  | .waitReady => afterWaitReady caller
  | .sciWrite _ _ => afterSciWrite caller
  | .sciRead _ => afterSciRead caller
  | .chunk _ _ => afterChunk caller
  | .stream _ _ => afterStream caller
  | .hardReset => afterHardReset caller
  | .softReset => afterSoftReset caller
  | .wrreg | .rdreg | .wrdata | .wrchunk | .fill | .hreset | .sreset | .cancel | .verq | .flowrd | .waitrdy => []

/-- A stack of callers below a procedure: each goes on where the procedure above it was called; the outermost is a command. -/
def callersOk (callee : Proc) (callers : List Frame) : Bool :=
  match callers with
  | [] => callee.isCommand
  | g :: rest => (callee.resumesAt g.proc).contains (g.step, g.sub) && callersOk g.proc rest

/-- A legal control stack (R24): the innermost frame is at a line of its procedure, the frames below it are its callers. -/
def stackOk (pc : List Frame) : Bool :=
  match pc with
  | [] => true
  | f :: fs => f.proc.lines.contains (f.step, f.sub) && callersOk f.proc fs

/-! ## Where the lines stand (R18, R81) -/

/-- `CS` is asserted exactly between the CSA and the CSD of a register frame. -/
def csAt (pc : List Frame) : Bool :=
  match pc with
  | [] => false
  | f :: _ =>
    match f.proc with
    | .sciWrite _ _ => decide (4 ≤ f.step) && decide (f.step ≤ 8)
    | .sciRead _ => decide (4 ≤ f.step) && decide (f.step ≤ 9)
    | .wrreg | .rdreg | .wrdata | .wrchunk | .fill | .hreset | .sreset | .cancel | .verq | .flowrd | .waitrdy
    | .waitReady | .chunk _ _ | .stream _ _ | .hardReset | .softReset => false

/-- `DS` is asserted exactly between the DSA and the DSD of a data frame. -/
def dsAt (pc : List Frame) : Bool :=
  match pc with
  | [] => false
  | f :: _ =>
    match f.proc with
    | .chunk _ _ => decide (4 ≤ f.step) && decide (f.step ≤ 7)
    | .softReset => decide (8 ≤ f.step) && decide (f.step ≤ 9)
    | .wrreg | .rdreg | .wrdata | .wrchunk | .fill | .hreset | .sreset | .cancel | .verq | .flowrd | .waitrdy
    | .waitReady | .sciWrite _ _ | .sciRead _ | .stream _ _ | .hardReset => false

/-- `RST` is asserted exactly from line 2 of the hard reset to line 4c. -/
def rstAt (pc : List Frame) : Bool :=
  match pc with
  | [] => false
  | f :: _ =>
    match f.proc with
    | .hardReset => decide (2 ≤ f.step) && decide (f.step ≤ 4)
    | .wrreg | .rdreg | .wrdata | .wrchunk | .fill | .hreset | .sreset | .cancel | .verq | .flowrd | .waitrdy
    | .waitReady | .sciWrite _ _ | .sciRead _ | .chunk _ _ | .stream _ _ | .softReset => false

/-- The invariant of the sequencer: a legal control stack, `BUSY` = 1 exactly off `IDLE`, and each line where `pc` says. -/
def SequencerInv (s : State) : Prop :=
  stackOk s.pc = true ∧ s.busy = !s.pc.isEmpty ∧ s.cs = csAt s.pc ∧ s.ds = dsAt s.pc ∧ s.rst = rstAt s.pc

/-! ## The shape of a trace (R62, R86, R148, R149, R150) -/

/-- Where a reader of the trace stands. -/
inductive Phase where
  /-- No line asserted; whether the last event was a poll that read ready. -/
  | free (open_ : Bool)
  /-- The reset line asserted. -/
  | held
  /-- Under `CS`, after `k` exchanges. -/
  | inCs (k : Nat)
  /-- Under `DS`, after `k` exchanges. -/
  | inDs (k : Nat)
  /-- A rule broken. -/
  | broken
deriving DecidableEq, Repr

/-- One exchange under `CS`: an opcode 0x02 or 0x03, an address byte 0x00..0x0F, then two more bytes (R62, R86). -/
def Phase.readCs (k : Nat) (out : Byte) : Phase :=
  if k = 0 then (if out = 0x02#8 ∨ out = 0x03#8 then .inCs 1 else .broken)
  else if k = 1 then (if out.toNat < 16 then .inCs 2 else .broken)
  else if k < 4 then .inCs (k + 1)
  else .broken

/-- One event read. A select line is asserted only right after a ready poll; a frame under `CS` has exactly four exchanges; a
frame under `DS` has at most 32; no poll, delay or other line event is inside a frame; a byte outside a frame is sent only
while the reset line is asserted. -/
def Phase.read (p : Phase) (e : Event) : Phase :=
  match e with
  | .csOn => if p = .free true then .inCs 0 else .broken
  | .dsOn => if p = .free true then .inDs 0 else .broken
  | .csOff =>
    match p with
    | .held => .held
    | .inCs k => if k = 4 then .free false else .broken
    | _ => .broken
  | .dsOff =>
    match p with
    | .held => .held
    | .inDs _ => .free false
    | _ => .broken
  | .rstOn =>
    match p with
    | .free _ => .held
    | _ => .broken
  | .rstOff => if p = .held then .free false else .broken
  | .poll ready =>
    match p with
    | .free _ => .free ready
    | _ => .broken
  | .xchg out _ =>
    match p with
    | .held => .held
    | .inCs k => Phase.readCs k out
    | .inDs k => if k < 32 then .inDs (k + 1) else .broken
    | _ => .broken
  | .delay _ =>
    match p with
    | .held => .held
    | .free _ => .free false
    | _ => .broken
  | .speedUp =>
    match p with
    | .free _ => .free false
    | _ => .broken

/-- The phase after a whole trace. -/
def phaseOf (trace : List Event) : Phase := trace.foldl Phase.read (.free false)

/-- No line asserted, whatever the last poll. -/
def Phase.isFree (p : Phase) : Bool :=
  match p with
  | .free _ => true
  | .held | .inCs _ | .inDs _ | .broken => false

/-- The phase at a line of `SciWrite`. -/
def phaseSciWrite (step : Nat) (p : Phase) : Prop :=
  if step = 3 then p = .free true
  else if 4 ≤ step ∧ step ≤ 8 then p = .inCs (step - 4)
  else p.isFree = true

/-- The phase at a line of `SciRead`. -/
def phaseSciRead (step : Nat) (p : Phase) : Prop :=
  if step = 3 then p = .free true
  else if 4 ≤ step ∧ step ≤ 8 then p = .inCs (step - 4)
  else if step = 9 then p = .inCs 4
  else p.isFree = true

/-- The phase and the counters at a line of `Chunk(f, n)`. -/
def phaseChunk (n step : Nat) (s : State) (p : Phase) : Prop :=
  if step = 2 then p.isFree = true ∧ s.n.toNat = n ∧ s.i = 0
  else if step = 3 then p = .free true
  else if step = 4 then p = .inDs s.i.toNat ∧ s.n.toNat = n ∧ s.i.toNat ≤ n
  else if step = 5 then p = .inDs s.i.toNat ∧ s.n.toNat = n ∧ s.i.toNat < n
  else if step = 6 then p = .inDs (s.i.toNat + 1) ∧ s.n.toNat = n ∧ s.i.toNat < n
  else if step = 7 then p = .inDs n
  else p.isFree = true

/-- The phase at a line of `HardReset`. -/
def phaseHardReset (step : Nat) (p : Phase) : Prop :=
  if 2 ≤ step ∧ step ≤ 4 then p = .held else p.isFree = true

/-- The phase at a line of `SoftReset`. -/
def phaseSoftReset (step sub : Nat) (p : Phase) : Prop :=
  if step = 7 then p = .free true
  else if step = 8 then p = .inDs sub
  else if step = 9 then p = .inDs 4
  else p.isFree = true

/-- The phase that the line at `pc` finds. -/
def PhaseAt (s : State) : Prop :=
  match s.pc with
  | [] => (phaseOf s.trace).isFree = true
  | f :: _ =>
    match f.proc with
    | .waitReady => if f.step = 3 then phaseOf s.trace = .free s.b else (phaseOf s.trace).isFree = true
    | .sciWrite _ _ => phaseSciWrite f.step (phaseOf s.trace)
    | .sciRead _ => phaseSciRead f.step (phaseOf s.trace)
    | .chunk _ n => phaseChunk n f.step s (phaseOf s.trace)
    | .hardReset => phaseHardReset f.step (phaseOf s.trace)
    | .softReset => phaseSoftReset f.step f.sub (phaseOf s.trace)
    | .wrreg | .rdreg | .wrdata | .wrchunk | .fill | .hreset | .sreset | .cancel | .verq | .flowrd | .waitrdy
    | .stream _ _ => (phaseOf s.trace).isFree = true

/-- What the frames of `pc` and the registers say of lengths: no chunk above 32 bytes is called for, and a chunk waiting for its
gate has its counters set. -/
def LengthsOk (s : State) : Prop :=
  (∀ f ∈ s.pc, ∀ g n, f.proc = .chunk g n → n ≤ 32 ∧ (f.step = 3 → s.n.toNat = n ∧ s.i = 0)) ∧
  (∀ f ∈ s.pc, ∀ g len, f.proc = .stream g len → f.step = 4 → s.size ≤ 32) ∧
  (∀ f ∈ s.pc, f.proc = .wrchunk → 2 ≤ f.step → (cmdV s).toNat ≤ 32)

/-- The invariant of the wire: the trace read so far has the shape of `Phase.read` and stands where `pc` says. -/
def WireInv (s : State) : Prop := SequencerInv s ∧ PhaseAt s ∧ LengthsOk s

/-! ## Counters and buffer (R25, R37, R89, R113) -/

/-- While `Chunk` is on `pc` with its counters set: `N` and `I` in 0..32, `I` at most `N` (R25, R88). -/
def ChunkCounters (s : State) : Prop :=
  ∀ f ∈ s.pc, ∀ g n, f.proc = .chunk g n → 2 ≤ f.step → s.i.toNat ≤ s.n.toNat ∧ s.n.toNat ≤ 32

/-- While `Stream` is on `pc` with its counters set: `REM` and `OFF` in 0..2^`LEN_W` - 1, `OFF` + `REM` the transfer's length at every
loop test, the chunk under way within what remains (R25, R89). -/
def StreamCounters (s : State) : Prop :=
  ∀ f ∈ s.pc, ∀ g len, f.proc = .stream g len →
    len < 2 ^ s.cfg.lenW ∧
    (2 ≤ f.step → s.rem < 2 ^ s.cfg.lenW ∧ s.off < 2 ^ s.cfg.lenW) ∧
    (2 ≤ f.step → f.step ≤ 5 → s.off + s.rem = len) ∧
    (f.step = 6 → s.off + s.rem = len + s.size) ∧
    (4 ≤ f.step → f.step ≤ 6 → s.size ≤ s.rem ∧ s.size ≤ 32)

/-- While CANCEL is on `pc` with its budget set: `BUD` in 0..2048, a multiple of 32, and not yet 0 when a chunk is sent from it
(R25, R113). -/
def CancelCounter (s : State) : Prop :=
  ∀ f ∈ s.pc, f.proc = .cancel → 6 ≤ f.step →
    s.bud.toNat ≤ 2048 ∧ s.bud.toNat % 32 = 0 ∧ (f.step = 7 ∨ f.step = 8 → 32 ≤ s.bud.toNat)

/-- While `WaitReady` is on `pc` with its counter set: `NPOLL` in 0..`POLL_LIMIT`, and below it but at the test of the limit (R25,
R74, R75). -/
def WaitCounter (s : State) : Prop :=
  ∀ f ∈ s.pc, f.proc = .waitReady → 2 ≤ f.step → ∀ k, s.cfg.pollLimit = some k →
    s.npoll ≤ k ∧ (f.step ≠ 5 → s.npoll < k)

/-- The counters in the ranges of R25, each while its procedure is on `pc` and has set it; outside of it none has an architectural
value (R25), and nothing is said of it. The operand registers of a running command fit their widths. -/
def CountersOk (s : State) : Prop :=
  LCfg s ∧ (s.busy = true → OperandsFit s) ∧ ChunkCounters s ∧ StreamCounters s ∧ CancelCounter s ∧ WaitCounter s

/-- The bytes `a` .. `a` + `len` - 1 of the host buffer are defined. -/
abbrev BytesDefined (s : State) (a len : Nat) : Prop :=
  ∀ j, j < len → (Memory.read s.hostbuf (a + j)).isSome = true

/-- Every byte that the running command can still read is defined (R163, `L_BUF` carried along). -/
def BufferOk (s : State) : Prop :=
  (∀ f ∈ s.pc, ∀ off n, f.proc = .chunk (.buffer off) n → BytesDefined s (s.base + off) n) ∧
  (∀ f ∈ s.pc, ∀ off len, f.proc = .stream (.buffer off) len → BytesDefined s (s.base + off) len) ∧
  (∀ f ∈ s.pc, f.proc = .wrdata → f.step ≤ 2 → BytesDefined s s.bufBase s.bufLen) ∧
  (∀ f ∈ s.pc, f.proc = .wrdata → f.step = 2 → s.base = s.bufBase) ∧
  (∀ f ∈ s.pc, f.proc = .wrchunk → f.step ≤ 3 → (cmdV s).toNat ≤ 32 →
    BytesDefined s s.bufBase (cmdV s).toNat) ∧
  (∀ f ∈ s.pc, f.proc = .wrchunk → f.step = 3 → s.base = s.bufBase)

/-- The invariant under which no step faults. -/
def SafeInv (s : State) : Prop := WireInv s ∧ CountersOk s ∧ BufferOk s

end Sys2Proof.Machine
end

