-- ==== Sys2Proof/Certificates/Slice0/Obligations.lean ====
section
/-! DEFINITION. The statements for the provers. -/

section
open Sys2Proof Sys2Proof.Machine

/-! ## Encodings -/

/-- R60, R59: for each of the eleven commands, a word decodes to it exactly where `(w and mask) = match`, with the operands of R59.
-/
def Obligations.CommandWordSelectsItsRow : Prop :=
  ∀ w : CmdWord,
    (∀ a v, decode (.command w) = .ok (.wrreg a v) ↔
      w &&& 0xFFF00000#32 = 0x02000000#32 ∧ a = w.extractLsb' 16 4 ∧ v = w.extractLsb' 0 16) ∧
    (∀ a, decode (.command w) = .ok (.rdreg a) ↔
      w &&& 0xFFF0FFFF#32 = 0x03000000#32 ∧ a = w.extractLsb' 16 4) ∧
    (decode (.command w) = .ok .wrdata ↔ w &&& 0xFFFFFFFF#32 = 0x10000000#32) ∧
    (∀ n, decode (.command w) = .ok (.wrchunk n) ↔
      w &&& 0xFFFF0000#32 = 0x11000000#32 ∧ n = w.extractLsb' 0 16) ∧
    (∀ x n, decode (.command w) = .ok (.fill x n) ↔
      w &&& 0xFF000000#32 = 0x12000000#32 ∧ x = w.extractLsb' 16 8 ∧ n = w.extractLsb' 0 16) ∧
    (decode (.command w) = .ok .hreset ↔ w &&& 0xFFFFFFFF#32 = 0x20000000#32) ∧
    (decode (.command w) = .ok .sreset ↔ w &&& 0xFFFFFFFF#32 = 0x21000000#32) ∧
    (decode (.command w) = .ok .cancel ↔ w &&& 0xFFFFFFFF#32 = 0x30000000#32) ∧
    (decode (.command w) = .ok .verq ↔ w &&& 0xFFFFFFFF#32 = 0x40000000#32) ∧
    (decode (.command w) = .ok .flowrd ↔ w &&& 0xFFFFFFFF#32 = 0x50000000#32) ∧
    (decode (.command w) = .ok .waitrdy ↔ w &&& 0xFFFFFFFF#32 = 0x51000000#32)

/-- Decoding an encoded well-formed instruction, at every operand value, gives it back (R53 to R60, R63). -/
def Obligations.DecodeOfEncodeIsTheInstruction : Prop :=
  ∀ i : Instr, i.wellFormed = true → decode (encode i) = .ok i

/-- Whatever the decoder accepts is well formed, and its bits are the encoding of the instruction it gives (R53 to R63, R66). -/
def Obligations.EncodeOfDecodeIsTheCode : Prop :=
  ∀ (c : Code) (i : Instr), decode c = .ok i → i.wellFormed = true ∧ encode i = c

/-- Words written out from the spec's encodings (R53, R54, R55, R60, R63) decode to what they stand for. The operand byte beside
a micro-operation's code is the model's (DESIGN CHOICE, log entry 12). -/
def Obligations.WrittenOutWordsDecode : Prop :=
  decode (.command 0b00000010_0000_1011_1111111111111111#32) = .ok (.wrreg 0xB 0xFFFF) ∧
  decode (.command 0b00000011_0000_0001_0000000000000000#32) = .ok (.rdreg 0x1) ∧
  decode (.command 0b00010010_01010101_0000000000000100#32) = .ok (.fill 0x55 4) ∧
  decode (.command 0b00110000_00000000_0000000000000000#32) = .ok .cancel ∧
  decode (.micro 0b0111#4 0x02#8) = .ok (.xchg 0x02) ∧
  decode (.micro 0b1001#4 0#8) = .ok .speedhi ∧
  decode (.csFrame [0b00000010#8, 0b00001011#8, 0b00010010#8, 0b00110100#8]) = .ok (.sciWriteFrame 0xB 0x1234) ∧
  decode (.csFrame [0b00000011#8, 0b00001011#8, 0xFF#8, 0xFF#8]) = .ok (.sciReadFrame 0xB 0xFF 0xFF) ∧
  decode (.dsFrame [0x11#8, 0x22#8]) = .ok (.sdiChunkFrame [0x11, 0x22])

/-- The ten micro-operation codes of R63, and that codes 0xA to 0xF are unused. The operand byte of XCHG is the outbound byte;
that of DELAY is the model's numbering of the duration names (DESIGN CHOICE, log entry 12). -/
def Obligations.MicroOperationCodes : Prop :=
  (∀ code operand i, decode (.micro code operand) = .ok i →
    (code = 0x0#4 ∧ i = .csa) ∨ (code = 0x1#4 ∧ i = .csd) ∨ (code = 0x2#4 ∧ i = .dsa) ∨ (code = 0x3#4 ∧ i = .dsd) ∨
    (code = 0x4#4 ∧ i = .rsta) ∨ (code = 0x5#4 ∧ i = .rstd) ∨ (code = 0x6#4 ∧ i = .poll) ∨
    (code = 0x7#4 ∧ i = .xchg operand) ∨ (code = 0x8#4 ∧ ∃ t, i = .delay t) ∨ (code = 0x9#4 ∧ i = .speedhi)) ∧
  (∀ code operand, 0xA ≤ code.toNat → decode (.micro code operand) = .error (.unusedMicroCode code))

/-- R41, R56, R57, R120: splitting a value and assembling it, the address byte, the version nibble, as arithmetic. -/
def Obligations.ValueSplitAndAssembly : Prop :=
  (∀ v : Half, hiByte v = v.extractLsb' 8 8 ∧ loByte v = v.extractLsb' 0 8 ∧ joinBytes (hiByte v) (loByte v) = v) ∧
  (∀ hi lo : Byte, (joinBytes hi lo).toNat = hi.toNat * 256 + lo.toNat ∧ hiByte (joinBytes hi lo) = hi ∧
    loByte (joinBytes hi lo) = lo) ∧
  (∀ a : RegAddr, (addrByte a).toNat = a.toNat) ∧
  (∀ (c : Config) (v : Half), (versionNibble c v).toNat = v.toNat / 2 ^ c.verLsb.val % 16)

/-! ## Reset, idle, acceptance -/

/-- The values that R35, R141 and R142 give after block reset, and the launch premises of R163 there: `L_IDLE`, `L_CFG` and
`L_SPEED(0)` hold, `L_HRESET_DONE` does not. (The working and operand registers, which have no value there, are log entry 5's;
this statement does not speak of them.) -/
def Obligations.ResetState : Prop :=
  State.reset.cs = false ∧ State.reset.ds = false ∧ State.reset.rst = false ∧ State.reset.speed = false ∧
  State.reset.busy = false ∧ State.reset.err = 0 ∧ State.reset.result = 0x0000#16 ∧ State.reset.pc = [] ∧
  State.reset.trace = [] ∧ State.reset.responsesInOrder = [] ∧
  LIdle State.reset ∧ LCfg State.reset ∧ LSpeed false State.reset ∧ ¬ LHresetDone State.reset

/-- Block reset at any time, also during a command (R141, R143): every element at its value of R35, no event, no response,
nothing of the host's or of the environment's touched. That the port, the buffer and the draws stay is the model's choice, log
entry 11. -/
def Obligations.BlockResetStep : Prop :=
  ∀ s : State, s.resetIn = true → ∃ t, step s = .next t ∧
    t.cs = false ∧ t.ds = false ∧ t.rst = false ∧ t.speed = false ∧ t.busy = false ∧ t.err = 0 ∧ t.result = 0 ∧
    t.pc = [] ∧ t.trace = [] ∧ t.responses = [] ∧ t.resetIn = false ∧
    t.cfg = s.cfg ∧ t.port = s.port ∧ t.hostbuf = s.hostbuf ∧
    (∀ k, t.flowAt k = s.flowAt k) ∧ (∀ k, t.replyAt k = s.replyAt k)

/-- An idle block to which the host presents nothing does nothing (R24, R142). -/
def Obligations.IdleBlockDoesNothing : Prop :=
  ∀ s : State, s.resetIn = false → s.pc = [] → s.port = [] → step s = .next s

/-- R61: a word that matches no row of R60 is taken from the port and ends at once with `(ILLEGAL_CMD, 0)`: no event, no line
change; it is not examined further. -/
def Obligations.IllegalWordEndsAtOnce : Prop :=
  ∀ (s : State) (l : Launch) (rest : List Launch), LIdle s → s.port = l :: rest → MatchesNoRow l.word →
    ∃ t, step s = .next t ∧ t.trace = s.trace ∧ t.cs = false ∧ t.ds = false ∧ t.rst = false ∧ t.speed = s.speed ∧
      t.err = 5 ∧ t.result = 0x0000#16 ∧ t.busy = false ∧ t.pc = [] ∧
      t.responsesInOrder = s.responsesInOrder ++ [⟨5, 0⟩] ∧ t.port = rest ∧ t.hostbuf = s.hostbuf ∧ t.cfg = s.cfg

/-- R22: an idle block accepts the oldest presented legal command: `CMD`, `BUF_BASE`, `BUF_LEN` latched, the latter two in their
widths, `BUSY` set, the command's own pseudocode started at its first line, nothing else changed (a launch that `L_BUF` forbids
is not admitted, R163; that a WRCHUNK of more than 32 bytes, which reads no byte, is admitted all the same is log entry 8, from
R90 and R95); and while `BUSY` = 1 no step takes a command from the port, so that a presented one waits. -/
def Obligations.AcceptanceLatchesTheCommand : Prop :=
  (∀ (s : State) (l : Launch) (rest : List Launch) (i : Instr),
    s.resetIn = false → s.pc = [] → s.busy = false → s.port = l :: rest → decode (.command l.word) = .ok i →
    (i = .wrdata → LBuf (s.cfg.fitLen l.len) (latch l rest s)) →
    (∀ n : BitVec 16, i = .wrchunk n → n.toNat ≤ 32 → LBuf n.toNat (latch l rest s)) →
    ∃ p, commandProc i = some p ∧
      step s = .next { s with port := rest, cmd := l.word, bufBase := l.base % 2 ^ s.cfg.hostAddrW,
                              bufLen := l.len % 2 ^ s.cfg.lenW, busy := true, pc := [⟨p, 1, 0⟩] }) ∧
  (∀ s t : State, s.resetIn = false → s.busy = true → step s = .next t → t.port = s.port)

/-- R37, R163: a launch of WRDATA, or of WRCHUNK with at most 32 bytes, whose addresses would pass 2^`HOST_ADDR_W` is refused,
and so is one with a byte that is not defined. -/
def Obligations.LaunchesOutsideTheBufferAreRefused : Prop :=
  ∀ s : State, s.busy = false →
    (2 ^ s.cfg.hostAddrW < s.bufBase + s.bufLen → exec .wrdata s = .refused .bufferWraps) ∧
    (s.bufBase + s.bufLen ≤ 2 ^ s.cfg.hostAddrW →
      (∃ j, j < s.bufLen ∧ Memory.read s.hostbuf (s.bufBase + j) = none) →
      exec .wrdata s = .refused .bufferUndefined) ∧
    (∀ n : BitVec 16, n.toNat ≤ 32 → 2 ^ s.cfg.hostAddrW < s.bufBase + n.toNat →
      exec (.wrchunk n) s = .refused .bufferWraps) ∧
    (∀ n : BitVec 16, n.toNat ≤ 32 → s.bufBase + n.toNat ≤ 2 ^ s.cfg.hostAddrW →
      (∃ j, j < n.toNat ∧ Memory.read s.hostbuf (s.bufBase + j) = none) →
      exec (.wrchunk n) s = .refused .bufferUndefined)

/-- A step runs the decoded instruction: an idle block with a legal command word presented runs `exec` of it on the latched
state (R22); a line that performs a micro-operation runs `exec` of it and then moves `pc` to the next line, keeping the value
where the line names it (R13, R24); every other line is done by `perform`. -/
def Obligations.StepRunsTheDecodedInstruction : Prop :=
  (∀ (s : State) (l : Launch) (rest : List Launch) (i : Instr),
    s.resetIn = false → s.pc = [] → s.busy = false → s.port = l :: rest → decode (.command l.word) = .ok i →
    step s = exec i (latch l rest s)) ∧
  (∀ (s : State) (f : Frame) (fs : List Frame) (u : Instr) (d : Dest) (k j : Nat),
    s.resetIn = false → s.pc = f :: fs → lineOf f s = .micro u d k j →
    step s = andThen (exec u s) (afterMicro d k j)) ∧
  (∀ (s : State) (f : Frame) (fs : List Frame),
    s.resetIn = false → s.pc = f :: fs → (∀ u d k j, lineOf f s ≠ .micro u d k j) →
    step s = perform (lineOf f s) s)

/-- Outside of block reset nothing on the port influences a step of a busy block (R22, R50). -/
def Obligations.PortDoesNotInfluenceARunningCommand : Prop :=
  ∀ (s : State) (p : List Launch), s.resetIn = false → s.busy = true →
    step { s with port := p } = andThen (step s) fun t => { t with port := p }

/-! ## Micro-operations and frames -/

/-- R67 to R72: each line micro-operation has its code, writes its own line, appends its own event, also where the line does not
change, and changes nothing else; CSA and DSA find both select lines deasserted and RSTA, RSTD stand only in steps 1 and 4c of
the hard reset; a CSD or DSD of a line that is already deasserted is the hard reset's step 4. -/
def Obligations.LineMicroOperations : Prop :=
  ∀ s : State,
    exec .csa s = .next { s with cs := true, events := .csOn :: s.events } ∧
    exec .csd s = .next { s with cs := false, events := .csOff :: s.events } ∧
    exec .dsa s = .next { s with ds := true, events := .dsOn :: s.events } ∧
    exec .dsd s = .next { s with ds := false, events := .dsOff :: s.events } ∧
    exec .rsta s = .next { s with rst := true, events := .rstOn :: s.events } ∧
    exec .rstd s = .next { s with rst := false, events := .rstOff :: s.events } ∧
    encode .csa = .micro 0x0#4 0 ∧ encode .csd = .micro 0x1#4 0 ∧ encode .dsa = .micro 0x2#4 0 ∧
    encode .dsd = .micro 0x3#4 0 ∧ encode .rsta = .micro 0x4#4 0 ∧ encode .rstd = .micro 0x5#4 0 ∧
    (∀ (f : Frame) (fs : List Frame) (d : Dest) (k j : Nat), SequencerInv s → s.pc = f :: fs →
      (lineOf f s = .micro .csa d k j → s.cs = false ∧ s.ds = false) ∧
      (lineOf f s = .micro .csd d k j → s.cs = false → f = ⟨.hardReset, 4, 0⟩) ∧
      (lineOf f s = .micro .dsa d k j → s.cs = false ∧ s.ds = false) ∧
      (lineOf f s = .micro .dsd d k j → s.ds = false → f = ⟨.hardReset, 4, 1⟩) ∧
      (lineOf f s = .micro .rsta d k j → f = ⟨.hardReset, 1, 0⟩) ∧
      (lineOf f s = .micro .rstd d k j → f = ⟨.hardReset, 4, 2⟩))

/-- R73: POLL has the code 0x6; one poll takes the next answer, whatever it is, returns it, and appends it to the trace; it
changes nothing else. -/
def Obligations.PollTakesOneSample : Prop :=
  encode .poll = .micro 0x6#4 0 ∧
  ∀ s : State, ∃ t, exec .poll s = .next t ∧ t.b = s.flowAt 0 ∧ t.trace = s.trace ++ [.poll (s.flowAt 0)] ∧
    (∀ k, t.flowAt k = s.flowAt (k + 1)) ∧ (∀ k, t.replyAt k = s.replyAt k) ∧
    t = { s with b := t.b, events := t.events, flowScript := t.flowScript, pollCount := t.pollCount }

/-- R76: XCHG has the code 0x7 (the operand byte beside the code is the model's, DESIGN CHOICE, log entry 12); one exchange sends
its operand, takes the next reply byte, whatever it is, returns it, and appends both to the trace; it looks at no line and changes
nothing else. -/
def Obligations.ExchangeMovesOneByteEachWay : Prop :=
  (∀ out : Byte, encode (.xchg out) = .micro 0x7#4 out) ∧
  ∀ (out : Byte) (s : State), ∃ t, exec (.xchg out) s = .next t ∧ t.reply = s.replyAt 0 ∧
    t.trace = s.trace ++ [.xchg out (s.replyAt 0)] ∧
    (∀ k, t.replyAt k = s.replyAt (k + 1)) ∧ (∀ k, t.flowAt k = s.flowAt k) ∧
    t = { s with reply := t.reply, events := t.events, replyScript := t.replyScript, xchgCount := t.xchgCount }

/-- R77, R160: a delay is an event and changes no state. -/
def Obligations.DelayIsOnlyAnEvent : Prop :=
  ∀ (d : Duration) (s : State), exec (.delay d) s = .next { s with events := .delay d :: s.events }

/-- R78: SPEEDHI has the code 0x9, sets `SPEED`, also where it is set, appends its event, changes nothing else; it stands only
in the last step of the hard reset; and no instruction lowers the speed. -/
def Obligations.SpeedHighSetsTheHigherSpeed : Prop :=
  encode .speedhi = .micro 0x9#4 0 ∧
  ∀ s : State,
    exec .speedhi s = .next { s with speed := true, events := .speedUp :: s.events } ∧
    (∀ (f : Frame) (fs : List Frame) (d : Dest) (k j : Nat), SequencerInv s → s.pc = f :: fs →
      lineOf f s = .micro .speedhi d k j → f = ⟨.hardReset, 14, 0⟩) ∧
    (∀ (i : Instr) (t : State), exec i s = .next t → s.speed = true → t.speed = true)

/-- R53: the register write frame: `02 0a hi lo` under `CS`, every reply discarded, nothing else changed. -/
def Obligations.RegisterWriteFrame : Prop :=
  ∀ (a : RegAddr) (v : Half) (s : State), ∃ t, exec (.sciWriteFrame a v) s = .next t ∧
    t.trace = s.trace ++ [.csOn, .xchg 0x02 (s.replyAt 0), .xchg (0#4 ++ a) (s.replyAt 1),
      .xchg (v.extractLsb' 8 8) (s.replyAt 2), .xchg (v.extractLsb' 0 8) (s.replyAt 3), .csOff] ∧
    (∀ k, t.replyAt k = s.replyAt (k + 4)) ∧
    t = { s with cs := false, events := t.events, reply := t.reply, replyScript := t.replyScript,
                 xchgCount := t.xchgCount }

/-- R54: the register read frame: `03 0a d1 d2` under `CS`; the first two replies are discarded, the third and the fourth are the
high and the low byte of the value; nothing else changed. The dummy byte of the block's configuration is 0xFF, the spec's decision
D8 on general knowledge (PRESUMED, log entry 17). That the frame may have any two bytes there is the model's choice (log entry 26).
And R51: a read of a register right after a write to it gives the value written, where the chip keeps `ENV_ROUNDTRIP`. -/
def Obligations.RegisterReadFrame : Prop :=
  State.reset.cfg.dummyByte = 0xFF#8 ∧
  (∀ (a : RegAddr) (d1 d2 : Byte) (s : State), ∃ t, exec (.sciReadFrame a d1 d2) s = .next t ∧
    t.trace = s.trace ++ [.csOn, .xchg 0x03 (s.replyAt 0), .xchg (0#4 ++ a) (s.replyAt 1),
      .xchg d1 (s.replyAt 2), .xchg d2 (s.replyAt 3), .csOff] ∧
    t.data = s.replyAt 2 ++ s.replyAt 3 ∧
    (∀ k, t.replyAt k = s.replyAt (k + 4)) ∧
    t = { s with cs := false, data := t.data, hi := t.hi, lo := t.lo, events := t.events, reply := t.reply,
                 replyScript := t.replyScript, xchgCount := t.xchgCount }) ∧
  (∀ (a : RegAddr) (v : Half) (d1 d2 : Byte) (s t u : State), exec (.sciWriteFrame a v) s = .next t →
    exec (.sciReadFrame a d1 d2) t = .next u → EnvRoundtrip u → u.data = v)

/-- R55: the data frame of at most 32 bytes: exchange `i` sends byte `i` under `DS`, every reply discarded, nothing else
changed; a longer list of bytes is no frame; the model's frame meaning refuses it by name (the model's choice, log entry 14). -/
def Obligations.DataChunkFrame : Prop :=
  (∀ (bytes : List Byte) (s : State), bytes.length ≤ 32 → ∃ t, exec (.sdiChunkFrame bytes) s = .next t ∧
    t.trace = s.trace ++ [.dsOn] ++ (bytes.zipIdx.map fun x => Event.xchg x.1 (s.replyAt x.2)) ++ [.dsOff] ∧
    (∀ k, t.replyAt k = s.replyAt (k + bytes.length)) ∧
    t = { s with ds := false, events := t.events, reply := t.reply, replyScript := t.replyScript,
                 xchgCount := t.xchgCount }) ∧
  (∀ (bytes : List Byte) (s : State), 32 < bytes.length → exec (.sdiChunkFrame bytes) s = .refused .oversizedFrame)

/-- The frame that the sequencer steps through, line by line, is the frame of the wire (R45, R53 to R55, R82, R83, R88): from the
assertion of the select line to its deassertion, with nothing but exchanges in between. -/
def Obligations.SteppedFramesAreTheWireFrames : Prop :=
  (∀ (a : RegAddr) (v : Half) (s : State) (fs : List Frame),
    s.resetIn = false → s.pc = ⟨.sciWrite a v, 3, 0⟩ :: fs → s.addr = a → s.data = v →
    run 6 s = exec (.sciWriteFrame a v) { s with pc := ⟨.sciWrite a v, 9, 0⟩ :: fs }) ∧
  (∀ (a : RegAddr) (s : State) (fs : List Frame),
    s.resetIn = false → s.pc = ⟨.sciRead a, 3, 0⟩ :: fs → s.addr = a →
    run 7 s = exec (.sciReadFrame a s.cfg.dummyByte s.cfg.dummyByte) { s with pc := ⟨.sciRead a, 10, 0⟩ :: fs }) ∧
  (∀ (f : Source) (xs : List Byte) (s : State) (fs : List Frame),
    s.resetIn = false → s.pc = ⟨.chunk f xs.length, 3, 0⟩ :: fs → s.n.toNat = xs.length → s.i = 0 → xs.length ≤ 32 →
    (∀ m (h : m < xs.length), sourceByte f m s = some xs[m]) →
    run (3 * xs.length + 3) s =
      exec (.sdiChunkFrame xs) { s with pc := ⟨.chunk f xs.length, 8, 0⟩ :: fs, i := BitVec.ofNat 6 xs.length })

/-! ## The gate -/

/-- R74, R128, R156: with no poll limit a wait whose polls read busy goes on polling: after `n` busy answers it is where it was,
one poll event for each, `BUSY` as it was and no response. -/
def Obligations.BusyChipKeepsTheBlockWaiting : Prop :=
  ∀ (s : State) (fs : List Frame) (n : Nat), s.resetIn = false → s.pc = ⟨.waitReady, 2, 0⟩ :: fs →
    s.cfg.pollLimit = none → (∀ k, k < n → s.flowAt k = false) →
    ∃ t, run (5 * n) s = .next t ∧ t.pc = s.pc ∧ t.trace = s.trace ++ List.replicate n (.poll false) ∧
      t.busy = s.busy ∧ t.responses = s.responses ∧ t.cs = s.cs ∧ t.ds = s.ds ∧ t.rst = s.rst ∧
      (∀ k, t.flowAt k = s.flowAt (n + k))

/-- R75: with the limit `k`, a wait whose `k` polls all read busy ends the command with `(NOT_RESPONDING, 0)` after exactly `k`
polls, at whatever depth of calls; a wait with a ready answer at poll `j` <= `k` returns after `j` polls (here `j` + 1 <= `k`);
the count restarts at every wait; and with no limit no wait raises. -/
def Obligations.PollLimitEndsAWait : Prop :=
  (∀ (s : State) (fs : List Frame) (k : Nat), s.resetIn = false → s.pc = ⟨.waitReady, 1, 0⟩ :: fs → s.cs = false →
    s.ds = false → TimesOut k s →
    ∃ t, Reaches s t ∧ t.pc = [] ∧ t.busy = false ∧ t.err = 2 ∧ t.result = 0 ∧
      t.responsesInOrder = s.responsesInOrder ++ [⟨2, 0⟩] ∧ t.trace = s.trace ++ List.replicate k (.poll false) ∧
      t.rst = s.rst ∧ t.speed = s.speed) ∧
  (∀ (s : State) (fs : List Frame) (k j : Nat), s.resetIn = false → s.pc = ⟨.waitReady, 1, 0⟩ :: fs →
    s.cfg.pollLimit = some k → j + 1 ≤ k → (∀ m, m < j → s.flowAt m = false) → s.flowAt j = true →
    ∃ t, Reaches s t ∧ t.pc = fs ∧ t.trace = s.trace ++ waitTrace j ∧ t.responses = s.responses) ∧
  (∀ (s : State) (f : Frame) (fs : List Frame), s.pc = f :: fs → f.proc = .waitReady → s.cfg.pollLimit = none →
    ∀ e info, lineOf f s ≠ .raise e info)

/-! ## Host commands -/

/-- R79: FLOWRD, word 0x50000000, polls once and returns the answer. -/
def Obligations.FlowrdReturnsOneSample : Prop :=
  (∀ s : State, LIdle s →
    Completes .flowrd .flowrd s 0 (if s.flowAt 0 then 0x0001#16 else 0x0000#16) [.poll (s.flowAt 0)] s.speed) ∧
  commandWord .flowrd = 0x50000000#32

/-- R80: WAITRDY is the gate alone: it ends when the wait does, with `(OK, 0)`, or with `(NOT_RESPONDING, 0)` where the wait times
out; no line changes. With no limit and a chip that signals ready at some poll (`ENV_READY`, R51) it ends. -/
def Obligations.WaitrdyIsTheGateAlone : Prop :=
  ∀ s : State, LIdle s →
    (∀ j, ReadyAfter j s → Completes .waitrdy .waitrdy s 0 0 (waitTrace j) s.speed) ∧
    (∀ k, TimesOut k s → Completes .waitrdy .waitrdy s 2 0 (List.replicate k (.poll false)) s.speed) ∧
    (s.cfg.pollLimit = none → EnvReady 1 s → ∃ j, Completes .waitrdy .waitrdy s 0 0 (waitTrace j) s.speed)

/-- R84: WRREG, word 0x020a_vvvv, waits, sends one write frame and answers `(OK, 0)`; where the wait times out it sends nothing
and answers `(NOT_RESPONDING, 0)`; `CMD.a[7:4]` not 0 is illegal. -/
def Obligations.WrregSendsOneWriteFrame : Prop :=
  (∀ (a : RegAddr) (v : Half) (s : State), LIdle s →
    (∀ j, ReadyAfter j s → Completes (.wrreg a v) .wrreg s 0 0 (waitTrace j ++ writeFrame a v) s.speed) ∧
    (∀ k, TimesOut k s → Completes (.wrreg a v) .wrreg s 2 0 (List.replicate k (.poll false)) s.speed)) ∧
  (∀ (a : RegAddr) (v : Half), commandWord (.wrreg a v) = 0x020#12 ++ a ++ v) ∧
  (∀ (x : Byte) (v : BitVec 16), x.extractLsb' 4 4 ≠ 0#4 → Illegal (packCommand 0x02 x v))

/-- R85: RDREG, word 0x030a_0000, waits, sends one read frame and answers `(OK, r)` with `r` the third and the fourth reply
byte, high byte first; where the wait times out it sends nothing and answers `(NOT_RESPONDING, 0)`; `CMD.a[7:4]` or `CMD.v` not
0 is illegal. -/
def Obligations.RdregReturnsTheValueRead : Prop :=
  (∀ (a : RegAddr) (s : State), LIdle s →
    (∀ j, ReadyAfter j s →
      Completes (.rdreg a) .rdreg s 0 (s.replyAt 2 ++ s.replyAt 3) (waitTrace j ++ readFrame a s.cfg.dummyByte) s.speed) ∧
    (∀ k, TimesOut k s → Completes (.rdreg a) .rdreg s 2 0 (List.replicate k (.poll false)) s.speed)) ∧
  (∀ a : RegAddr, commandWord (.rdreg a) = 0x030#12 ++ a ++ 0#16) ∧
  (∀ (x : Byte) (v : BitVec 16), (x.extractLsb' 4 4 ≠ 0#4 ∨ v ≠ 0) → Illegal (packCommand 0x03 x v))

/-- R90: WRCHUNK, word 0x1100_nnnn: of at most 32 bytes it waits, sends them from the host buffer in one data frame and answers
`(OK, 0)`; a longer one does nothing and answers `(OVERSIZE, 0)` with an empty trace, whatever the gate, and whatever the buffer
(the latter is log entry 8, DEDUCED from R90 and R95 against R163's letter); a wait that times out gives `(NOT_RESPONDING, 0)`;
`CMD.a` not 0 is illegal. -/
def Obligations.WrchunkSendsOneChunk : Prop :=
  (∀ (n : BitVec 16) (xs : List Byte) (s : State), LIdle s → n.toNat ≤ 32 → xs.length = n.toNat → BufferHolds xs s →
    (∀ j, ReadyAfter j s → Completes (.wrchunk n) .wrchunk s 0 0 (waitTrace j ++ chunkFrame xs) s.speed) ∧
    (∀ k, TimesOut k s → Completes (.wrchunk n) .wrchunk s 2 0 (List.replicate k (.poll false)) s.speed)) ∧
  (∀ (n : BitVec 16) (s : State), LIdle s → 32 < n.toNat → Completes (.wrchunk n) .wrchunk s 1 0 [] s.speed) ∧
  (∀ n : BitVec 16, commandWord (.wrchunk n) = 0x1100#16 ++ n) ∧
  (∀ (x : Byte) (v : BitVec 16), x ≠ 0 → Illegal (packCommand 0x11 x v))

/-- R91, R89, R93: WRDATA, gate `g` passing after `js g` busy polls, sends the `BUF_LEN` bytes of the host buffer as `ceil(L/32)`
gated chunks, 32 bytes each but the last, and answers `(OK, 0)`. -/
def Obligations.WrdataSendsTheBufferInChunks : Prop :=
  ∀ (xs : List Byte) (js : Nat → Nat) (s : State), LIdle s → LCfg s → OperandsFit s → xs.length = s.bufLen → BufferHolds xs s →
    GatesPass (chunkCount xs.length) js s → Completes .wrdata .wrdata s 0 0 (gatedFrom js 0 (streamBodies xs)) s.speed

/-- R89, R91, R130: WRDATA whose first `m` gates pass, each after any number of busy polls below the limit, and whose next gate times
out has sent the first `m` chunks in full and nothing more, and answers `(NOT_RESPONDING, 0)`. -/
def Obligations.WrdataStopsAtTheGateThatTimesOut : Prop :=
  ∀ (xs : List Byte) (js : Nat → Nat) (s : State) (m k : Nat), LIdle s → LCfg s → OperandsFit s → xs.length = s.bufLen →
    BufferHolds xs s → m < chunkCount xs.length → GateTimesOut m k js s →
    Completes .wrdata .wrdata s 2 0 (stoppedAt m k js (streamBodies xs)) s.speed

/-- R92, R89, R93: FILL, gate `g` passing after `js g` busy polls, sends its byte `count` times as `ceil(count/32)` gated chunks and
answers `(OK, 0)`; every value of both operands is legal. -/
def Obligations.FillSendsTheByteCountTimes : Prop :=
  ∀ (x : Byte) (n : BitVec 16) (js : Nat → Nat) (s : State), LIdle s → LCfg s → GatesPass (chunkCount n.toNat) js s →
    Completes (.fill x n) .fill s 0 0 (gatedFrom js 0 (streamBodies (List.replicate n.toNat x))) s.speed

/-- R89, R92, R130: FILL whose first `m` gates pass, each after any number of busy polls below the limit, and whose next gate times
out. -/
def Obligations.FillStopsAtTheGateThatTimesOut : Prop :=
  ∀ (x : Byte) (n : BitVec 16) (js : Nat → Nat) (s : State) (m k : Nat), LIdle s → LCfg s → m < chunkCount n.toNat →
    GateTimesOut m k js s →
    Completes (.fill x n) .fill s 2 0 (stoppedAt m k js (streamBodies (List.replicate n.toNat x))) s.speed

/-- R94: zero lengths. WRDATA and FILL of length 0 do nothing, not even a poll; WRCHUNK of length 0 sends the empty frame. -/
def Obligations.ZeroLengthTransfers : Prop :=
  ∀ s : State, LIdle s →
    (OperandsFit s → s.bufLen = 0 → Completes .wrdata .wrdata s 0 0 [] s.speed) ∧
    (∀ x : Byte, Completes (.fill x 0) .fill s 0 0 [] s.speed) ∧
    (∀ j, OperandsFit s → ReadyAfter j s →
      Completes (.wrchunk 0) .wrchunk s 0 0 (waitTrace j ++ [.dsOn, .dsOff]) s.speed)

/-- R93: the split of a transfer: `ceil(L/32)` chunks that are the bytes in order, each of 1 to 32 bytes, every one but the last
of exactly 32. -/
def Obligations.GreedySplitIntoChunks : Prop :=
  ∀ xs : List Byte,
    (splitChunks xs.length xs).length = chunkCount xs.length ∧ (splitChunks xs.length xs).flatten = xs ∧
    (∀ c ∈ splitChunks xs.length xs, 1 ≤ c.length ∧ c.length ≤ 32) ∧
    (∀ c ∈ (splitChunks xs.length xs).dropLast, c.length = 32)

/-- R100, R102: SRESET, gate `g` passing after `js g` busy polls: the events of the soft reset, 24 where every gate passes at its
first poll, `(OK, 0)`, `SPEED` as it was. -/
def Obligations.SresetRunsTheSoftReset : Prop :=
  ∀ (js : Nat → Nat) (s : State), LIdle s → GatesPass 4 js s →
    Completes .sreset .sreset s 0 0 (gatedFrom js 0 (softResetBodies s.cfg)) s.speed ∧
    (gatedFrom js 0 (softResetBodies s.cfg)).length = 20 + gateStart js 4 ∧ gateStart (fun _ => 0) 4 = 4

/-- R99, R101, R104: HRESET, gate `g` passing after `js g` busy polls: the events of the hard reset in their order, 75 where every
gate passes at its first poll, `(OK, 0)`, `SPEED` = 1 at the end; and the run ends where the launch premises `L_IDLE`, `L_SPEED(1)`
and `L_HRESET_DONE` hold (R163). -/
def Obligations.HresetRunsTheHardReset : Prop :=
  ∀ (js : Nat → Nat) (s : State), LIdle s → GatesPass 11 js s →
    Completes .hreset .hreset s 0 0 (hardResetHead s.cfg ++ gatedFrom js 0 (hardResetBodies s.cfg)) true ∧
    (hardResetHead s.cfg ++ gatedFrom js 0 (hardResetBodies s.cfg)).length = 64 + gateStart js 11 ∧
    gateStart (fun _ => 0) 11 = 11 ∧
    ∃ u, Reaches (acceptedAs .hreset .hreset s) u ∧ LIdle u ∧ LSpeed true u ∧ LHresetDone u

/-- R105: a reset with a wait that times out, any of its waits, ends there: the steps before it are done, `SPEED` keeps its value,
`RST` is released, the answer is `(NOT_RESPONDING, 0)`. HRESET has eleven waits, SRESET four. -/
def Obligations.ResetStopsAtAWaitThatTimesOut : Prop :=
  ∀ (js : Nat → Nat) (s : State) (m k : Nat), LIdle s → GateTimesOut m k js s →
    (m < 11 →
      Completes .hreset .hreset s 2 0 (hardResetHead s.cfg ++ stoppedAt m k js (hardResetBodies s.cfg)) s.speed) ∧
    (m < 4 → Completes .sreset .sreset s 2 0 (stoppedAt m k js (softResetBodies s.cfg)) s.speed)

/-- R119, R121, R131: VERQ reads the status register once and answers its version nibble: `(OK, v)` for 0 to 7, `(BAD_VERSION, v)`
for 8 to 15; where the wait times out, `(NOT_RESPONDING, 0)`. -/
def Obligations.VerqReturnsTheVersionNibble : Prop :=
  ∀ s : State, LIdle s →
    (∀ j, ReadyAfter j s →
      Completes .verq .verq s
        (if ((s.replyAt 2 ++ s.replyAt 3).extractLsb' s.cfg.verLsb.val 4).toNat < 8 then 0 else 4)
        (((s.replyAt 2 ++ s.replyAt 3).extractLsb' s.cfg.verLsb.val 4).setWidth 16)
        (waitTrace j ++ readFrame 0x1 s.cfg.dummyByte) s.speed) ∧
    (∀ k, TimesOut k s → Completes .verq .verq s 2 0 (List.replicate k (.poll false)) s.speed)

/-- R112: the test of line 10 of CANCEL: the value just read confirms the cancellation exactly when its bit 3 is 0, equivalently
when `(v and 0x0008) = 0`; no other bit matters. -/
def Obligations.CancelTestsBitThree : Prop :=
  ∀ (s : State) (fs : List Frame), s.resetIn = false → s.pc = ⟨.cancel, 10, 0⟩ :: fs →
    step s = .next { s with pc := ⟨.cancel, if s.tmp &&& 0x0008#16 = 0 then 11 else 6, 0⟩ :: fs } ∧
    (s.tmp &&& 0x0008#16 = 0 ↔ s.tmp.getLsbD 3 = false)

/-- R107 to R114, R116: CANCEL, gate `g` passing after `js g` busy polls, where the first `N` - 1 reads of the mode register show bit 3
set and the `N`-th shows it clear (`ENV_CANCEL`), 1 <= `N` <= 64: the fill byte is the low byte read through the RAM window, exactly
`N` loop chunks are sent, and the answer is `(OK, r)` with `r` the register read last. -/
def Obligations.CancelConfirmedAtTheNthRead : Prop :=
  ∀ (js : Nat → Nat) (s : State) (N : Nat), LIdle s → LCfg s → N ≤ 64 → GatesPass (2 * N + 69) js s → EnvCancel N s →
    Completes .cancel .cancel s 0 (s.replyAt (2066 + 36 * N) ++ s.replyAt (2067 + 36 * N))
      (gatedFrom js 0 (cancelBodies N s.cfg (s.replyAt 7))) s.speed

/-- R107, R113, R115, R129: CANCEL, gate `g` passing after `js g` busy polls, where all 64 reads of the mode register show bit 3 set:
exactly 2048 bytes are sent in the loop, the result register is still read, and the answer is `(CANCEL_UNCONFIRMED, r)`. -/
def Obligations.CancelUnconfirmedAfterTheBudget : Prop :=
  ∀ (js : Nat → Nat) (s : State), LIdle s → LCfg s → GatesPass 197 js s → CancelBitSet 64 s →
    Completes .cancel .cancel s 3 (s.replyAt 4370 ++ s.replyAt 4371)
      (gatedFrom js 0 (cancelBodies 64 s.cfg (s.replyAt 7))) s.speed

/-- R116: the totals of a CANCEL of `N` rounds: events, ready and busy polls, exchanges, data frames, register frames; with every gate
passing at its first poll 42 `N` + 2275 events. -/
def Obligations.CancelTotals : Prop :=
  ∀ (N : Nat) (js : Nat → Nat) (c : Config) (x : Byte),
    (cancelBodies N c x).length = 2 * N + 69 ∧
    (gatedFrom (fun _ => 0) 0 (cancelBodies N c x)).length = 42 * N + 2275 ∧
    (gatedFrom js 0 (cancelBodies N c x)).length = 40 * N + 2206 + gateStart js (2 * N + 69) ∧
    (gatedFrom js 0 (cancelBodies N c x)).countP (fun e => e = .poll true) = 2 * N + 69 ∧
    (gatedFrom js 0 (cancelBodies N c x)).countP (fun e => match e with | .poll _ => true | _ => false) =
      gateStart js (2 * N + 69) ∧
    (gatedFrom js 0 (cancelBodies N c x)).countP (fun e => match e with | .xchg _ _ => true | _ => false) = 36 * N + 2068 ∧
    (gatedFrom js 0 (cancelBodies N c x)).countP (fun e => e = .dsOn) = 65 + N ∧
    (gatedFrom js 0 (cancelBodies N c x)).countP (fun e => e = .csOn) = N + 4

/-- R118: CANCEL with a wait that times out, any of its waits, ends at once with `(NOT_RESPONDING, 0)`: what was sent before stays sent,
and no register is read for the answer. The first `m` gates pass; they lie in the first `N` rounds, so the reads of the first
`N` - 1 rounds have shown the cancel bit set; the gate of the result's read (`m` = 2 `N` + 68) follows the `N`-th read only where
that one shows the bit clear, or where the budget is spent. -/
def Obligations.CancelStopsAtAWaitThatTimesOut : Prop :=
  ∀ (js : Nat → Nat) (s : State) (N m k : Nat), LIdle s → LCfg s → 1 ≤ N → N ≤ 64 → CancelBitSet (N - 1) s →
    m < 2 * N + 69 → (m = 2 * N + 68 → N = 64 ∨ (s.replyAt (2063 + 36 * N)).getLsbD 3 = false) → GateTimesOut m k js s →
    Completes .cancel .cancel s 2 0 (stoppedAt m k js (cancelBodies N s.cfg (s.replyAt 7))) s.speed

/-! ## Whole-machine rules -/

/-- The reset state meets the three invariants. They say nothing of the registers that R35 leaves without a value (log entry 5): a
counter is bounded only while its procedure is on `pc`. -/
def Obligations.ResetMeetsTheInvariants : Prop :=
  SequencerInv State.reset ∧ WireInv State.reset ∧ SafeInv State.reset

/-- Every step keeps: a legal control stack (R24), `BUSY` = 1 exactly off `IDLE`, and each line asserted exactly where its
procedure has asserted it (R18, R81). -/
def Obligations.EveryStepKeepsTheSequencerInvariant : Prop :=
  ∀ s t : State, SequencerInv s → step s = .next t → SequencerInv t

/-- Every step keeps the shape of the trace (R62, R86, R148, R149, R150): a select line asserted only right after a ready poll,
four exchanges under `CS` starting with 0x02 or 0x03 and an address byte below 0x10, at most 32 under `DS`, no poll, delay or
other line event inside a frame, and a byte outside a frame only while the reset line is asserted. -/
def Obligations.EveryStepKeepsTheShapeOfTheTrace : Prop :=
  ∀ s t : State, WireInv s → step s = .next t → WireInv t

/-- Every step keeps each counter of R25 in its range while its procedure is on `pc` and has set it (`N`, `I`, `REM`, `OFF`, `BUD`,
and `NPOLL` in 0..`POLL_LIMIT`), `OFF` + `REM` = `L` at every loop test of a transfer (R89), the budget a multiple of 32 that never
goes below 0 (R113), and every byte that the running command can still read defined (R163). Between commands a counter has no
architectural value (R25) and nothing is said of it. -/
def Obligations.EveryStepKeepsTheCountersInRange : Prop :=
  ∀ s t : State, SafeInv s → step s = .next t → SafeInv t

/-- Under these invariants no step faults: each answers a next state, or refuses a launch that R163 refuses. -/
def Obligations.NoStepFaults : Prop :=
  ∀ s : State, SafeInv s →
    (∃ t, step s = .next t) ∨ step s = .refused .bufferWraps ∨ step s = .refused .bufferUndefined

/-- R18: in every state of every run, `CS` and `DS` are not both asserted, and when the block is idle neither is. -/
def Obligations.SelectLinesNeverBothAsserted : Prop :=
  ∀ s u : State, SequencerInv s → Reaches s u →
    ¬(u.cs = true ∧ u.ds = true) ∧ (u.pc = [] → u.cs = false ∧ u.ds = false)

/-- R86, R148, R149, R150 over whole runs: no run from a state that meets the invariant breaks the shape of the trace; an idle
block has every frame closed. -/
def Obligations.NoRunBreaksTheShapeOfTheTrace : Prop :=
  ∀ s u : State, WireInv s → Reaches s u →
    phaseOf u.trace ≠ .broken ∧ (u.pc = [] → (phaseOf u.trace).isFree = true)

/-- R24: a legal control stack has at most five frames and its outermost frame is a command's own pseudocode. -/
def Obligations.AtMostFiveFrames : Prop :=
  ∀ s : State, SequencerInv s → s.pc.length ≤ 5 ∧ ∀ f, s.pc.getLast? = some f → f.proc.isCommand = true

/-- R19: `SPEED` becomes 1 only at the last step of the hard reset, becomes 0 only by block reset, and no other step changes it.
-/
def Obligations.SpeedOnlyRisesAtTheEndOfAHardReset : Prop :=
  (∀ s t : State, s.resetIn = false → step s = .next t →
    t.speed = s.speed ∨ (t.speed = true ∧ ∃ fs, s.pc = ⟨.hardReset, 14, 0⟩ :: fs)) ∧
  (∀ s t : State, s.resetIn = true → step s = .next t → t.speed = false)

/-- R27: no step changes the configuration. R37: no step writes the host buffer, and so its canonical form stays. -/
def Obligations.ConfigurationAndBufferAreConstant : Prop :=
  ∀ s t : State, step s = .next t →
    t.cfg = s.cfg ∧ t.hostbuf = s.hostbuf ∧ (∀ a, Memory.read t.hostbuf a = Memory.read s.hostbuf a) ∧
    (Memory.wf s.cfg.hostAddrW s.hostbuf = true → Memory.wf t.cfg.hostAddrW t.hostbuf = true)

/-- R23: outside of block reset a step changes the three flags and the responses only as a `done` does, all of them together, one
response with exactly the new `ERR` and `RESULT`, `BUSY` cleared, `pc` = `IDLE`; but for `BUSY` rising, which it does only at the
acceptance of the oldest presented command by an idle block. -/
def Obligations.FlagsChangeOnlyAtDone : Prop :=
  ∀ s t : State, s.resetIn = false → step s = .next t →
    (t.err = s.err ∧ t.result = s.result ∧ t.responses = s.responses ∧
      (t.busy = s.busy ∨ (s.busy = false ∧ s.pc = [] ∧ t.busy = true ∧ ∃ l rest, s.port = l :: rest ∧ t.port = rest ∧
        t.cmd = l.word))) ∨
    (t.responses = ⟨t.err, t.result⟩ :: s.responses ∧ t.busy = false ∧ t.pc = [])

/-- R126: the error codes 6 to 15 are never written: codes at most 5 in `ERR` and in every response stay at most 5. -/
def Obligations.ErrorCodesStayBelowSix : Prop :=
  ∀ s t : State, s.err.toNat ≤ 5 → (∀ r ∈ s.responses, r.err.toNat ≤ 5) → step s = .next t →
    t.err.toNat ≤ 5 ∧ ∀ r ∈ t.responses, r.err.toNat ≤ 5

/-- R15, R24, R48: under the sequencer's invariant a step that performs a micro-operation appends exactly one event, and every
other step appends none; an idle block appends none. -/
def Obligations.OneEventForEachMicroOperation : Prop :=
  ∀ s t : State, SequencerInv s → s.resetIn = false → step s = .next t →
    (s.pc = [] → t.trace = s.trace) ∧
    (∀ (f : Frame) (fs : List Frame), s.pc = f :: fs →
      (∀ u d k j, lineOf f s = .micro u d k j → ∃ e, t.trace = s.trace ++ [e]) ∧
      ((∀ u d k j, lineOf f s ≠ .micro u d k j) → t.trace = s.trace))

/-- R130: the error exit: `CS` then `DS` deasserted where asserted, `ERR` and `RESULT` written, `BUSY` cleared, `IDLE`, one
response, `RST` and `SPEED` kept, nothing undone; and in this block it never finds a select line asserted. -/
def Obligations.ErrorExit : Prop :=
  ∀ (s : State) (f : Frame) (fs : List Frame) (e : ErrorCode) (info : Half),
    s.resetIn = false → s.pc = f :: fs → lineOf f s = .raise e info →
    (∃ t, step s = .next t ∧ t.cs = false ∧ t.ds = false ∧
      t.trace = s.trace ++ (if s.cs then [.csOff] else []) ++ (if s.ds then [.dsOff] else []) ∧
      t.err = e.code ∧ t.result = info ∧ t.busy = false ∧ t.pc = [] ∧
      t.responsesInOrder = s.responsesInOrder ++ [⟨e.code, info⟩] ∧ t.rst = s.rst ∧ t.speed = s.speed ∧
      t.port = s.port ∧ t.hostbuf = s.hostbuf ∧ t.cfg = s.cfg) ∧
    (SequencerInv s → s.cs = false ∧ s.ds = false)

/-- R25, column "written by": outside of block reset each working register changes only at a line of a procedure that the table
names for it, and so at no step of an idle block, be it the acceptance of a command or the end of an illegal word (the chip's
answers and the model's own latches apart). -/
def Obligations.WorkingRegistersAreWrittenWhereTheTableSays : Prop :=
  (∀ s t : State, s.resetIn = false → s.pc = [] → step s = .next t →
    t.addr = s.addr ∧ t.data = s.data ∧ t.fill = s.fill ∧ t.base = s.base ∧ t.rem = s.rem ∧ t.off = s.off ∧ t.n = s.n ∧
    t.i = s.i ∧ t.bud = s.bud ∧ t.npoll = s.npoll ∧ t.tmp = s.tmp) ∧
  (∀ (s t : State) (f : Frame) (fs : List Frame), s.resetIn = false → s.pc = f :: fs → step s = .next t →
    (t.addr = s.addr ∨ (∃ a v, f.proc = .sciWrite a v) ∨ ∃ a, f.proc = .sciRead a) ∧
    (t.data = s.data ∨ (∃ a v, f.proc = .sciWrite a v) ∨ ∃ a, f.proc = .sciRead a) ∧
    (t.fill = s.fill ∨ f.proc = .fill ∨ f.proc = .cancel) ∧
    (t.base = s.base ∨ f.proc = .wrdata ∨ f.proc = .wrchunk) ∧
    (t.rem = s.rem ∨ ∃ g len, f.proc = .stream g len) ∧
    (t.off = s.off ∨ ∃ g len, f.proc = .stream g len) ∧
    (t.n = s.n ∨ ∃ g m, f.proc = .chunk g m) ∧
    (t.i = s.i ∨ ∃ g m, f.proc = .chunk g m) ∧
    (t.bud = s.bud ∨ f.proc = .cancel) ∧
    (t.npoll = s.npoll ∨ f.proc = .waitReady) ∧
    (t.tmp = s.tmp ∨ f.proc = .cancel ∨ f.proc = .verq))

end
end

