-- ==== Sys2Proof/Laws/Encoding.lean ====
section
/-! SUPPORT. The fields of a command word and of an address byte (30_encoding.md R56, R58). -/

namespace Sys2Proof

/-- The `op` field of a packed word (R58). -/
@[simp] theorem opField_packCommand (op a : Byte) (v : BitVec 16) : opField (packCommand op a v) = op := by
  apply BitVec.eq_of_getLsbD_eq
  intro i hi
  simp only [opField, packCommand, BitVec.getLsbD_extractLsb', BitVec.getLsbD_append]
  have h1 : ¬ 24 + i < 16 := by omega
  have h2 : ¬ 24 + i - 16 < 8 := by omega
  have h3 : 24 + i - 16 - 8 = i := by omega
  simp [hi, h1, h2, h3]

/-- The `a` field of a packed word (R58). -/
@[simp] theorem aField_packCommand (op a : Byte) (v : BitVec 16) : aField (packCommand op a v) = a := by
  apply BitVec.eq_of_getLsbD_eq
  intro i hi
  simp only [aField, packCommand, BitVec.getLsbD_extractLsb', BitVec.getLsbD_append]
  simp (disch := omega) [hi]

/-- The `v` field of a packed word (R58). -/
@[simp] theorem vField_packCommand (op a : Byte) (v : BitVec 16) : vField (packCommand op a v) = v := by
  apply BitVec.eq_of_getLsbD_eq
  intro i hi
  simp only [vField, packCommand, BitVec.getLsbD_extractLsb', BitVec.getLsbD_append]
  simp (disch := omega) [hi]

/-- The address in an address byte (R56). -/
@[simp] theorem lowNibble_addressByte (a : RegAddr) : lowNibble (addressByte a) = a := by
  revert a; decide

/-- The upper four bits of an address byte (R56). -/
@[simp] theorem highNibble_addressByte (a : RegAddr) : highNibble (addressByte a) = 0 := by
  revert a; decide

/-- A word is its three fields (R58). -/
theorem packCommand_fields (w : CmdWord) : packCommand (opField w) (aField w) (vField w) = w := by
  apply BitVec.eq_of_getLsbD_eq
  intro i hi
  simp only [opField, aField, vField, packCommand, BitVec.getLsbD_extractLsb', BitVec.getLsbD_append]
  by_cases h1 : i < 16
  · simp [h1]
  · by_cases h2 : i - 16 < 8
    · have h3 : 16 + (i - 16) = i := by omega
      simp [h1, h2, h3]
    · have h3 : 24 + (i - 16 - 8) = i := by omega
      have h4 : i - 16 - 8 < 8 := by omega
      simp [h1, h2, h3, h4]

/-- A byte whose upper four bits are 0 is the address byte of its lower four (R56). -/
theorem addressByte_lowNibble (b : Byte) (h : highNibble b = 0) : addressByte (lowNibble b) = b := by
  revert b; decide

/-- A mask applied to a packed word is applied to each field (R60). -/
theorem packCommand_and (o a : Byte) (v : BitVec 16) (m n : Byte) (k : BitVec 16) :
    packCommand o a v &&& packCommand m n k = packCommand (o &&& m) (a &&& n) (v &&& k) := by
  apply BitVec.eq_of_getLsbD_eq
  intro i hi
  simp only [packCommand, BitVec.getLsbD_and, BitVec.getLsbD_append]
  by_cases h1 : i < 16
  · simp [h1]
  · by_cases h2 : i - 16 < 8 <;> simp [h1, h2]

/-- The mask of an address byte's upper four bits (R56). -/
theorem addressByte_and (a : RegAddr) : addressByte a &&& 0xF0#8 = 0x00#8 := by
  revert a; decide

/-- Packed words that agree agree field by field (R58). -/
theorem packCommand_inj (o a o' a' : Byte) (v v' : BitVec 16) :
    packCommand o a v = packCommand o' a' v' ↔ o = o' ∧ a = a' ∧ v = v' := by
  constructor
  · intro h
    exact ⟨by rw [← opField_packCommand o a v, h, opField_packCommand],
      by rw [← aField_packCommand o a v, h, aField_packCommand],
      by rw [← vField_packCommand o a v, h, vField_packCommand]⟩
  · rintro ⟨rfl, rfl, rfl⟩
    rfl

end Sys2Proof
end

