-- ==== Sys2Proof/Laws/Gates.lean ====
section
/-! SUPPORT. Gates one after the other: where each one's polls stand, what passing some of them leaves for the rest, and the
trace of bodies behind gates. -/

namespace Sys2Proof.Machine

/-- The polls of the first `d` gates, then those of the next `m`. -/
theorem gateStart_add (js : Nat → Nat) (d m : Nat) :
    gateStart js (d + m) = gateStart js d + gateStart (fun g => js (d + g)) m := by
  induction m with
  | zero => rfl
  | succ m ih =>
    change gateStart js (d + m) + (js (d + m) + 1) = _
    simp only [ih, gateStart]
    omega

/-- Gates that all pass at their first poll take one poll each. -/
@[simp] theorem gateStart_zero (m : Nat) : gateStart (fun _ => 0) m = m := by
  induction m with
  | zero => rfl
  | succ m ih => simp [gateStart, ih]

/-- Bodies behind gates from gate `d` on. -/
theorem gatedFrom_shift (js : Nat → Nat) (d g : Nat) (bodies : List (List Event)) :
    gatedFrom js (d + g) bodies = gatedFrom (fun h => js (d + h)) g bodies := by
  induction bodies generalizing g with
  | nil => rfl
  | cons b bs ih => simp only [gatedFrom]; rw [Nat.add_assoc, ih]

/-- The first body, then the rest. -/
theorem gatedFrom_cons (js : Nat → Nat) (b : List Event) (bs : List (List Event)) :
    gatedFrom js 0 (b :: bs) = waitTrace (js 0) ++ b ++ gatedFrom (fun g => js (1 + g)) 0 bs := by
  simp only [gatedFrom]
  rw [show 0 + 1 = 1 + 0 from rfl, gatedFrom_shift]

/-- Two lists of bodies, one after the other. -/
theorem gatedFrom_append (js : Nat → Nat) (as bs : List (List Event)) :
    gatedFrom js 0 (as ++ bs) = gatedFrom js 0 as ++ gatedFrom (fun g => js (as.length + g)) 0 bs := by
  induction as generalizing js with
  | nil => simp [gatedFrom]
  | cons a as ih =>
    rw [List.cons_append, gatedFrom_cons, gatedFrom_cons, ih]
    simp [Nat.add_assoc, Nat.add_comm 1]

/-- The first of several gates. -/
theorem GatesPass.first {m : Nat} {js : Nat → Nat} {s : State} (h : GatesPass m js s) (hm : 0 < m) : ReadyAfter (js 0) s :=
  ⟨fun k hk => by simpa [gateStart] using (h.1 0 hm).1 k hk, by simpa [gateStart] using (h.1 0 hm).2, h.2 0 hm⟩

/-- Fewer gates. -/
theorem GatesPass.mono {m n : Nat} {js : Nat → Nat} {s : State} (h : GatesPass m js s) (hn : n ≤ m) : GatesPass n js s :=
  ⟨fun g hg => h.1 g (by omega), fun g hg => h.2 g (by omega)⟩

/-- The gates that are left once `d` of them have passed. -/
theorem GatesPass.rest {d m : Nat} {js : Nat → Nat} {s u : State} (h : GatesPass (d + m) js s)
    (hf : ∀ k, u.flowAt k = s.flowAt (gateStart js d + k)) (hc : u.cfg = s.cfg) :
    GatesPass m (fun g => js (d + g)) u := by
  refine ⟨fun g hg => ?_, fun g hg l hl => h.2 (d + g) (by omega) l (hc ▸ hl)⟩
  have := h.1 (d + g) (by omega)
  rw [gateStart_add] at this
  exact ⟨fun k hk => by rw [hf, ← Nat.add_assoc]; exact this.1 k hk, by rw [hf, ← Nat.add_assoc]; exact this.2⟩

/-- The gates that are left before the one that times out, once `d` of them have passed. -/
theorem GateTimesOut.rest {d m k : Nat} {js : Nat → Nat} {s u : State} (h : GateTimesOut (d + m) k js s)
    (hf : ∀ k, u.flowAt k = s.flowAt (gateStart js d + k)) (hc : u.cfg = s.cfg) :
    GateTimesOut m k (fun g => js (d + g)) u := by
  refine ⟨hc ▸ h.1, h.2.1, h.2.2.1.rest hf hc, fun q hq => ?_⟩
  have := h.2.2.2 q hq
  rw [gateStart_add] at this
  rw [hf, ← Nat.add_assoc]
  exact this

/-- Where no gate passes the next wait times out. -/
theorem GateTimesOut.now {k : Nat} {js : Nat → Nat} {s : State} (h : GateTimesOut 0 k js s) : TimesOut k s :=
  ⟨h.1, h.2.1, fun q hq => by simpa [gateStart] using h.2.2.2 q hq⟩

end Sys2Proof.Machine
end

