-- ==== Sys2Proof/Laws/Link.lean ====
section
/-! SUPPORT. The frames of a trace as the link shows them: a new register frame after any trace, and reads that return writes
(20_memory.md R51). -/

namespace Sys2Proof.Machine

/-- Whatever came before, the assertion of `CS` opens a new frame. -/
theorem linkFrames_append_csOn (pre rest : List Event) (gate : Bool) (cur : Option LinkFrame) :
    ∃ before g, linkFrames gate cur (pre ++ .csOn :: rest) = before ++ linkFrames false (some ⟨true, g, []⟩) rest := by
  induction pre generalizing gate cur with
  | nil => exact ⟨[], gate, rfl⟩
  | cons e pre ih =>
    cases e with
    | csOff | dsOff =>
      obtain ⟨before, g, h⟩ := ih false none
      exact ⟨cur.toList ++ before, g, by simp [linkFrames, h]⟩
    | csOn => exact ih false (some ⟨true, gate, []⟩)
    | dsOn => exact ih false (some ⟨false, gate, []⟩)
    | xchg out inp => exact ih false (cur.map fun f => { f with bytes := f.bytes ++ [(out, inp)] })
    | poll ready => exact ih ready cur
    | rstOn => exact ih false cur
    | rstOff => exact ih false cur
    | delay t => exact ih false cur
    | speedUp => exact ih false cur

/-- A frame under `CS` of four exchanges, closed. -/
theorem linkFrames_cs (o1 i1 o2 i2 o3 i3 o4 i4 : Byte) (gate : Bool) (rest : List Event) :
    linkFrames false (some ⟨true, gate, []⟩)
        (.xchg o1 i1 :: .xchg o2 i2 :: .xchg o3 i3 :: .xchg o4 i4 :: .csOff :: rest) =
      ⟨true, gate, [(o1, i1), (o2, i2), (o3, i3), (o4, i4)]⟩ :: linkFrames false none rest := rfl

/-- What the later frames are held to, once earlier ones have been read. -/
theorem readsReturnWrites_append (before after : List LinkFrame) (held : RegAddr → Option Half)
    (h : readsReturnWrites held (before ++ after) = true) : ∃ held', readsReturnWrites held' after = true := by
  induction before generalizing held with
  | nil => exact ⟨held, h⟩
  | cons f before ih =>
    rw [List.cons_append, readsReturnWrites] at h
    split at h
    · exact ih _ h
    · exact ih _ (Bool.and_eq_true_iff.mp h).2
    · exact ih _ h

/-- The address in an address byte. -/
theorem address_of_byte (a : RegAddr) : (0#4 ++ a).extractLsb' 0 4 = a := by
  revert a
  decide

/-- A value from its two bytes. -/
theorem value_of_bytes (v : Half) : v.extractLsb' 8 8 ++ v.extractLsb' 0 8 = v := by
  apply BitVec.eq_of_getLsbD_eq
  intro i hi
  simp only [BitVec.getLsbD_append, BitVec.getLsbD_extractLsb']
  by_cases h : i < 8
  · simp [h]
  · have h8 : i - 8 < 8 := by omega
    simp [h, h8, show 8 + (i - 8) = i by omega]

/-- A write frame's access. -/
theorem access_write (a : RegAddr) (v : Half) (gate : Bool) (i1 i2 i3 i4 : Byte) :
    (LinkFrame.mk true gate [(0x02, i1), (0#4 ++ a, i2), (v.extractLsb' 8 8, i3), (v.extractLsb' 0 8, i4)]).access =
      some (true, a, v) := by
  simp [LinkFrame.access, address_of_byte, value_of_bytes]

/-- A read frame's access. -/
theorem access_read (a : RegAddr) (gate : Bool) (o3 o4 i1 i2 i3 i4 : Byte) :
    (LinkFrame.mk true gate [(0x03, i1), (0#4 ++ a, i2), (o3, i3), (o4, i4)]).access = some (false, a, i3 ++ i4) := by
  simp [LinkFrame.access, address_of_byte]

end Sys2Proof.Machine
end

