-- ==== Sys2Proof/Laws/Memory.lean ====
section
/-! SUPPORT. The host buffer: read after write, writes elsewhere, and that every memory operation keeps the canonical form. -/

namespace Sys2Proof.Machine

/-- A byte written is read back. -/
@[simp] theorem Memory.read_write_same (m : Memory) (a : Nat) (x : Byte) :
    Memory.read (Memory.write m a x) a = some x := by
  induction m with
  | nil => simp [Memory.write, Memory.read]
  | cons c m ih =>
    obtain ⟨d, y⟩ := c
    simp only [Memory.write]
    split
    · simp [Memory.read]
    · split
      · simp [Memory.read]
      · rename_i hne
        simp [Memory.read, hne, ih]

/-- A write leaves every other address alone. -/
theorem Memory.read_write_other (m : Memory) (a c : Nat) (x : Byte) (h : c ≠ a) :
    Memory.read (Memory.write m a x) c = Memory.read m c := by
  induction m with
  | nil => simp [Memory.write, Memory.read, h]
  | cons d m ih =>
    obtain ⟨d, y⟩ := d
    simp only [Memory.write]
    split
    · simp [Memory.read, h]
    · split
      · rename_i hd
        subst hd
        simp [Memory.read, h]
      · simp [Memory.read, ih]

/-- A write at or above the bound keeps the list rising. -/
theorem Memory.risingFrom_write (w : Nat) (m : Memory) (lo a : Nat) (x : Byte) (hlo : lo ≤ a) (ha : a < 2 ^ w)
    (h : Memory.risingFrom w lo m = true) : Memory.risingFrom w lo (Memory.write m a x) = true := by
  induction m generalizing lo with
  | nil => simp [Memory.write, Memory.risingFrom, hlo, ha]
  | cons d m ih =>
    obtain ⟨d, y⟩ := d
    simp only [Memory.risingFrom, Bool.and_eq_true, decide_eq_true_eq] at h
    obtain ⟨⟨hd, hd32⟩, hrest⟩ := h
    simp only [Memory.write]
    split
    · rename_i hlt
      simp only [Memory.risingFrom, Bool.and_eq_true, decide_eq_true_eq]
      exact ⟨⟨hlo, ha⟩, ⟨hlt, hd32⟩, hrest⟩
    · split
      · rename_i heq
        subst heq
        simp only [Memory.risingFrom, Bool.and_eq_true, decide_eq_true_eq]
        exact ⟨⟨hlo, ha⟩, hrest⟩
      · rename_i hnlt hne
        simp only [Memory.risingFrom, Bool.and_eq_true, decide_eq_true_eq]
        exact ⟨⟨hd, hd32⟩, ih (d + 1) (by omega) hrest⟩

/-- A write inside the address space keeps the canonical form. -/
theorem Memory.write_wf (w : Nat) (m : Memory) (a : Nat) (x : Byte) (ha : a < 2 ^ w) (h : Memory.wf w m = true) :
    Memory.wf w (Memory.write m a x) = true :=
  Memory.risingFrom_write w m 0 a x (Nat.zero_le a) ha h

/-- Placing bytes inside the address space keeps the canonical form. -/
theorem Memory.writeBytes_wf (w : Nat) (xs : List Byte) (m : Memory) (a : Nat) (ha : a + xs.length ≤ 2 ^ w)
    (h : Memory.wf w m = true) : Memory.wf w (Memory.writeBytes m a xs) = true := by
  induction xs generalizing m a with
  | nil => exact h
  | cons x xs ih =>
    simp only [List.length_cons] at ha
    exact ih (Memory.write m a x) (a + 1) (by omega) (Memory.write_wf w m a x (by omega) h)

/-- The host buffer at reset is canonical. -/
theorem reset_hostbuf_wf : Memory.wf State.reset.cfg.hostAddrW State.reset.hostbuf = true := rfl

/-- `definedAt` says that each byte of the range is defined. -/
theorem Memory.definedAt_iff (m : Memory) (a len : Nat) :
    Memory.definedAt m a len = true ↔ ∀ j, j < len → (Memory.read m (a + j)).isSome = true := by
  induction len generalizing a with
  | zero => simp [Memory.definedAt]
  | succ k ih =>
    simp only [Memory.definedAt, Bool.and_eq_true, ih]
    constructor
    · rintro ⟨h0, hk⟩ j hj
      cases j with
      | zero => simpa using h0
      | succ j =>
        have := hk j (by omega)
        rwa [Nat.add_right_comm, Nat.add_assoc] at this
    · intro h
      refine ⟨by simpa using h 0 (by omega), fun j hj => ?_⟩
      have := h (j + 1) (by omega)
      rwa [Nat.add_right_comm, Nat.add_assoc]

end Sys2Proof.Machine
end

