-- ==== Sys2Proof/Laws/State.lean ====
section
/-! SUPPORT. One lemma per field and update of the state: what each shared operation does to each field. -/

namespace Sys2Proof.Machine

/-! ## `emit` -/

@[simp] theorem emit_cs (e : Event) (s : State) : (emit e s).cs = s.cs := rfl
@[simp] theorem emit_ds (e : Event) (s : State) : (emit e s).ds = s.ds := rfl
@[simp] theorem emit_rst (e : Event) (s : State) : (emit e s).rst = s.rst := rfl
@[simp] theorem emit_speed (e : Event) (s : State) : (emit e s).speed = s.speed := rfl
@[simp] theorem emit_cmd (e : Event) (s : State) : (emit e s).cmd = s.cmd := rfl
@[simp] theorem emit_bufBase (e : Event) (s : State) : (emit e s).bufBase = s.bufBase := rfl
@[simp] theorem emit_bufLen (e : Event) (s : State) : (emit e s).bufLen = s.bufLen := rfl
@[simp] theorem emit_busy (e : Event) (s : State) : (emit e s).busy = s.busy := rfl
@[simp] theorem emit_err (e : Event) (s : State) : (emit e s).err = s.err := rfl
@[simp] theorem emit_result (e : Event) (s : State) : (emit e s).result = s.result := rfl
@[simp] theorem emit_pc (e : Event) (s : State) : (emit e s).pc = s.pc := rfl
@[simp] theorem emit_addr (e : Event) (s : State) : (emit e s).addr = s.addr := rfl
@[simp] theorem emit_data (e : Event) (s : State) : (emit e s).data = s.data := rfl
@[simp] theorem emit_fill (e : Event) (s : State) : (emit e s).fill = s.fill := rfl
@[simp] theorem emit_base (e : Event) (s : State) : (emit e s).base = s.base := rfl
@[simp] theorem emit_rem (e : Event) (s : State) : (emit e s).rem = s.rem := rfl
@[simp] theorem emit_off (e : Event) (s : State) : (emit e s).off = s.off := rfl
@[simp] theorem emit_n (e : Event) (s : State) : (emit e s).n = s.n := rfl
@[simp] theorem emit_i (e : Event) (s : State) : (emit e s).i = s.i := rfl
@[simp] theorem emit_bud (e : Event) (s : State) : (emit e s).bud = s.bud := rfl
@[simp] theorem emit_npoll (e : Event) (s : State) : (emit e s).npoll = s.npoll := rfl
@[simp] theorem emit_tmp (e : Event) (s : State) : (emit e s).tmp = s.tmp := rfl
@[simp] theorem emit_b (e : Event) (s : State) : (emit e s).b = s.b := rfl
@[simp] theorem emit_reply (e : Event) (s : State) : (emit e s).reply = s.reply := rfl
@[simp] theorem emit_hi (e : Event) (s : State) : (emit e s).hi = s.hi := rfl
@[simp] theorem emit_lo (e : Event) (s : State) : (emit e s).lo = s.lo := rfl
@[simp] theorem emit_size (e : Event) (s : State) : (emit e s).size = s.size := rfl
@[simp] theorem emit_r (e : Event) (s : State) : (emit e s).r = s.r := rfl
@[simp] theorem emit_v (e : Event) (s : State) : (emit e s).v = s.v := rfl
@[simp] theorem emit_events (e : Event) (s : State) : (emit e s).events = e :: s.events := rfl
@[simp] theorem emit_responses (e : Event) (s : State) : (emit e s).responses = s.responses := rfl
@[simp] theorem emit_flowScript (e : Event) (s : State) : (emit e s).flowScript = s.flowScript := rfl
@[simp] theorem emit_pollCount (e : Event) (s : State) : (emit e s).pollCount = s.pollCount := rfl
@[simp] theorem emit_replyScript (e : Event) (s : State) : (emit e s).replyScript = s.replyScript := rfl
@[simp] theorem emit_xchgCount (e : Event) (s : State) : (emit e s).xchgCount = s.xchgCount := rfl
@[simp] theorem emit_port (e : Event) (s : State) : (emit e s).port = s.port := rfl
@[simp] theorem emit_hostbuf (e : Event) (s : State) : (emit e s).hostbuf = s.hostbuf := rfl
@[simp] theorem emit_resetIn (e : Event) (s : State) : (emit e s).resetIn = s.resetIn := rfl
@[simp] theorem emit_cfg (e : Event) (s : State) : (emit e s).cfg = s.cfg := rfl

/-! ## `assertCs` -/

@[simp] theorem assertCs_cs (s : State) : (assertCs s).cs = true := rfl
@[simp] theorem assertCs_ds (s : State) : (assertCs s).ds = s.ds := rfl
@[simp] theorem assertCs_rst (s : State) : (assertCs s).rst = s.rst := rfl
@[simp] theorem assertCs_speed (s : State) : (assertCs s).speed = s.speed := rfl
@[simp] theorem assertCs_cmd (s : State) : (assertCs s).cmd = s.cmd := rfl
@[simp] theorem assertCs_bufBase (s : State) : (assertCs s).bufBase = s.bufBase := rfl
@[simp] theorem assertCs_bufLen (s : State) : (assertCs s).bufLen = s.bufLen := rfl
@[simp] theorem assertCs_busy (s : State) : (assertCs s).busy = s.busy := rfl
@[simp] theorem assertCs_err (s : State) : (assertCs s).err = s.err := rfl
@[simp] theorem assertCs_result (s : State) : (assertCs s).result = s.result := rfl
@[simp] theorem assertCs_pc (s : State) : (assertCs s).pc = s.pc := rfl
@[simp] theorem assertCs_addr (s : State) : (assertCs s).addr = s.addr := rfl
@[simp] theorem assertCs_data (s : State) : (assertCs s).data = s.data := rfl
@[simp] theorem assertCs_fill (s : State) : (assertCs s).fill = s.fill := rfl
@[simp] theorem assertCs_base (s : State) : (assertCs s).base = s.base := rfl
@[simp] theorem assertCs_rem (s : State) : (assertCs s).rem = s.rem := rfl
@[simp] theorem assertCs_off (s : State) : (assertCs s).off = s.off := rfl
@[simp] theorem assertCs_n (s : State) : (assertCs s).n = s.n := rfl
@[simp] theorem assertCs_i (s : State) : (assertCs s).i = s.i := rfl
@[simp] theorem assertCs_bud (s : State) : (assertCs s).bud = s.bud := rfl
@[simp] theorem assertCs_npoll (s : State) : (assertCs s).npoll = s.npoll := rfl
@[simp] theorem assertCs_tmp (s : State) : (assertCs s).tmp = s.tmp := rfl
@[simp] theorem assertCs_b (s : State) : (assertCs s).b = s.b := rfl
@[simp] theorem assertCs_reply (s : State) : (assertCs s).reply = s.reply := rfl
@[simp] theorem assertCs_hi (s : State) : (assertCs s).hi = s.hi := rfl
@[simp] theorem assertCs_lo (s : State) : (assertCs s).lo = s.lo := rfl
@[simp] theorem assertCs_size (s : State) : (assertCs s).size = s.size := rfl
@[simp] theorem assertCs_r (s : State) : (assertCs s).r = s.r := rfl
@[simp] theorem assertCs_v (s : State) : (assertCs s).v = s.v := rfl
@[simp] theorem assertCs_events (s : State) : (assertCs s).events = .csOn :: s.events := rfl
@[simp] theorem assertCs_responses (s : State) : (assertCs s).responses = s.responses := rfl
@[simp] theorem assertCs_flowScript (s : State) : (assertCs s).flowScript = s.flowScript := rfl
@[simp] theorem assertCs_pollCount (s : State) : (assertCs s).pollCount = s.pollCount := rfl
@[simp] theorem assertCs_replyScript (s : State) : (assertCs s).replyScript = s.replyScript := rfl
@[simp] theorem assertCs_xchgCount (s : State) : (assertCs s).xchgCount = s.xchgCount := rfl
@[simp] theorem assertCs_port (s : State) : (assertCs s).port = s.port := rfl
@[simp] theorem assertCs_hostbuf (s : State) : (assertCs s).hostbuf = s.hostbuf := rfl
@[simp] theorem assertCs_resetIn (s : State) : (assertCs s).resetIn = s.resetIn := rfl
@[simp] theorem assertCs_cfg (s : State) : (assertCs s).cfg = s.cfg := rfl

/-! ## `deassertCs` -/

@[simp] theorem deassertCs_cs (s : State) : (deassertCs s).cs = false := rfl
@[simp] theorem deassertCs_ds (s : State) : (deassertCs s).ds = s.ds := rfl
@[simp] theorem deassertCs_rst (s : State) : (deassertCs s).rst = s.rst := rfl
@[simp] theorem deassertCs_speed (s : State) : (deassertCs s).speed = s.speed := rfl
@[simp] theorem deassertCs_cmd (s : State) : (deassertCs s).cmd = s.cmd := rfl
@[simp] theorem deassertCs_bufBase (s : State) : (deassertCs s).bufBase = s.bufBase := rfl
@[simp] theorem deassertCs_bufLen (s : State) : (deassertCs s).bufLen = s.bufLen := rfl
@[simp] theorem deassertCs_busy (s : State) : (deassertCs s).busy = s.busy := rfl
@[simp] theorem deassertCs_err (s : State) : (deassertCs s).err = s.err := rfl
@[simp] theorem deassertCs_result (s : State) : (deassertCs s).result = s.result := rfl
@[simp] theorem deassertCs_pc (s : State) : (deassertCs s).pc = s.pc := rfl
@[simp] theorem deassertCs_addr (s : State) : (deassertCs s).addr = s.addr := rfl
@[simp] theorem deassertCs_data (s : State) : (deassertCs s).data = s.data := rfl
@[simp] theorem deassertCs_fill (s : State) : (deassertCs s).fill = s.fill := rfl
@[simp] theorem deassertCs_base (s : State) : (deassertCs s).base = s.base := rfl
@[simp] theorem deassertCs_rem (s : State) : (deassertCs s).rem = s.rem := rfl
@[simp] theorem deassertCs_off (s : State) : (deassertCs s).off = s.off := rfl
@[simp] theorem deassertCs_n (s : State) : (deassertCs s).n = s.n := rfl
@[simp] theorem deassertCs_i (s : State) : (deassertCs s).i = s.i := rfl
@[simp] theorem deassertCs_bud (s : State) : (deassertCs s).bud = s.bud := rfl
@[simp] theorem deassertCs_npoll (s : State) : (deassertCs s).npoll = s.npoll := rfl
@[simp] theorem deassertCs_tmp (s : State) : (deassertCs s).tmp = s.tmp := rfl
@[simp] theorem deassertCs_b (s : State) : (deassertCs s).b = s.b := rfl
@[simp] theorem deassertCs_reply (s : State) : (deassertCs s).reply = s.reply := rfl
@[simp] theorem deassertCs_hi (s : State) : (deassertCs s).hi = s.hi := rfl
@[simp] theorem deassertCs_lo (s : State) : (deassertCs s).lo = s.lo := rfl
@[simp] theorem deassertCs_size (s : State) : (deassertCs s).size = s.size := rfl
@[simp] theorem deassertCs_r (s : State) : (deassertCs s).r = s.r := rfl
@[simp] theorem deassertCs_v (s : State) : (deassertCs s).v = s.v := rfl
@[simp] theorem deassertCs_events (s : State) : (deassertCs s).events = .csOff :: s.events := rfl
@[simp] theorem deassertCs_responses (s : State) : (deassertCs s).responses = s.responses := rfl
@[simp] theorem deassertCs_flowScript (s : State) : (deassertCs s).flowScript = s.flowScript := rfl
@[simp] theorem deassertCs_pollCount (s : State) : (deassertCs s).pollCount = s.pollCount := rfl
@[simp] theorem deassertCs_replyScript (s : State) : (deassertCs s).replyScript = s.replyScript := rfl
@[simp] theorem deassertCs_xchgCount (s : State) : (deassertCs s).xchgCount = s.xchgCount := rfl
@[simp] theorem deassertCs_port (s : State) : (deassertCs s).port = s.port := rfl
@[simp] theorem deassertCs_hostbuf (s : State) : (deassertCs s).hostbuf = s.hostbuf := rfl
@[simp] theorem deassertCs_resetIn (s : State) : (deassertCs s).resetIn = s.resetIn := rfl
@[simp] theorem deassertCs_cfg (s : State) : (deassertCs s).cfg = s.cfg := rfl

/-! ## `assertDs` -/

@[simp] theorem assertDs_cs (s : State) : (assertDs s).cs = s.cs := rfl
@[simp] theorem assertDs_ds (s : State) : (assertDs s).ds = true := rfl
@[simp] theorem assertDs_rst (s : State) : (assertDs s).rst = s.rst := rfl
@[simp] theorem assertDs_speed (s : State) : (assertDs s).speed = s.speed := rfl
@[simp] theorem assertDs_cmd (s : State) : (assertDs s).cmd = s.cmd := rfl
@[simp] theorem assertDs_bufBase (s : State) : (assertDs s).bufBase = s.bufBase := rfl
@[simp] theorem assertDs_bufLen (s : State) : (assertDs s).bufLen = s.bufLen := rfl
@[simp] theorem assertDs_busy (s : State) : (assertDs s).busy = s.busy := rfl
@[simp] theorem assertDs_err (s : State) : (assertDs s).err = s.err := rfl
@[simp] theorem assertDs_result (s : State) : (assertDs s).result = s.result := rfl
@[simp] theorem assertDs_pc (s : State) : (assertDs s).pc = s.pc := rfl
@[simp] theorem assertDs_addr (s : State) : (assertDs s).addr = s.addr := rfl
@[simp] theorem assertDs_data (s : State) : (assertDs s).data = s.data := rfl
@[simp] theorem assertDs_fill (s : State) : (assertDs s).fill = s.fill := rfl
@[simp] theorem assertDs_base (s : State) : (assertDs s).base = s.base := rfl
@[simp] theorem assertDs_rem (s : State) : (assertDs s).rem = s.rem := rfl
@[simp] theorem assertDs_off (s : State) : (assertDs s).off = s.off := rfl
@[simp] theorem assertDs_n (s : State) : (assertDs s).n = s.n := rfl
@[simp] theorem assertDs_i (s : State) : (assertDs s).i = s.i := rfl
@[simp] theorem assertDs_bud (s : State) : (assertDs s).bud = s.bud := rfl
@[simp] theorem assertDs_npoll (s : State) : (assertDs s).npoll = s.npoll := rfl
@[simp] theorem assertDs_tmp (s : State) : (assertDs s).tmp = s.tmp := rfl
@[simp] theorem assertDs_b (s : State) : (assertDs s).b = s.b := rfl
@[simp] theorem assertDs_reply (s : State) : (assertDs s).reply = s.reply := rfl
@[simp] theorem assertDs_hi (s : State) : (assertDs s).hi = s.hi := rfl
@[simp] theorem assertDs_lo (s : State) : (assertDs s).lo = s.lo := rfl
@[simp] theorem assertDs_size (s : State) : (assertDs s).size = s.size := rfl
@[simp] theorem assertDs_r (s : State) : (assertDs s).r = s.r := rfl
@[simp] theorem assertDs_v (s : State) : (assertDs s).v = s.v := rfl
@[simp] theorem assertDs_events (s : State) : (assertDs s).events = .dsOn :: s.events := rfl
@[simp] theorem assertDs_responses (s : State) : (assertDs s).responses = s.responses := rfl
@[simp] theorem assertDs_flowScript (s : State) : (assertDs s).flowScript = s.flowScript := rfl
@[simp] theorem assertDs_pollCount (s : State) : (assertDs s).pollCount = s.pollCount := rfl
@[simp] theorem assertDs_replyScript (s : State) : (assertDs s).replyScript = s.replyScript := rfl
@[simp] theorem assertDs_xchgCount (s : State) : (assertDs s).xchgCount = s.xchgCount := rfl
@[simp] theorem assertDs_port (s : State) : (assertDs s).port = s.port := rfl
@[simp] theorem assertDs_hostbuf (s : State) : (assertDs s).hostbuf = s.hostbuf := rfl
@[simp] theorem assertDs_resetIn (s : State) : (assertDs s).resetIn = s.resetIn := rfl
@[simp] theorem assertDs_cfg (s : State) : (assertDs s).cfg = s.cfg := rfl

/-! ## `deassertDs` -/

@[simp] theorem deassertDs_cs (s : State) : (deassertDs s).cs = s.cs := rfl
@[simp] theorem deassertDs_ds (s : State) : (deassertDs s).ds = false := rfl
@[simp] theorem deassertDs_rst (s : State) : (deassertDs s).rst = s.rst := rfl
@[simp] theorem deassertDs_speed (s : State) : (deassertDs s).speed = s.speed := rfl
@[simp] theorem deassertDs_cmd (s : State) : (deassertDs s).cmd = s.cmd := rfl
@[simp] theorem deassertDs_bufBase (s : State) : (deassertDs s).bufBase = s.bufBase := rfl
@[simp] theorem deassertDs_bufLen (s : State) : (deassertDs s).bufLen = s.bufLen := rfl
@[simp] theorem deassertDs_busy (s : State) : (deassertDs s).busy = s.busy := rfl
@[simp] theorem deassertDs_err (s : State) : (deassertDs s).err = s.err := rfl
@[simp] theorem deassertDs_result (s : State) : (deassertDs s).result = s.result := rfl
@[simp] theorem deassertDs_pc (s : State) : (deassertDs s).pc = s.pc := rfl
@[simp] theorem deassertDs_addr (s : State) : (deassertDs s).addr = s.addr := rfl
@[simp] theorem deassertDs_data (s : State) : (deassertDs s).data = s.data := rfl
@[simp] theorem deassertDs_fill (s : State) : (deassertDs s).fill = s.fill := rfl
@[simp] theorem deassertDs_base (s : State) : (deassertDs s).base = s.base := rfl
@[simp] theorem deassertDs_rem (s : State) : (deassertDs s).rem = s.rem := rfl
@[simp] theorem deassertDs_off (s : State) : (deassertDs s).off = s.off := rfl
@[simp] theorem deassertDs_n (s : State) : (deassertDs s).n = s.n := rfl
@[simp] theorem deassertDs_i (s : State) : (deassertDs s).i = s.i := rfl
@[simp] theorem deassertDs_bud (s : State) : (deassertDs s).bud = s.bud := rfl
@[simp] theorem deassertDs_npoll (s : State) : (deassertDs s).npoll = s.npoll := rfl
@[simp] theorem deassertDs_tmp (s : State) : (deassertDs s).tmp = s.tmp := rfl
@[simp] theorem deassertDs_b (s : State) : (deassertDs s).b = s.b := rfl
@[simp] theorem deassertDs_reply (s : State) : (deassertDs s).reply = s.reply := rfl
@[simp] theorem deassertDs_hi (s : State) : (deassertDs s).hi = s.hi := rfl
@[simp] theorem deassertDs_lo (s : State) : (deassertDs s).lo = s.lo := rfl
@[simp] theorem deassertDs_size (s : State) : (deassertDs s).size = s.size := rfl
@[simp] theorem deassertDs_r (s : State) : (deassertDs s).r = s.r := rfl
@[simp] theorem deassertDs_v (s : State) : (deassertDs s).v = s.v := rfl
@[simp] theorem deassertDs_events (s : State) : (deassertDs s).events = .dsOff :: s.events := rfl
@[simp] theorem deassertDs_responses (s : State) : (deassertDs s).responses = s.responses := rfl
@[simp] theorem deassertDs_flowScript (s : State) : (deassertDs s).flowScript = s.flowScript := rfl
@[simp] theorem deassertDs_pollCount (s : State) : (deassertDs s).pollCount = s.pollCount := rfl
@[simp] theorem deassertDs_replyScript (s : State) : (deassertDs s).replyScript = s.replyScript := rfl
@[simp] theorem deassertDs_xchgCount (s : State) : (deassertDs s).xchgCount = s.xchgCount := rfl
@[simp] theorem deassertDs_port (s : State) : (deassertDs s).port = s.port := rfl
@[simp] theorem deassertDs_hostbuf (s : State) : (deassertDs s).hostbuf = s.hostbuf := rfl
@[simp] theorem deassertDs_resetIn (s : State) : (deassertDs s).resetIn = s.resetIn := rfl
@[simp] theorem deassertDs_cfg (s : State) : (deassertDs s).cfg = s.cfg := rfl

/-! ## `assertRst` -/

@[simp] theorem assertRst_cs (s : State) : (assertRst s).cs = s.cs := rfl
@[simp] theorem assertRst_ds (s : State) : (assertRst s).ds = s.ds := rfl
@[simp] theorem assertRst_rst (s : State) : (assertRst s).rst = true := rfl
@[simp] theorem assertRst_speed (s : State) : (assertRst s).speed = s.speed := rfl
@[simp] theorem assertRst_cmd (s : State) : (assertRst s).cmd = s.cmd := rfl
@[simp] theorem assertRst_bufBase (s : State) : (assertRst s).bufBase = s.bufBase := rfl
@[simp] theorem assertRst_bufLen (s : State) : (assertRst s).bufLen = s.bufLen := rfl
@[simp] theorem assertRst_busy (s : State) : (assertRst s).busy = s.busy := rfl
@[simp] theorem assertRst_err (s : State) : (assertRst s).err = s.err := rfl
@[simp] theorem assertRst_result (s : State) : (assertRst s).result = s.result := rfl
@[simp] theorem assertRst_pc (s : State) : (assertRst s).pc = s.pc := rfl
@[simp] theorem assertRst_addr (s : State) : (assertRst s).addr = s.addr := rfl
@[simp] theorem assertRst_data (s : State) : (assertRst s).data = s.data := rfl
@[simp] theorem assertRst_fill (s : State) : (assertRst s).fill = s.fill := rfl
@[simp] theorem assertRst_base (s : State) : (assertRst s).base = s.base := rfl
@[simp] theorem assertRst_rem (s : State) : (assertRst s).rem = s.rem := rfl
@[simp] theorem assertRst_off (s : State) : (assertRst s).off = s.off := rfl
@[simp] theorem assertRst_n (s : State) : (assertRst s).n = s.n := rfl
@[simp] theorem assertRst_i (s : State) : (assertRst s).i = s.i := rfl
@[simp] theorem assertRst_bud (s : State) : (assertRst s).bud = s.bud := rfl
@[simp] theorem assertRst_npoll (s : State) : (assertRst s).npoll = s.npoll := rfl
@[simp] theorem assertRst_tmp (s : State) : (assertRst s).tmp = s.tmp := rfl
@[simp] theorem assertRst_b (s : State) : (assertRst s).b = s.b := rfl
@[simp] theorem assertRst_reply (s : State) : (assertRst s).reply = s.reply := rfl
@[simp] theorem assertRst_hi (s : State) : (assertRst s).hi = s.hi := rfl
@[simp] theorem assertRst_lo (s : State) : (assertRst s).lo = s.lo := rfl
@[simp] theorem assertRst_size (s : State) : (assertRst s).size = s.size := rfl
@[simp] theorem assertRst_r (s : State) : (assertRst s).r = s.r := rfl
@[simp] theorem assertRst_v (s : State) : (assertRst s).v = s.v := rfl
@[simp] theorem assertRst_events (s : State) : (assertRst s).events = .rstOn :: s.events := rfl
@[simp] theorem assertRst_responses (s : State) : (assertRst s).responses = s.responses := rfl
@[simp] theorem assertRst_flowScript (s : State) : (assertRst s).flowScript = s.flowScript := rfl
@[simp] theorem assertRst_pollCount (s : State) : (assertRst s).pollCount = s.pollCount := rfl
@[simp] theorem assertRst_replyScript (s : State) : (assertRst s).replyScript = s.replyScript := rfl
@[simp] theorem assertRst_xchgCount (s : State) : (assertRst s).xchgCount = s.xchgCount := rfl
@[simp] theorem assertRst_port (s : State) : (assertRst s).port = s.port := rfl
@[simp] theorem assertRst_hostbuf (s : State) : (assertRst s).hostbuf = s.hostbuf := rfl
@[simp] theorem assertRst_resetIn (s : State) : (assertRst s).resetIn = s.resetIn := rfl
@[simp] theorem assertRst_cfg (s : State) : (assertRst s).cfg = s.cfg := rfl

/-! ## `deassertRst` -/

@[simp] theorem deassertRst_cs (s : State) : (deassertRst s).cs = s.cs := rfl
@[simp] theorem deassertRst_ds (s : State) : (deassertRst s).ds = s.ds := rfl
@[simp] theorem deassertRst_rst (s : State) : (deassertRst s).rst = false := rfl
@[simp] theorem deassertRst_speed (s : State) : (deassertRst s).speed = s.speed := rfl
@[simp] theorem deassertRst_cmd (s : State) : (deassertRst s).cmd = s.cmd := rfl
@[simp] theorem deassertRst_bufBase (s : State) : (deassertRst s).bufBase = s.bufBase := rfl
@[simp] theorem deassertRst_bufLen (s : State) : (deassertRst s).bufLen = s.bufLen := rfl
@[simp] theorem deassertRst_busy (s : State) : (deassertRst s).busy = s.busy := rfl
@[simp] theorem deassertRst_err (s : State) : (deassertRst s).err = s.err := rfl
@[simp] theorem deassertRst_result (s : State) : (deassertRst s).result = s.result := rfl
@[simp] theorem deassertRst_pc (s : State) : (deassertRst s).pc = s.pc := rfl
@[simp] theorem deassertRst_addr (s : State) : (deassertRst s).addr = s.addr := rfl
@[simp] theorem deassertRst_data (s : State) : (deassertRst s).data = s.data := rfl
@[simp] theorem deassertRst_fill (s : State) : (deassertRst s).fill = s.fill := rfl
@[simp] theorem deassertRst_base (s : State) : (deassertRst s).base = s.base := rfl
@[simp] theorem deassertRst_rem (s : State) : (deassertRst s).rem = s.rem := rfl
@[simp] theorem deassertRst_off (s : State) : (deassertRst s).off = s.off := rfl
@[simp] theorem deassertRst_n (s : State) : (deassertRst s).n = s.n := rfl
@[simp] theorem deassertRst_i (s : State) : (deassertRst s).i = s.i := rfl
@[simp] theorem deassertRst_bud (s : State) : (deassertRst s).bud = s.bud := rfl
@[simp] theorem deassertRst_npoll (s : State) : (deassertRst s).npoll = s.npoll := rfl
@[simp] theorem deassertRst_tmp (s : State) : (deassertRst s).tmp = s.tmp := rfl
@[simp] theorem deassertRst_b (s : State) : (deassertRst s).b = s.b := rfl
@[simp] theorem deassertRst_reply (s : State) : (deassertRst s).reply = s.reply := rfl
@[simp] theorem deassertRst_hi (s : State) : (deassertRst s).hi = s.hi := rfl
@[simp] theorem deassertRst_lo (s : State) : (deassertRst s).lo = s.lo := rfl
@[simp] theorem deassertRst_size (s : State) : (deassertRst s).size = s.size := rfl
@[simp] theorem deassertRst_r (s : State) : (deassertRst s).r = s.r := rfl
@[simp] theorem deassertRst_v (s : State) : (deassertRst s).v = s.v := rfl
@[simp] theorem deassertRst_events (s : State) : (deassertRst s).events = .rstOff :: s.events := rfl
@[simp] theorem deassertRst_responses (s : State) : (deassertRst s).responses = s.responses := rfl
@[simp] theorem deassertRst_flowScript (s : State) : (deassertRst s).flowScript = s.flowScript := rfl
@[simp] theorem deassertRst_pollCount (s : State) : (deassertRst s).pollCount = s.pollCount := rfl
@[simp] theorem deassertRst_replyScript (s : State) : (deassertRst s).replyScript = s.replyScript := rfl
@[simp] theorem deassertRst_xchgCount (s : State) : (deassertRst s).xchgCount = s.xchgCount := rfl
@[simp] theorem deassertRst_port (s : State) : (deassertRst s).port = s.port := rfl
@[simp] theorem deassertRst_hostbuf (s : State) : (deassertRst s).hostbuf = s.hostbuf := rfl
@[simp] theorem deassertRst_resetIn (s : State) : (deassertRst s).resetIn = s.resetIn := rfl
@[simp] theorem deassertRst_cfg (s : State) : (deassertRst s).cfg = s.cfg := rfl

/-! ## `speedHigh` -/

@[simp] theorem speedHigh_cs (s : State) : (speedHigh s).cs = s.cs := rfl
@[simp] theorem speedHigh_ds (s : State) : (speedHigh s).ds = s.ds := rfl
@[simp] theorem speedHigh_rst (s : State) : (speedHigh s).rst = s.rst := rfl
@[simp] theorem speedHigh_speed (s : State) : (speedHigh s).speed = true := rfl
@[simp] theorem speedHigh_cmd (s : State) : (speedHigh s).cmd = s.cmd := rfl
@[simp] theorem speedHigh_bufBase (s : State) : (speedHigh s).bufBase = s.bufBase := rfl
@[simp] theorem speedHigh_bufLen (s : State) : (speedHigh s).bufLen = s.bufLen := rfl
@[simp] theorem speedHigh_busy (s : State) : (speedHigh s).busy = s.busy := rfl
@[simp] theorem speedHigh_err (s : State) : (speedHigh s).err = s.err := rfl
@[simp] theorem speedHigh_result (s : State) : (speedHigh s).result = s.result := rfl
@[simp] theorem speedHigh_pc (s : State) : (speedHigh s).pc = s.pc := rfl
@[simp] theorem speedHigh_addr (s : State) : (speedHigh s).addr = s.addr := rfl
@[simp] theorem speedHigh_data (s : State) : (speedHigh s).data = s.data := rfl
@[simp] theorem speedHigh_fill (s : State) : (speedHigh s).fill = s.fill := rfl
@[simp] theorem speedHigh_base (s : State) : (speedHigh s).base = s.base := rfl
@[simp] theorem speedHigh_rem (s : State) : (speedHigh s).rem = s.rem := rfl
@[simp] theorem speedHigh_off (s : State) : (speedHigh s).off = s.off := rfl
@[simp] theorem speedHigh_n (s : State) : (speedHigh s).n = s.n := rfl
@[simp] theorem speedHigh_i (s : State) : (speedHigh s).i = s.i := rfl
@[simp] theorem speedHigh_bud (s : State) : (speedHigh s).bud = s.bud := rfl
@[simp] theorem speedHigh_npoll (s : State) : (speedHigh s).npoll = s.npoll := rfl
@[simp] theorem speedHigh_tmp (s : State) : (speedHigh s).tmp = s.tmp := rfl
@[simp] theorem speedHigh_b (s : State) : (speedHigh s).b = s.b := rfl
@[simp] theorem speedHigh_reply (s : State) : (speedHigh s).reply = s.reply := rfl
@[simp] theorem speedHigh_hi (s : State) : (speedHigh s).hi = s.hi := rfl
@[simp] theorem speedHigh_lo (s : State) : (speedHigh s).lo = s.lo := rfl
@[simp] theorem speedHigh_size (s : State) : (speedHigh s).size = s.size := rfl
@[simp] theorem speedHigh_r (s : State) : (speedHigh s).r = s.r := rfl
@[simp] theorem speedHigh_v (s : State) : (speedHigh s).v = s.v := rfl
@[simp] theorem speedHigh_events (s : State) : (speedHigh s).events = .speedUp :: s.events := rfl
@[simp] theorem speedHigh_responses (s : State) : (speedHigh s).responses = s.responses := rfl
@[simp] theorem speedHigh_flowScript (s : State) : (speedHigh s).flowScript = s.flowScript := rfl
@[simp] theorem speedHigh_pollCount (s : State) : (speedHigh s).pollCount = s.pollCount := rfl
@[simp] theorem speedHigh_replyScript (s : State) : (speedHigh s).replyScript = s.replyScript := rfl
@[simp] theorem speedHigh_xchgCount (s : State) : (speedHigh s).xchgCount = s.xchgCount := rfl
@[simp] theorem speedHigh_port (s : State) : (speedHigh s).port = s.port := rfl
@[simp] theorem speedHigh_hostbuf (s : State) : (speedHigh s).hostbuf = s.hostbuf := rfl
@[simp] theorem speedHigh_resetIn (s : State) : (speedHigh s).resetIn = s.resetIn := rfl
@[simp] theorem speedHigh_cfg (s : State) : (speedHigh s).cfg = s.cfg := rfl

/-! ## `delayFor` -/

@[simp] theorem delayFor_cs (t : Duration) (s : State) : (delayFor t s).cs = s.cs := rfl
@[simp] theorem delayFor_ds (t : Duration) (s : State) : (delayFor t s).ds = s.ds := rfl
@[simp] theorem delayFor_rst (t : Duration) (s : State) : (delayFor t s).rst = s.rst := rfl
@[simp] theorem delayFor_speed (t : Duration) (s : State) : (delayFor t s).speed = s.speed := rfl
@[simp] theorem delayFor_cmd (t : Duration) (s : State) : (delayFor t s).cmd = s.cmd := rfl
@[simp] theorem delayFor_bufBase (t : Duration) (s : State) : (delayFor t s).bufBase = s.bufBase := rfl
@[simp] theorem delayFor_bufLen (t : Duration) (s : State) : (delayFor t s).bufLen = s.bufLen := rfl
@[simp] theorem delayFor_busy (t : Duration) (s : State) : (delayFor t s).busy = s.busy := rfl
@[simp] theorem delayFor_err (t : Duration) (s : State) : (delayFor t s).err = s.err := rfl
@[simp] theorem delayFor_result (t : Duration) (s : State) : (delayFor t s).result = s.result := rfl
@[simp] theorem delayFor_pc (t : Duration) (s : State) : (delayFor t s).pc = s.pc := rfl
@[simp] theorem delayFor_addr (t : Duration) (s : State) : (delayFor t s).addr = s.addr := rfl
@[simp] theorem delayFor_data (t : Duration) (s : State) : (delayFor t s).data = s.data := rfl
@[simp] theorem delayFor_fill (t : Duration) (s : State) : (delayFor t s).fill = s.fill := rfl
@[simp] theorem delayFor_base (t : Duration) (s : State) : (delayFor t s).base = s.base := rfl
@[simp] theorem delayFor_rem (t : Duration) (s : State) : (delayFor t s).rem = s.rem := rfl
@[simp] theorem delayFor_off (t : Duration) (s : State) : (delayFor t s).off = s.off := rfl
@[simp] theorem delayFor_n (t : Duration) (s : State) : (delayFor t s).n = s.n := rfl
@[simp] theorem delayFor_i (t : Duration) (s : State) : (delayFor t s).i = s.i := rfl
@[simp] theorem delayFor_bud (t : Duration) (s : State) : (delayFor t s).bud = s.bud := rfl
@[simp] theorem delayFor_npoll (t : Duration) (s : State) : (delayFor t s).npoll = s.npoll := rfl
@[simp] theorem delayFor_tmp (t : Duration) (s : State) : (delayFor t s).tmp = s.tmp := rfl
@[simp] theorem delayFor_b (t : Duration) (s : State) : (delayFor t s).b = s.b := rfl
@[simp] theorem delayFor_reply (t : Duration) (s : State) : (delayFor t s).reply = s.reply := rfl
@[simp] theorem delayFor_hi (t : Duration) (s : State) : (delayFor t s).hi = s.hi := rfl
@[simp] theorem delayFor_lo (t : Duration) (s : State) : (delayFor t s).lo = s.lo := rfl
@[simp] theorem delayFor_size (t : Duration) (s : State) : (delayFor t s).size = s.size := rfl
@[simp] theorem delayFor_r (t : Duration) (s : State) : (delayFor t s).r = s.r := rfl
@[simp] theorem delayFor_v (t : Duration) (s : State) : (delayFor t s).v = s.v := rfl
@[simp] theorem delayFor_events (t : Duration) (s : State) : (delayFor t s).events = .delay t :: s.events := rfl
@[simp] theorem delayFor_responses (t : Duration) (s : State) : (delayFor t s).responses = s.responses := rfl
@[simp] theorem delayFor_flowScript (t : Duration) (s : State) : (delayFor t s).flowScript = s.flowScript := rfl
@[simp] theorem delayFor_pollCount (t : Duration) (s : State) : (delayFor t s).pollCount = s.pollCount := rfl
@[simp] theorem delayFor_replyScript (t : Duration) (s : State) : (delayFor t s).replyScript = s.replyScript := rfl
@[simp] theorem delayFor_xchgCount (t : Duration) (s : State) : (delayFor t s).xchgCount = s.xchgCount := rfl
@[simp] theorem delayFor_port (t : Duration) (s : State) : (delayFor t s).port = s.port := rfl
@[simp] theorem delayFor_hostbuf (t : Duration) (s : State) : (delayFor t s).hostbuf = s.hostbuf := rfl
@[simp] theorem delayFor_resetIn (t : Duration) (s : State) : (delayFor t s).resetIn = s.resetIn := rfl
@[simp] theorem delayFor_cfg (t : Duration) (s : State) : (delayFor t s).cfg = s.cfg := rfl

/-! ## `flowReady` -/

@[simp] theorem flowReady_cs (s : State) : (flowReady s).cs = s.cs := rfl
@[simp] theorem flowReady_ds (s : State) : (flowReady s).ds = s.ds := rfl
@[simp] theorem flowReady_rst (s : State) : (flowReady s).rst = s.rst := rfl
@[simp] theorem flowReady_speed (s : State) : (flowReady s).speed = s.speed := rfl
@[simp] theorem flowReady_cmd (s : State) : (flowReady s).cmd = s.cmd := rfl
@[simp] theorem flowReady_bufBase (s : State) : (flowReady s).bufBase = s.bufBase := rfl
@[simp] theorem flowReady_bufLen (s : State) : (flowReady s).bufLen = s.bufLen := rfl
@[simp] theorem flowReady_busy (s : State) : (flowReady s).busy = s.busy := rfl
@[simp] theorem flowReady_err (s : State) : (flowReady s).err = s.err := rfl
@[simp] theorem flowReady_result (s : State) : (flowReady s).result = s.result := rfl
@[simp] theorem flowReady_pc (s : State) : (flowReady s).pc = s.pc := rfl
@[simp] theorem flowReady_addr (s : State) : (flowReady s).addr = s.addr := rfl
@[simp] theorem flowReady_data (s : State) : (flowReady s).data = s.data := rfl
@[simp] theorem flowReady_fill (s : State) : (flowReady s).fill = s.fill := rfl
@[simp] theorem flowReady_base (s : State) : (flowReady s).base = s.base := rfl
@[simp] theorem flowReady_rem (s : State) : (flowReady s).rem = s.rem := rfl
@[simp] theorem flowReady_off (s : State) : (flowReady s).off = s.off := rfl
@[simp] theorem flowReady_n (s : State) : (flowReady s).n = s.n := rfl
@[simp] theorem flowReady_i (s : State) : (flowReady s).i = s.i := rfl
@[simp] theorem flowReady_bud (s : State) : (flowReady s).bud = s.bud := rfl
@[simp] theorem flowReady_npoll (s : State) : (flowReady s).npoll = s.npoll := rfl
@[simp] theorem flowReady_tmp (s : State) : (flowReady s).tmp = s.tmp := rfl
@[simp] theorem flowReady_b (s : State) : (flowReady s).b = s.flowAt 0 := rfl
@[simp] theorem flowReady_reply (s : State) : (flowReady s).reply = s.reply := rfl
@[simp] theorem flowReady_hi (s : State) : (flowReady s).hi = s.hi := rfl
@[simp] theorem flowReady_lo (s : State) : (flowReady s).lo = s.lo := rfl
@[simp] theorem flowReady_size (s : State) : (flowReady s).size = s.size := rfl
@[simp] theorem flowReady_r (s : State) : (flowReady s).r = s.r := rfl
@[simp] theorem flowReady_v (s : State) : (flowReady s).v = s.v := rfl
@[simp] theorem flowReady_events (s : State) : (flowReady s).events = .poll (s.flowAt 0) :: s.events := rfl
@[simp] theorem flowReady_responses (s : State) : (flowReady s).responses = s.responses := rfl
@[simp] theorem flowReady_flowScript (s : State) : (flowReady s).flowScript = s.flowScript.tail := rfl
@[simp] theorem flowReady_pollCount (s : State) : (flowReady s).pollCount = s.pollCount + 1 := rfl
@[simp] theorem flowReady_replyScript (s : State) : (flowReady s).replyScript = s.replyScript := rfl
@[simp] theorem flowReady_xchgCount (s : State) : (flowReady s).xchgCount = s.xchgCount := rfl
@[simp] theorem flowReady_port (s : State) : (flowReady s).port = s.port := rfl
@[simp] theorem flowReady_hostbuf (s : State) : (flowReady s).hostbuf = s.hostbuf := rfl
@[simp] theorem flowReady_resetIn (s : State) : (flowReady s).resetIn = s.resetIn := rfl
@[simp] theorem flowReady_cfg (s : State) : (flowReady s).cfg = s.cfg := rfl

/-! ## `exchange` -/

@[simp] theorem exchange_cs (x : Byte) (s : State) : (exchange x s).cs = s.cs := rfl
@[simp] theorem exchange_ds (x : Byte) (s : State) : (exchange x s).ds = s.ds := rfl
@[simp] theorem exchange_rst (x : Byte) (s : State) : (exchange x s).rst = s.rst := rfl
@[simp] theorem exchange_speed (x : Byte) (s : State) : (exchange x s).speed = s.speed := rfl
@[simp] theorem exchange_cmd (x : Byte) (s : State) : (exchange x s).cmd = s.cmd := rfl
@[simp] theorem exchange_bufBase (x : Byte) (s : State) : (exchange x s).bufBase = s.bufBase := rfl
@[simp] theorem exchange_bufLen (x : Byte) (s : State) : (exchange x s).bufLen = s.bufLen := rfl
@[simp] theorem exchange_busy (x : Byte) (s : State) : (exchange x s).busy = s.busy := rfl
@[simp] theorem exchange_err (x : Byte) (s : State) : (exchange x s).err = s.err := rfl
@[simp] theorem exchange_result (x : Byte) (s : State) : (exchange x s).result = s.result := rfl
@[simp] theorem exchange_pc (x : Byte) (s : State) : (exchange x s).pc = s.pc := rfl
@[simp] theorem exchange_addr (x : Byte) (s : State) : (exchange x s).addr = s.addr := rfl
@[simp] theorem exchange_data (x : Byte) (s : State) : (exchange x s).data = s.data := rfl
@[simp] theorem exchange_fill (x : Byte) (s : State) : (exchange x s).fill = s.fill := rfl
@[simp] theorem exchange_base (x : Byte) (s : State) : (exchange x s).base = s.base := rfl
@[simp] theorem exchange_rem (x : Byte) (s : State) : (exchange x s).rem = s.rem := rfl
@[simp] theorem exchange_off (x : Byte) (s : State) : (exchange x s).off = s.off := rfl
@[simp] theorem exchange_n (x : Byte) (s : State) : (exchange x s).n = s.n := rfl
@[simp] theorem exchange_i (x : Byte) (s : State) : (exchange x s).i = s.i := rfl
@[simp] theorem exchange_bud (x : Byte) (s : State) : (exchange x s).bud = s.bud := rfl
@[simp] theorem exchange_npoll (x : Byte) (s : State) : (exchange x s).npoll = s.npoll := rfl
@[simp] theorem exchange_tmp (x : Byte) (s : State) : (exchange x s).tmp = s.tmp := rfl
@[simp] theorem exchange_b (x : Byte) (s : State) : (exchange x s).b = s.b := rfl
@[simp] theorem exchange_reply (x : Byte) (s : State) : (exchange x s).reply = s.replyAt 0 := rfl
@[simp] theorem exchange_hi (x : Byte) (s : State) : (exchange x s).hi = s.hi := rfl
@[simp] theorem exchange_lo (x : Byte) (s : State) : (exchange x s).lo = s.lo := rfl
@[simp] theorem exchange_size (x : Byte) (s : State) : (exchange x s).size = s.size := rfl
@[simp] theorem exchange_r (x : Byte) (s : State) : (exchange x s).r = s.r := rfl
@[simp] theorem exchange_v (x : Byte) (s : State) : (exchange x s).v = s.v := rfl
@[simp] theorem exchange_events (x : Byte) (s : State) : (exchange x s).events = .xchg x (s.replyAt 0) :: s.events := rfl
@[simp] theorem exchange_responses (x : Byte) (s : State) : (exchange x s).responses = s.responses := rfl
@[simp] theorem exchange_flowScript (x : Byte) (s : State) : (exchange x s).flowScript = s.flowScript := rfl
@[simp] theorem exchange_pollCount (x : Byte) (s : State) : (exchange x s).pollCount = s.pollCount := rfl
@[simp] theorem exchange_replyScript (x : Byte) (s : State) : (exchange x s).replyScript = s.replyScript.tail := rfl
@[simp] theorem exchange_xchgCount (x : Byte) (s : State) : (exchange x s).xchgCount = s.xchgCount + 1 := rfl
@[simp] theorem exchange_port (x : Byte) (s : State) : (exchange x s).port = s.port := rfl
@[simp] theorem exchange_hostbuf (x : Byte) (s : State) : (exchange x s).hostbuf = s.hostbuf := rfl
@[simp] theorem exchange_resetIn (x : Byte) (s : State) : (exchange x s).resetIn = s.resetIn := rfl
@[simp] theorem exchange_cfg (x : Byte) (s : State) : (exchange x s).cfg = s.cfg := rfl

/-! ## `finish` -/

@[simp] theorem finish_cs (e : ErrorCode) (r : Half) (s : State) : (finish e r s).cs = s.cs := rfl
@[simp] theorem finish_ds (e : ErrorCode) (r : Half) (s : State) : (finish e r s).ds = s.ds := rfl
@[simp] theorem finish_rst (e : ErrorCode) (r : Half) (s : State) : (finish e r s).rst = s.rst := rfl
@[simp] theorem finish_speed (e : ErrorCode) (r : Half) (s : State) : (finish e r s).speed = s.speed := rfl
@[simp] theorem finish_cmd (e : ErrorCode) (r : Half) (s : State) : (finish e r s).cmd = s.cmd := rfl
@[simp] theorem finish_bufBase (e : ErrorCode) (r : Half) (s : State) : (finish e r s).bufBase = s.bufBase := rfl
@[simp] theorem finish_bufLen (e : ErrorCode) (r : Half) (s : State) : (finish e r s).bufLen = s.bufLen := rfl
@[simp] theorem finish_busy (e : ErrorCode) (r : Half) (s : State) : (finish e r s).busy = false := rfl
@[simp] theorem finish_err (e : ErrorCode) (r : Half) (s : State) : (finish e r s).err = e.code := rfl
@[simp] theorem finish_result (e : ErrorCode) (r : Half) (s : State) : (finish e r s).result = r := rfl
@[simp] theorem finish_pc (e : ErrorCode) (r : Half) (s : State) : (finish e r s).pc = [] := rfl
@[simp] theorem finish_addr (e : ErrorCode) (r : Half) (s : State) : (finish e r s).addr = s.addr := rfl
@[simp] theorem finish_data (e : ErrorCode) (r : Half) (s : State) : (finish e r s).data = s.data := rfl
@[simp] theorem finish_fill (e : ErrorCode) (r : Half) (s : State) : (finish e r s).fill = s.fill := rfl
@[simp] theorem finish_base (e : ErrorCode) (r : Half) (s : State) : (finish e r s).base = s.base := rfl
@[simp] theorem finish_rem (e : ErrorCode) (r : Half) (s : State) : (finish e r s).rem = s.rem := rfl
@[simp] theorem finish_off (e : ErrorCode) (r : Half) (s : State) : (finish e r s).off = s.off := rfl
@[simp] theorem finish_n (e : ErrorCode) (r : Half) (s : State) : (finish e r s).n = s.n := rfl
@[simp] theorem finish_i (e : ErrorCode) (r : Half) (s : State) : (finish e r s).i = s.i := rfl
@[simp] theorem finish_bud (e : ErrorCode) (r : Half) (s : State) : (finish e r s).bud = s.bud := rfl
@[simp] theorem finish_npoll (e : ErrorCode) (r : Half) (s : State) : (finish e r s).npoll = s.npoll := rfl
@[simp] theorem finish_tmp (e : ErrorCode) (r : Half) (s : State) : (finish e r s).tmp = s.tmp := rfl
@[simp] theorem finish_b (e : ErrorCode) (r : Half) (s : State) : (finish e r s).b = s.b := rfl
@[simp] theorem finish_reply (e : ErrorCode) (r : Half) (s : State) : (finish e r s).reply = s.reply := rfl
@[simp] theorem finish_hi (e : ErrorCode) (r : Half) (s : State) : (finish e r s).hi = s.hi := rfl
@[simp] theorem finish_lo (e : ErrorCode) (r : Half) (s : State) : (finish e r s).lo = s.lo := rfl
@[simp] theorem finish_size (e : ErrorCode) (r : Half) (s : State) : (finish e r s).size = s.size := rfl
@[simp] theorem finish_r (e : ErrorCode) (r : Half) (s : State) : (finish e r s).r = s.r := rfl
@[simp] theorem finish_v (e : ErrorCode) (r : Half) (s : State) : (finish e r s).v = s.v := rfl
@[simp] theorem finish_events (e : ErrorCode) (r : Half) (s : State) : (finish e r s).events = s.events := rfl
@[simp] theorem finish_responses (e : ErrorCode) (r : Half) (s : State) : (finish e r s).responses = ⟨e.code, r⟩ :: s.responses := rfl
@[simp] theorem finish_flowScript (e : ErrorCode) (r : Half) (s : State) : (finish e r s).flowScript = s.flowScript := rfl
@[simp] theorem finish_pollCount (e : ErrorCode) (r : Half) (s : State) : (finish e r s).pollCount = s.pollCount := rfl
@[simp] theorem finish_replyScript (e : ErrorCode) (r : Half) (s : State) : (finish e r s).replyScript = s.replyScript := rfl
@[simp] theorem finish_xchgCount (e : ErrorCode) (r : Half) (s : State) : (finish e r s).xchgCount = s.xchgCount := rfl
@[simp] theorem finish_port (e : ErrorCode) (r : Half) (s : State) : (finish e r s).port = s.port := rfl
@[simp] theorem finish_hostbuf (e : ErrorCode) (r : Half) (s : State) : (finish e r s).hostbuf = s.hostbuf := rfl
@[simp] theorem finish_resetIn (e : ErrorCode) (r : Half) (s : State) : (finish e r s).resetIn = s.resetIn := rfl
@[simp] theorem finish_cfg (e : ErrorCode) (r : Half) (s : State) : (finish e r s).cfg = s.cfg := rfl

/-! ## `accept` -/

@[simp] theorem accept_cs (p : Proc) (w : CmdWord) (s : State) : (accept p w s).cs = s.cs := rfl
@[simp] theorem accept_ds (p : Proc) (w : CmdWord) (s : State) : (accept p w s).ds = s.ds := rfl
@[simp] theorem accept_rst (p : Proc) (w : CmdWord) (s : State) : (accept p w s).rst = s.rst := rfl
@[simp] theorem accept_speed (p : Proc) (w : CmdWord) (s : State) : (accept p w s).speed = s.speed := rfl
@[simp] theorem accept_cmd (p : Proc) (w : CmdWord) (s : State) : (accept p w s).cmd = w := rfl
@[simp] theorem accept_bufBase (p : Proc) (w : CmdWord) (s : State) : (accept p w s).bufBase = s.bufBase := rfl
@[simp] theorem accept_bufLen (p : Proc) (w : CmdWord) (s : State) : (accept p w s).bufLen = s.bufLen := rfl
@[simp] theorem accept_busy (p : Proc) (w : CmdWord) (s : State) : (accept p w s).busy = true := rfl
@[simp] theorem accept_err (p : Proc) (w : CmdWord) (s : State) : (accept p w s).err = s.err := rfl
@[simp] theorem accept_result (p : Proc) (w : CmdWord) (s : State) : (accept p w s).result = s.result := rfl
@[simp] theorem accept_pc (p : Proc) (w : CmdWord) (s : State) : (accept p w s).pc = [⟨p, 1, 0⟩] := rfl
@[simp] theorem accept_addr (p : Proc) (w : CmdWord) (s : State) : (accept p w s).addr = s.addr := rfl
@[simp] theorem accept_data (p : Proc) (w : CmdWord) (s : State) : (accept p w s).data = s.data := rfl
@[simp] theorem accept_fill (p : Proc) (w : CmdWord) (s : State) : (accept p w s).fill = s.fill := rfl
@[simp] theorem accept_base (p : Proc) (w : CmdWord) (s : State) : (accept p w s).base = s.base := rfl
@[simp] theorem accept_rem (p : Proc) (w : CmdWord) (s : State) : (accept p w s).rem = s.rem := rfl
@[simp] theorem accept_off (p : Proc) (w : CmdWord) (s : State) : (accept p w s).off = s.off := rfl
@[simp] theorem accept_n (p : Proc) (w : CmdWord) (s : State) : (accept p w s).n = s.n := rfl
@[simp] theorem accept_i (p : Proc) (w : CmdWord) (s : State) : (accept p w s).i = s.i := rfl
@[simp] theorem accept_bud (p : Proc) (w : CmdWord) (s : State) : (accept p w s).bud = s.bud := rfl
@[simp] theorem accept_npoll (p : Proc) (w : CmdWord) (s : State) : (accept p w s).npoll = s.npoll := rfl
@[simp] theorem accept_tmp (p : Proc) (w : CmdWord) (s : State) : (accept p w s).tmp = s.tmp := rfl
@[simp] theorem accept_b (p : Proc) (w : CmdWord) (s : State) : (accept p w s).b = s.b := rfl
@[simp] theorem accept_reply (p : Proc) (w : CmdWord) (s : State) : (accept p w s).reply = s.reply := rfl
@[simp] theorem accept_hi (p : Proc) (w : CmdWord) (s : State) : (accept p w s).hi = s.hi := rfl
@[simp] theorem accept_lo (p : Proc) (w : CmdWord) (s : State) : (accept p w s).lo = s.lo := rfl
@[simp] theorem accept_size (p : Proc) (w : CmdWord) (s : State) : (accept p w s).size = s.size := rfl
@[simp] theorem accept_r (p : Proc) (w : CmdWord) (s : State) : (accept p w s).r = s.r := rfl
@[simp] theorem accept_v (p : Proc) (w : CmdWord) (s : State) : (accept p w s).v = s.v := rfl
@[simp] theorem accept_events (p : Proc) (w : CmdWord) (s : State) : (accept p w s).events = s.events := rfl
@[simp] theorem accept_responses (p : Proc) (w : CmdWord) (s : State) : (accept p w s).responses = s.responses := rfl
@[simp] theorem accept_flowScript (p : Proc) (w : CmdWord) (s : State) : (accept p w s).flowScript = s.flowScript := rfl
@[simp] theorem accept_pollCount (p : Proc) (w : CmdWord) (s : State) : (accept p w s).pollCount = s.pollCount := rfl
@[simp] theorem accept_replyScript (p : Proc) (w : CmdWord) (s : State) : (accept p w s).replyScript = s.replyScript := rfl
@[simp] theorem accept_xchgCount (p : Proc) (w : CmdWord) (s : State) : (accept p w s).xchgCount = s.xchgCount := rfl
@[simp] theorem accept_port (p : Proc) (w : CmdWord) (s : State) : (accept p w s).port = s.port := rfl
@[simp] theorem accept_hostbuf (p : Proc) (w : CmdWord) (s : State) : (accept p w s).hostbuf = s.hostbuf := rfl
@[simp] theorem accept_resetIn (p : Proc) (w : CmdWord) (s : State) : (accept p w s).resetIn = s.resetIn := rfl
@[simp] theorem accept_cfg (p : Proc) (w : CmdWord) (s : State) : (accept p w s).cfg = s.cfg := rfl

/-! ## `latch` -/

@[simp] theorem latch_cs (l : Launch) (rest : List Launch) (s : State) : (latch l rest s).cs = s.cs := rfl
@[simp] theorem latch_ds (l : Launch) (rest : List Launch) (s : State) : (latch l rest s).ds = s.ds := rfl
@[simp] theorem latch_rst (l : Launch) (rest : List Launch) (s : State) : (latch l rest s).rst = s.rst := rfl
@[simp] theorem latch_speed (l : Launch) (rest : List Launch) (s : State) : (latch l rest s).speed = s.speed := rfl
@[simp] theorem latch_cmd (l : Launch) (rest : List Launch) (s : State) : (latch l rest s).cmd = l.word := rfl
@[simp] theorem latch_bufBase (l : Launch) (rest : List Launch) (s : State) : (latch l rest s).bufBase = s.cfg.fitAddr l.base := rfl
@[simp] theorem latch_bufLen (l : Launch) (rest : List Launch) (s : State) : (latch l rest s).bufLen = s.cfg.fitLen l.len := rfl
@[simp] theorem latch_busy (l : Launch) (rest : List Launch) (s : State) : (latch l rest s).busy = s.busy := rfl
@[simp] theorem latch_err (l : Launch) (rest : List Launch) (s : State) : (latch l rest s).err = s.err := rfl
@[simp] theorem latch_result (l : Launch) (rest : List Launch) (s : State) : (latch l rest s).result = s.result := rfl
@[simp] theorem latch_pc (l : Launch) (rest : List Launch) (s : State) : (latch l rest s).pc = s.pc := rfl
@[simp] theorem latch_addr (l : Launch) (rest : List Launch) (s : State) : (latch l rest s).addr = s.addr := rfl
@[simp] theorem latch_data (l : Launch) (rest : List Launch) (s : State) : (latch l rest s).data = s.data := rfl
@[simp] theorem latch_fill (l : Launch) (rest : List Launch) (s : State) : (latch l rest s).fill = s.fill := rfl
@[simp] theorem latch_base (l : Launch) (rest : List Launch) (s : State) : (latch l rest s).base = s.base := rfl
@[simp] theorem latch_rem (l : Launch) (rest : List Launch) (s : State) : (latch l rest s).rem = s.rem := rfl
@[simp] theorem latch_off (l : Launch) (rest : List Launch) (s : State) : (latch l rest s).off = s.off := rfl
@[simp] theorem latch_n (l : Launch) (rest : List Launch) (s : State) : (latch l rest s).n = s.n := rfl
@[simp] theorem latch_i (l : Launch) (rest : List Launch) (s : State) : (latch l rest s).i = s.i := rfl
@[simp] theorem latch_bud (l : Launch) (rest : List Launch) (s : State) : (latch l rest s).bud = s.bud := rfl
@[simp] theorem latch_npoll (l : Launch) (rest : List Launch) (s : State) : (latch l rest s).npoll = s.npoll := rfl
@[simp] theorem latch_tmp (l : Launch) (rest : List Launch) (s : State) : (latch l rest s).tmp = s.tmp := rfl
@[simp] theorem latch_b (l : Launch) (rest : List Launch) (s : State) : (latch l rest s).b = s.b := rfl
@[simp] theorem latch_reply (l : Launch) (rest : List Launch) (s : State) : (latch l rest s).reply = s.reply := rfl
@[simp] theorem latch_hi (l : Launch) (rest : List Launch) (s : State) : (latch l rest s).hi = s.hi := rfl
@[simp] theorem latch_lo (l : Launch) (rest : List Launch) (s : State) : (latch l rest s).lo = s.lo := rfl
@[simp] theorem latch_size (l : Launch) (rest : List Launch) (s : State) : (latch l rest s).size = s.size := rfl
@[simp] theorem latch_r (l : Launch) (rest : List Launch) (s : State) : (latch l rest s).r = s.r := rfl
@[simp] theorem latch_v (l : Launch) (rest : List Launch) (s : State) : (latch l rest s).v = s.v := rfl
@[simp] theorem latch_events (l : Launch) (rest : List Launch) (s : State) : (latch l rest s).events = s.events := rfl
@[simp] theorem latch_responses (l : Launch) (rest : List Launch) (s : State) : (latch l rest s).responses = s.responses := rfl
@[simp] theorem latch_flowScript (l : Launch) (rest : List Launch) (s : State) : (latch l rest s).flowScript = s.flowScript := rfl
@[simp] theorem latch_pollCount (l : Launch) (rest : List Launch) (s : State) : (latch l rest s).pollCount = s.pollCount := rfl
@[simp] theorem latch_replyScript (l : Launch) (rest : List Launch) (s : State) : (latch l rest s).replyScript = s.replyScript := rfl
@[simp] theorem latch_xchgCount (l : Launch) (rest : List Launch) (s : State) : (latch l rest s).xchgCount = s.xchgCount := rfl
@[simp] theorem latch_port (l : Launch) (rest : List Launch) (s : State) : (latch l rest s).port = rest := rfl
@[simp] theorem latch_hostbuf (l : Launch) (rest : List Launch) (s : State) : (latch l rest s).hostbuf = s.hostbuf := rfl
@[simp] theorem latch_resetIn (l : Launch) (rest : List Launch) (s : State) : (latch l rest s).resetIn = s.resetIn := rfl
@[simp] theorem latch_cfg (l : Launch) (rest : List Launch) (s : State) : (latch l rest s).cfg = s.cfg := rfl

/-! ## `goTo` -/

@[simp] theorem goTo_cs (k j : Nat) (s : State) : (goTo k j s).cs = s.cs := rfl
@[simp] theorem goTo_ds (k j : Nat) (s : State) : (goTo k j s).ds = s.ds := rfl
@[simp] theorem goTo_rst (k j : Nat) (s : State) : (goTo k j s).rst = s.rst := rfl
@[simp] theorem goTo_speed (k j : Nat) (s : State) : (goTo k j s).speed = s.speed := rfl
@[simp] theorem goTo_cmd (k j : Nat) (s : State) : (goTo k j s).cmd = s.cmd := rfl
@[simp] theorem goTo_bufBase (k j : Nat) (s : State) : (goTo k j s).bufBase = s.bufBase := rfl
@[simp] theorem goTo_bufLen (k j : Nat) (s : State) : (goTo k j s).bufLen = s.bufLen := rfl
@[simp] theorem goTo_busy (k j : Nat) (s : State) : (goTo k j s).busy = s.busy := rfl
@[simp] theorem goTo_err (k j : Nat) (s : State) : (goTo k j s).err = s.err := rfl
@[simp] theorem goTo_result (k j : Nat) (s : State) : (goTo k j s).result = s.result := rfl
@[simp] theorem goTo_pc (k j : Nat) (s : State) : (goTo k j s).pc = retop k j s.pc := rfl
@[simp] theorem goTo_addr (k j : Nat) (s : State) : (goTo k j s).addr = s.addr := rfl
@[simp] theorem goTo_data (k j : Nat) (s : State) : (goTo k j s).data = s.data := rfl
@[simp] theorem goTo_fill (k j : Nat) (s : State) : (goTo k j s).fill = s.fill := rfl
@[simp] theorem goTo_base (k j : Nat) (s : State) : (goTo k j s).base = s.base := rfl
@[simp] theorem goTo_rem (k j : Nat) (s : State) : (goTo k j s).rem = s.rem := rfl
@[simp] theorem goTo_off (k j : Nat) (s : State) : (goTo k j s).off = s.off := rfl
@[simp] theorem goTo_n (k j : Nat) (s : State) : (goTo k j s).n = s.n := rfl
@[simp] theorem goTo_i (k j : Nat) (s : State) : (goTo k j s).i = s.i := rfl
@[simp] theorem goTo_bud (k j : Nat) (s : State) : (goTo k j s).bud = s.bud := rfl
@[simp] theorem goTo_npoll (k j : Nat) (s : State) : (goTo k j s).npoll = s.npoll := rfl
@[simp] theorem goTo_tmp (k j : Nat) (s : State) : (goTo k j s).tmp = s.tmp := rfl
@[simp] theorem goTo_b (k j : Nat) (s : State) : (goTo k j s).b = s.b := rfl
@[simp] theorem goTo_reply (k j : Nat) (s : State) : (goTo k j s).reply = s.reply := rfl
@[simp] theorem goTo_hi (k j : Nat) (s : State) : (goTo k j s).hi = s.hi := rfl
@[simp] theorem goTo_lo (k j : Nat) (s : State) : (goTo k j s).lo = s.lo := rfl
@[simp] theorem goTo_size (k j : Nat) (s : State) : (goTo k j s).size = s.size := rfl
@[simp] theorem goTo_r (k j : Nat) (s : State) : (goTo k j s).r = s.r := rfl
@[simp] theorem goTo_v (k j : Nat) (s : State) : (goTo k j s).v = s.v := rfl
@[simp] theorem goTo_events (k j : Nat) (s : State) : (goTo k j s).events = s.events := rfl
@[simp] theorem goTo_responses (k j : Nat) (s : State) : (goTo k j s).responses = s.responses := rfl
@[simp] theorem goTo_flowScript (k j : Nat) (s : State) : (goTo k j s).flowScript = s.flowScript := rfl
@[simp] theorem goTo_pollCount (k j : Nat) (s : State) : (goTo k j s).pollCount = s.pollCount := rfl
@[simp] theorem goTo_replyScript (k j : Nat) (s : State) : (goTo k j s).replyScript = s.replyScript := rfl
@[simp] theorem goTo_xchgCount (k j : Nat) (s : State) : (goTo k j s).xchgCount = s.xchgCount := rfl
@[simp] theorem goTo_port (k j : Nat) (s : State) : (goTo k j s).port = s.port := rfl
@[simp] theorem goTo_hostbuf (k j : Nat) (s : State) : (goTo k j s).hostbuf = s.hostbuf := rfl
@[simp] theorem goTo_resetIn (k j : Nat) (s : State) : (goTo k j s).resetIn = s.resetIn := rfl
@[simp] theorem goTo_cfg (k j : Nat) (s : State) : (goTo k j s).cfg = s.cfg := rfl

/-! ## `call` -/

@[simp] theorem call_cs (p : Proc) (k j : Nat) (s : State) : (call p k j s).cs = s.cs := rfl
@[simp] theorem call_ds (p : Proc) (k j : Nat) (s : State) : (call p k j s).ds = s.ds := rfl
@[simp] theorem call_rst (p : Proc) (k j : Nat) (s : State) : (call p k j s).rst = s.rst := rfl
@[simp] theorem call_speed (p : Proc) (k j : Nat) (s : State) : (call p k j s).speed = s.speed := rfl
@[simp] theorem call_cmd (p : Proc) (k j : Nat) (s : State) : (call p k j s).cmd = s.cmd := rfl
@[simp] theorem call_bufBase (p : Proc) (k j : Nat) (s : State) : (call p k j s).bufBase = s.bufBase := rfl
@[simp] theorem call_bufLen (p : Proc) (k j : Nat) (s : State) : (call p k j s).bufLen = s.bufLen := rfl
@[simp] theorem call_busy (p : Proc) (k j : Nat) (s : State) : (call p k j s).busy = s.busy := rfl
@[simp] theorem call_err (p : Proc) (k j : Nat) (s : State) : (call p k j s).err = s.err := rfl
@[simp] theorem call_result (p : Proc) (k j : Nat) (s : State) : (call p k j s).result = s.result := rfl
@[simp] theorem call_pc (p : Proc) (k j : Nat) (s : State) : (call p k j s).pc = ⟨p, 1, 0⟩ :: retop k j s.pc := rfl
@[simp] theorem call_addr (p : Proc) (k j : Nat) (s : State) : (call p k j s).addr = s.addr := rfl
@[simp] theorem call_data (p : Proc) (k j : Nat) (s : State) : (call p k j s).data = s.data := rfl
@[simp] theorem call_fill (p : Proc) (k j : Nat) (s : State) : (call p k j s).fill = s.fill := rfl
@[simp] theorem call_base (p : Proc) (k j : Nat) (s : State) : (call p k j s).base = s.base := rfl
@[simp] theorem call_rem (p : Proc) (k j : Nat) (s : State) : (call p k j s).rem = s.rem := rfl
@[simp] theorem call_off (p : Proc) (k j : Nat) (s : State) : (call p k j s).off = s.off := rfl
@[simp] theorem call_n (p : Proc) (k j : Nat) (s : State) : (call p k j s).n = s.n := rfl
@[simp] theorem call_i (p : Proc) (k j : Nat) (s : State) : (call p k j s).i = s.i := rfl
@[simp] theorem call_bud (p : Proc) (k j : Nat) (s : State) : (call p k j s).bud = s.bud := rfl
@[simp] theorem call_npoll (p : Proc) (k j : Nat) (s : State) : (call p k j s).npoll = s.npoll := rfl
@[simp] theorem call_tmp (p : Proc) (k j : Nat) (s : State) : (call p k j s).tmp = s.tmp := rfl
@[simp] theorem call_b (p : Proc) (k j : Nat) (s : State) : (call p k j s).b = s.b := rfl
@[simp] theorem call_reply (p : Proc) (k j : Nat) (s : State) : (call p k j s).reply = s.reply := rfl
@[simp] theorem call_hi (p : Proc) (k j : Nat) (s : State) : (call p k j s).hi = s.hi := rfl
@[simp] theorem call_lo (p : Proc) (k j : Nat) (s : State) : (call p k j s).lo = s.lo := rfl
@[simp] theorem call_size (p : Proc) (k j : Nat) (s : State) : (call p k j s).size = s.size := rfl
@[simp] theorem call_r (p : Proc) (k j : Nat) (s : State) : (call p k j s).r = s.r := rfl
@[simp] theorem call_v (p : Proc) (k j : Nat) (s : State) : (call p k j s).v = s.v := rfl
@[simp] theorem call_events (p : Proc) (k j : Nat) (s : State) : (call p k j s).events = s.events := rfl
@[simp] theorem call_responses (p : Proc) (k j : Nat) (s : State) : (call p k j s).responses = s.responses := rfl
@[simp] theorem call_flowScript (p : Proc) (k j : Nat) (s : State) : (call p k j s).flowScript = s.flowScript := rfl
@[simp] theorem call_pollCount (p : Proc) (k j : Nat) (s : State) : (call p k j s).pollCount = s.pollCount := rfl
@[simp] theorem call_replyScript (p : Proc) (k j : Nat) (s : State) : (call p k j s).replyScript = s.replyScript := rfl
@[simp] theorem call_xchgCount (p : Proc) (k j : Nat) (s : State) : (call p k j s).xchgCount = s.xchgCount := rfl
@[simp] theorem call_port (p : Proc) (k j : Nat) (s : State) : (call p k j s).port = s.port := rfl
@[simp] theorem call_hostbuf (p : Proc) (k j : Nat) (s : State) : (call p k j s).hostbuf = s.hostbuf := rfl
@[simp] theorem call_resetIn (p : Proc) (k j : Nat) (s : State) : (call p k j s).resetIn = s.resetIn := rfl
@[simp] theorem call_cfg (p : Proc) (k j : Nat) (s : State) : (call p k j s).cfg = s.cfg := rfl

/-! ## `leave` -/

@[simp] theorem leave_cs (s : State) : (leave s).cs = s.cs := rfl
@[simp] theorem leave_ds (s : State) : (leave s).ds = s.ds := rfl
@[simp] theorem leave_rst (s : State) : (leave s).rst = s.rst := rfl
@[simp] theorem leave_speed (s : State) : (leave s).speed = s.speed := rfl
@[simp] theorem leave_cmd (s : State) : (leave s).cmd = s.cmd := rfl
@[simp] theorem leave_bufBase (s : State) : (leave s).bufBase = s.bufBase := rfl
@[simp] theorem leave_bufLen (s : State) : (leave s).bufLen = s.bufLen := rfl
@[simp] theorem leave_busy (s : State) : (leave s).busy = s.busy := rfl
@[simp] theorem leave_err (s : State) : (leave s).err = s.err := rfl
@[simp] theorem leave_result (s : State) : (leave s).result = s.result := rfl
@[simp] theorem leave_pc (s : State) : (leave s).pc = s.pc.tail := rfl
@[simp] theorem leave_addr (s : State) : (leave s).addr = s.addr := rfl
@[simp] theorem leave_data (s : State) : (leave s).data = s.data := rfl
@[simp] theorem leave_fill (s : State) : (leave s).fill = s.fill := rfl
@[simp] theorem leave_base (s : State) : (leave s).base = s.base := rfl
@[simp] theorem leave_rem (s : State) : (leave s).rem = s.rem := rfl
@[simp] theorem leave_off (s : State) : (leave s).off = s.off := rfl
@[simp] theorem leave_n (s : State) : (leave s).n = s.n := rfl
@[simp] theorem leave_i (s : State) : (leave s).i = s.i := rfl
@[simp] theorem leave_bud (s : State) : (leave s).bud = s.bud := rfl
@[simp] theorem leave_npoll (s : State) : (leave s).npoll = s.npoll := rfl
@[simp] theorem leave_tmp (s : State) : (leave s).tmp = s.tmp := rfl
@[simp] theorem leave_b (s : State) : (leave s).b = s.b := rfl
@[simp] theorem leave_reply (s : State) : (leave s).reply = s.reply := rfl
@[simp] theorem leave_hi (s : State) : (leave s).hi = s.hi := rfl
@[simp] theorem leave_lo (s : State) : (leave s).lo = s.lo := rfl
@[simp] theorem leave_size (s : State) : (leave s).size = s.size := rfl
@[simp] theorem leave_r (s : State) : (leave s).r = s.r := rfl
@[simp] theorem leave_v (s : State) : (leave s).v = s.v := rfl
@[simp] theorem leave_events (s : State) : (leave s).events = s.events := rfl
@[simp] theorem leave_responses (s : State) : (leave s).responses = s.responses := rfl
@[simp] theorem leave_flowScript (s : State) : (leave s).flowScript = s.flowScript := rfl
@[simp] theorem leave_pollCount (s : State) : (leave s).pollCount = s.pollCount := rfl
@[simp] theorem leave_replyScript (s : State) : (leave s).replyScript = s.replyScript := rfl
@[simp] theorem leave_xchgCount (s : State) : (leave s).xchgCount = s.xchgCount := rfl
@[simp] theorem leave_port (s : State) : (leave s).port = s.port := rfl
@[simp] theorem leave_hostbuf (s : State) : (leave s).hostbuf = s.hostbuf := rfl
@[simp] theorem leave_resetIn (s : State) : (leave s).resetIn = s.resetIn := rfl
@[simp] theorem leave_cfg (s : State) : (leave s).cfg = s.cfg := rfl

/-! ## `blockReset` -/

@[simp] theorem blockReset_cs (s : State) : (blockReset s).cs = State.reset.cs := rfl
@[simp] theorem blockReset_ds (s : State) : (blockReset s).ds = State.reset.ds := rfl
@[simp] theorem blockReset_rst (s : State) : (blockReset s).rst = State.reset.rst := rfl
@[simp] theorem blockReset_speed (s : State) : (blockReset s).speed = State.reset.speed := rfl
@[simp] theorem blockReset_cmd (s : State) : (blockReset s).cmd = State.reset.cmd := rfl
@[simp] theorem blockReset_bufBase (s : State) : (blockReset s).bufBase = State.reset.bufBase := rfl
@[simp] theorem blockReset_bufLen (s : State) : (blockReset s).bufLen = State.reset.bufLen := rfl
@[simp] theorem blockReset_busy (s : State) : (blockReset s).busy = State.reset.busy := rfl
@[simp] theorem blockReset_err (s : State) : (blockReset s).err = State.reset.err := rfl
@[simp] theorem blockReset_result (s : State) : (blockReset s).result = State.reset.result := rfl
@[simp] theorem blockReset_pc (s : State) : (blockReset s).pc = State.reset.pc := rfl
@[simp] theorem blockReset_addr (s : State) : (blockReset s).addr = State.reset.addr := rfl
@[simp] theorem blockReset_data (s : State) : (blockReset s).data = State.reset.data := rfl
@[simp] theorem blockReset_fill (s : State) : (blockReset s).fill = State.reset.fill := rfl
@[simp] theorem blockReset_base (s : State) : (blockReset s).base = State.reset.base := rfl
@[simp] theorem blockReset_rem (s : State) : (blockReset s).rem = State.reset.rem := rfl
@[simp] theorem blockReset_off (s : State) : (blockReset s).off = State.reset.off := rfl
@[simp] theorem blockReset_n (s : State) : (blockReset s).n = State.reset.n := rfl
@[simp] theorem blockReset_i (s : State) : (blockReset s).i = State.reset.i := rfl
@[simp] theorem blockReset_bud (s : State) : (blockReset s).bud = State.reset.bud := rfl
@[simp] theorem blockReset_npoll (s : State) : (blockReset s).npoll = State.reset.npoll := rfl
@[simp] theorem blockReset_tmp (s : State) : (blockReset s).tmp = State.reset.tmp := rfl
@[simp] theorem blockReset_b (s : State) : (blockReset s).b = State.reset.b := rfl
@[simp] theorem blockReset_reply (s : State) : (blockReset s).reply = State.reset.reply := rfl
@[simp] theorem blockReset_hi (s : State) : (blockReset s).hi = State.reset.hi := rfl
@[simp] theorem blockReset_lo (s : State) : (blockReset s).lo = State.reset.lo := rfl
@[simp] theorem blockReset_size (s : State) : (blockReset s).size = State.reset.size := rfl
@[simp] theorem blockReset_r (s : State) : (blockReset s).r = State.reset.r := rfl
@[simp] theorem blockReset_v (s : State) : (blockReset s).v = State.reset.v := rfl
@[simp] theorem blockReset_events (s : State) : (blockReset s).events = State.reset.events := rfl
@[simp] theorem blockReset_responses (s : State) : (blockReset s).responses = State.reset.responses := rfl
@[simp] theorem blockReset_flowScript (s : State) : (blockReset s).flowScript = s.flowScript := rfl
@[simp] theorem blockReset_pollCount (s : State) : (blockReset s).pollCount = s.pollCount := rfl
@[simp] theorem blockReset_replyScript (s : State) : (blockReset s).replyScript = s.replyScript := rfl
@[simp] theorem blockReset_xchgCount (s : State) : (blockReset s).xchgCount = s.xchgCount := rfl
@[simp] theorem blockReset_port (s : State) : (blockReset s).port = s.port := rfl
@[simp] theorem blockReset_hostbuf (s : State) : (blockReset s).hostbuf = s.hostbuf := rfl
@[simp] theorem blockReset_resetIn (s : State) : (blockReset s).resetIn = State.reset.resetIn := rfl
@[simp] theorem blockReset_cfg (s : State) : (blockReset s).cfg = s.cfg := rfl

/-! ## `keep` -/

@[simp] theorem keep_cs (d : Dest) (s : State) : (keep d s).cs = s.cs := by cases d <;> rfl
@[simp] theorem keep_ds (d : Dest) (s : State) : (keep d s).ds = s.ds := by cases d <;> rfl
@[simp] theorem keep_rst (d : Dest) (s : State) : (keep d s).rst = s.rst := by cases d <;> rfl
@[simp] theorem keep_speed (d : Dest) (s : State) : (keep d s).speed = s.speed := by cases d <;> rfl
@[simp] theorem keep_cmd (d : Dest) (s : State) : (keep d s).cmd = s.cmd := by cases d <;> rfl
@[simp] theorem keep_bufBase (d : Dest) (s : State) : (keep d s).bufBase = s.bufBase := by cases d <;> rfl
@[simp] theorem keep_bufLen (d : Dest) (s : State) : (keep d s).bufLen = s.bufLen := by cases d <;> rfl
@[simp] theorem keep_busy (d : Dest) (s : State) : (keep d s).busy = s.busy := by cases d <;> rfl
@[simp] theorem keep_err (d : Dest) (s : State) : (keep d s).err = s.err := by cases d <;> rfl
@[simp] theorem keep_result (d : Dest) (s : State) : (keep d s).result = s.result := by cases d <;> rfl
@[simp] theorem keep_pc (d : Dest) (s : State) : (keep d s).pc = s.pc := by cases d <;> rfl
@[simp] theorem keep_addr (d : Dest) (s : State) : (keep d s).addr = s.addr := by cases d <;> rfl
@[simp] theorem keep_data (d : Dest) (s : State) : (keep d s).data = s.data := by cases d <;> rfl
@[simp] theorem keep_fill (d : Dest) (s : State) : (keep d s).fill = s.fill := by cases d <;> rfl
@[simp] theorem keep_base (d : Dest) (s : State) : (keep d s).base = s.base := by cases d <;> rfl
@[simp] theorem keep_rem (d : Dest) (s : State) : (keep d s).rem = s.rem := by cases d <;> rfl
@[simp] theorem keep_off (d : Dest) (s : State) : (keep d s).off = s.off := by cases d <;> rfl
@[simp] theorem keep_n (d : Dest) (s : State) : (keep d s).n = s.n := by cases d <;> rfl
@[simp] theorem keep_i (d : Dest) (s : State) : (keep d s).i = s.i := by cases d <;> rfl
@[simp] theorem keep_bud (d : Dest) (s : State) : (keep d s).bud = s.bud := by cases d <;> rfl
@[simp] theorem keep_npoll (d : Dest) (s : State) : (keep d s).npoll = s.npoll := by cases d <;> rfl
@[simp] theorem keep_tmp (d : Dest) (s : State) : (keep d s).tmp = s.tmp := by cases d <;> rfl
@[simp] theorem keep_b (d : Dest) (s : State) : (keep d s).b = s.b := by cases d <;> rfl
@[simp] theorem keep_reply (d : Dest) (s : State) : (keep d s).reply = s.reply := by cases d <;> rfl
@[simp] theorem keep_size (d : Dest) (s : State) : (keep d s).size = s.size := by cases d <;> rfl
@[simp] theorem keep_r (d : Dest) (s : State) : (keep d s).r = s.r := by cases d <;> rfl
@[simp] theorem keep_v (d : Dest) (s : State) : (keep d s).v = s.v := by cases d <;> rfl
@[simp] theorem keep_events (d : Dest) (s : State) : (keep d s).events = s.events := by cases d <;> rfl
@[simp] theorem keep_responses (d : Dest) (s : State) : (keep d s).responses = s.responses := by cases d <;> rfl
@[simp] theorem keep_flowScript (d : Dest) (s : State) : (keep d s).flowScript = s.flowScript := by cases d <;> rfl
@[simp] theorem keep_pollCount (d : Dest) (s : State) : (keep d s).pollCount = s.pollCount := by cases d <;> rfl
@[simp] theorem keep_replyScript (d : Dest) (s : State) : (keep d s).replyScript = s.replyScript := by cases d <;> rfl
@[simp] theorem keep_xchgCount (d : Dest) (s : State) : (keep d s).xchgCount = s.xchgCount := by cases d <;> rfl
@[simp] theorem keep_port (d : Dest) (s : State) : (keep d s).port = s.port := by cases d <;> rfl
@[simp] theorem keep_hostbuf (d : Dest) (s : State) : (keep d s).hostbuf = s.hostbuf := by cases d <;> rfl
@[simp] theorem keep_resetIn (d : Dest) (s : State) : (keep d s).resetIn = s.resetIn := by cases d <;> rfl
@[simp] theorem keep_cfg (d : Dest) (s : State) : (keep d s).cfg = s.cfg := by cases d <;> rfl
@[simp] theorem keep_discard (s : State) : keep .discard s = s := rfl
@[simp] theorem keep_hi_hi (s : State) : (keep .hi s).hi = s.reply := rfl
@[simp] theorem keep_hi_lo (s : State) : (keep .hi s).lo = s.lo := rfl
@[simp] theorem keep_lo_hi (s : State) : (keep .lo s).hi = s.hi := rfl
@[simp] theorem keep_lo_lo (s : State) : (keep .lo s).lo = s.reply := rfl

/-! ## `raise` -/

@[simp] theorem raiseError_cs (e : ErrorCode) (r : Half) (s : State) :
    (raiseError e r s).cs = false := by
  cases hc : s.cs <;> cases hd : s.ds <;> simp [raiseError, releaseCs, releaseDs, hc, hd]
@[simp] theorem raiseError_ds (e : ErrorCode) (r : Half) (s : State) :
    (raiseError e r s).ds = false := by
  cases hc : s.cs <;> cases hd : s.ds <;> simp [raiseError, releaseCs, releaseDs, hc, hd]
@[simp] theorem raiseError_rst (e : ErrorCode) (r : Half) (s : State) :
    (raiseError e r s).rst = s.rst := by
  cases hc : s.cs <;> cases hd : s.ds <;> simp [raiseError, releaseCs, releaseDs, hc, hd]
@[simp] theorem raiseError_speed (e : ErrorCode) (r : Half) (s : State) :
    (raiseError e r s).speed = s.speed := by
  cases hc : s.cs <;> cases hd : s.ds <;> simp [raiseError, releaseCs, releaseDs, hc, hd]
@[simp] theorem raiseError_cmd (e : ErrorCode) (r : Half) (s : State) :
    (raiseError e r s).cmd = s.cmd := by
  cases hc : s.cs <;> cases hd : s.ds <;> simp [raiseError, releaseCs, releaseDs, hc, hd]
@[simp] theorem raiseError_bufBase (e : ErrorCode) (r : Half) (s : State) :
    (raiseError e r s).bufBase = s.bufBase := by
  cases hc : s.cs <;> cases hd : s.ds <;> simp [raiseError, releaseCs, releaseDs, hc, hd]
@[simp] theorem raiseError_bufLen (e : ErrorCode) (r : Half) (s : State) :
    (raiseError e r s).bufLen = s.bufLen := by
  cases hc : s.cs <;> cases hd : s.ds <;> simp [raiseError, releaseCs, releaseDs, hc, hd]
@[simp] theorem raiseError_busy (e : ErrorCode) (r : Half) (s : State) :
    (raiseError e r s).busy = false := rfl
@[simp] theorem raiseError_err (e : ErrorCode) (r : Half) (s : State) :
    (raiseError e r s).err = e.code := rfl
@[simp] theorem raiseError_result (e : ErrorCode) (r : Half) (s : State) :
    (raiseError e r s).result = r := rfl
@[simp] theorem raiseError_pc (e : ErrorCode) (r : Half) (s : State) :
    (raiseError e r s).pc = [] := rfl
@[simp] theorem raiseError_addr (e : ErrorCode) (r : Half) (s : State) :
    (raiseError e r s).addr = s.addr := by
  cases hc : s.cs <;> cases hd : s.ds <;> simp [raiseError, releaseCs, releaseDs, hc, hd]
@[simp] theorem raiseError_data (e : ErrorCode) (r : Half) (s : State) :
    (raiseError e r s).data = s.data := by
  cases hc : s.cs <;> cases hd : s.ds <;> simp [raiseError, releaseCs, releaseDs, hc, hd]
@[simp] theorem raiseError_fill (e : ErrorCode) (r : Half) (s : State) :
    (raiseError e r s).fill = s.fill := by
  cases hc : s.cs <;> cases hd : s.ds <;> simp [raiseError, releaseCs, releaseDs, hc, hd]
@[simp] theorem raiseError_base (e : ErrorCode) (r : Half) (s : State) :
    (raiseError e r s).base = s.base := by
  cases hc : s.cs <;> cases hd : s.ds <;> simp [raiseError, releaseCs, releaseDs, hc, hd]
@[simp] theorem raiseError_rem (e : ErrorCode) (r : Half) (s : State) :
    (raiseError e r s).rem = s.rem := by
  cases hc : s.cs <;> cases hd : s.ds <;> simp [raiseError, releaseCs, releaseDs, hc, hd]
@[simp] theorem raiseError_off (e : ErrorCode) (r : Half) (s : State) :
    (raiseError e r s).off = s.off := by
  cases hc : s.cs <;> cases hd : s.ds <;> simp [raiseError, releaseCs, releaseDs, hc, hd]
@[simp] theorem raiseError_n (e : ErrorCode) (r : Half) (s : State) :
    (raiseError e r s).n = s.n := by
  cases hc : s.cs <;> cases hd : s.ds <;> simp [raiseError, releaseCs, releaseDs, hc, hd]
@[simp] theorem raiseError_i (e : ErrorCode) (r : Half) (s : State) :
    (raiseError e r s).i = s.i := by
  cases hc : s.cs <;> cases hd : s.ds <;> simp [raiseError, releaseCs, releaseDs, hc, hd]
@[simp] theorem raiseError_bud (e : ErrorCode) (r : Half) (s : State) :
    (raiseError e r s).bud = s.bud := by
  cases hc : s.cs <;> cases hd : s.ds <;> simp [raiseError, releaseCs, releaseDs, hc, hd]
@[simp] theorem raiseError_npoll (e : ErrorCode) (r : Half) (s : State) :
    (raiseError e r s).npoll = s.npoll := by
  cases hc : s.cs <;> cases hd : s.ds <;> simp [raiseError, releaseCs, releaseDs, hc, hd]
@[simp] theorem raiseError_tmp (e : ErrorCode) (r : Half) (s : State) :
    (raiseError e r s).tmp = s.tmp := by
  cases hc : s.cs <;> cases hd : s.ds <;> simp [raiseError, releaseCs, releaseDs, hc, hd]
@[simp] theorem raiseError_b (e : ErrorCode) (r : Half) (s : State) :
    (raiseError e r s).b = s.b := by
  cases hc : s.cs <;> cases hd : s.ds <;> simp [raiseError, releaseCs, releaseDs, hc, hd]
@[simp] theorem raiseError_reply (e : ErrorCode) (r : Half) (s : State) :
    (raiseError e r s).reply = s.reply := by
  cases hc : s.cs <;> cases hd : s.ds <;> simp [raiseError, releaseCs, releaseDs, hc, hd]
@[simp] theorem raiseError_hi (e : ErrorCode) (r : Half) (s : State) :
    (raiseError e r s).hi = s.hi := by
  cases hc : s.cs <;> cases hd : s.ds <;> simp [raiseError, releaseCs, releaseDs, hc, hd]
@[simp] theorem raiseError_lo (e : ErrorCode) (r : Half) (s : State) :
    (raiseError e r s).lo = s.lo := by
  cases hc : s.cs <;> cases hd : s.ds <;> simp [raiseError, releaseCs, releaseDs, hc, hd]
@[simp] theorem raiseError_size (e : ErrorCode) (r : Half) (s : State) :
    (raiseError e r s).size = s.size := by
  cases hc : s.cs <;> cases hd : s.ds <;> simp [raiseError, releaseCs, releaseDs, hc, hd]
@[simp] theorem raiseError_r (e : ErrorCode) (r : Half) (s : State) :
    (raiseError e r s).r = s.r := by
  cases hc : s.cs <;> cases hd : s.ds <;> simp [raiseError, releaseCs, releaseDs, hc, hd]
@[simp] theorem raiseError_v (e : ErrorCode) (r : Half) (s : State) :
    (raiseError e r s).v = s.v := by
  cases hc : s.cs <;> cases hd : s.ds <;> simp [raiseError, releaseCs, releaseDs, hc, hd]
theorem raiseError_events (e : ErrorCode) (r : Half) (s : State) :
    (raiseError e r s).events = (if s.ds then [Event.dsOff] else []) ++ (if s.cs then [Event.csOff] else []) ++ s.events := by
  cases hc : s.cs <;> cases hd : s.ds <;> simp [raiseError, releaseCs, releaseDs, hc, hd]
@[simp] theorem raiseError_responses (e : ErrorCode) (r : Half) (s : State) :
    (raiseError e r s).responses = ⟨e.code, r⟩ :: s.responses := by
  cases hc : s.cs <;> cases hd : s.ds <;> simp [raiseError, releaseCs, releaseDs, hc, hd]
@[simp] theorem raiseError_flowScript (e : ErrorCode) (r : Half) (s : State) :
    (raiseError e r s).flowScript = s.flowScript := by
  cases hc : s.cs <;> cases hd : s.ds <;> simp [raiseError, releaseCs, releaseDs, hc, hd]
@[simp] theorem raiseError_pollCount (e : ErrorCode) (r : Half) (s : State) :
    (raiseError e r s).pollCount = s.pollCount := by
  cases hc : s.cs <;> cases hd : s.ds <;> simp [raiseError, releaseCs, releaseDs, hc, hd]
@[simp] theorem raiseError_replyScript (e : ErrorCode) (r : Half) (s : State) :
    (raiseError e r s).replyScript = s.replyScript := by
  cases hc : s.cs <;> cases hd : s.ds <;> simp [raiseError, releaseCs, releaseDs, hc, hd]
@[simp] theorem raiseError_xchgCount (e : ErrorCode) (r : Half) (s : State) :
    (raiseError e r s).xchgCount = s.xchgCount := by
  cases hc : s.cs <;> cases hd : s.ds <;> simp [raiseError, releaseCs, releaseDs, hc, hd]
@[simp] theorem raiseError_port (e : ErrorCode) (r : Half) (s : State) :
    (raiseError e r s).port = s.port := by
  cases hc : s.cs <;> cases hd : s.ds <;> simp [raiseError, releaseCs, releaseDs, hc, hd]
@[simp] theorem raiseError_hostbuf (e : ErrorCode) (r : Half) (s : State) :
    (raiseError e r s).hostbuf = s.hostbuf := by
  cases hc : s.cs <;> cases hd : s.ds <;> simp [raiseError, releaseCs, releaseDs, hc, hd]
@[simp] theorem raiseError_resetIn (e : ErrorCode) (r : Half) (s : State) :
    (raiseError e r s).resetIn = s.resetIn := by
  cases hc : s.cs <;> cases hd : s.ds <;> simp [raiseError, releaseCs, releaseDs, hc, hd]
@[simp] theorem raiseError_cfg (e : ErrorCode) (r : Half) (s : State) :
    (raiseError e r s).cfg = s.cfg := by
  cases hc : s.cs <;> cases hd : s.ds <;> simp [raiseError, releaseCs, releaseDs, hc, hd]

end Sys2Proof.Machine
end

