-- ==== Sys2Proof/Laws/Ops.lean ====
section
/-! SUPPORT. One lemma for each shared operation that says everything it can do. -/

namespace Sys2Proof.Machine

/-! ## Trace and draws -/

/-- `emit` appends one event to the trace. -/
@[simp] theorem emit_trace (e : Event) (s : State) : (emit e s).trace = s.trace ++ [e] := by
  simp [State.trace]

/-- The answers after one poll are the old ones, moved on by one. -/
@[simp] theorem flowReady_flowAt (s : State) (k : Nat) : (flowReady s).flowAt k = s.flowAt (k + 1) := by
  simp only [State.flowAt, flowReady_flowScript, flowReady_pollCount, List.getElem?_tail]
  cases s.flowScript[k + 1]? <;> simp [Nat.add_comm, Nat.add_left_comm]

/-- A poll leaves the coming reply bytes. -/
@[simp] theorem flowReady_replyAt (s : State) (k : Nat) : (flowReady s).replyAt k = s.replyAt k := rfl

/-- The reply bytes after one exchange are the old ones, moved on by one. -/
@[simp] theorem exchange_replyAt (x : Byte) (s : State) (k : Nat) : (exchange x s).replyAt k = s.replyAt (k + 1) := by
  simp only [State.replyAt, exchange_replyScript, exchange_xchgCount, List.getElem?_tail]
  cases s.replyScript[k + 1]? <;> simp [Nat.add_comm, Nat.add_left_comm]

/-- An exchange leaves the coming polls. -/
@[simp] theorem exchange_flowAt (x : Byte) (s : State) (k : Nat) : (exchange x s).flowAt k = s.flowAt k := rfl

/-! ## Acceptance -/

/-- `start` always answers a next state: unchanged while busy, else the command accepted. -/
theorem start_cases (p : Proc) (i : Instr) (s : State) :
    (s.busy = true ∧ start p i s = .next s) ∨
    (s.busy = false ∧ start p i s = .next (accept p (commandWord i) s)) := by
  cases h : s.busy <;> simp [start, h]

/-- A launch is not refused exactly where the buffer lies in the address space and is defined. -/
theorem launchRefusal_none (len : Nat) (s : State) :
    launchRefusal len s = none ↔
      s.bufBase + len ≤ 2 ^ s.cfg.hostAddrW ∧
        ∀ j, j < len → (Memory.read s.hostbuf (s.bufBase + j)).isSome = true := by
  rw [← Memory.definedAt_iff]
  unfold launchRefusal
  split
  · rename_i h
    simp only [reduceCtorEq, false_iff, not_and]
    intro h' _
    exact absurd h' (Nat.not_le_of_lt h)
  · split
    · rename_i h hd
      simp only [hd, and_true, true_iff]
      exact Nat.le_of_not_lt h
    · rename_i h hd
      simp only [reduceCtorEq, false_iff, not_and]
      intro _ hd'
      exact hd hd'

/-- `startTransfer`: unchanged while busy, refused where the launch premise fails, else the command accepted. -/
theorem startTransfer_cases (p : Proc) (i : Instr) (len : Nat) (s : State) :
    (s.busy = true ∧ startTransfer p i len s = .next s) ∨
    (s.busy = false ∧ ∃ why, launchRefusal len s = some why ∧ startTransfer p i len s = .refused why) ∨
    (s.busy = false ∧ launchRefusal len s = none ∧
      startTransfer p i len s = .next (accept p (commandWord i) s)) := by
  cases h : s.busy with
  | true => simp [startTransfer, h]
  | false =>
    cases hl : launchRefusal len s with
    | none => simp [startTransfer, start, h, hl]
    | some why => simp [startTransfer, h, hl]

/-- `fetch` takes the oldest presented command, or finds none. -/
theorem fetch_cases (s : State) :
    (s.port = [] ∧ fetch s = none) ∨
    ∃ l rest, s.port = l :: rest ∧ fetch s = some (latch l rest s, l.word) := by
  cases h : s.port with
  | nil => simp [fetch, h]
  | cons l rest => simp [fetch, h]

/-! ## The error exit -/

/-- With both select lines deasserted, `raise` is `done` and appends no event (R130). -/
theorem raiseError_lines_down (e : ErrorCode) (r : Half) (s : State) (hc : s.cs = false) (hd : s.ds = false) :
    raiseError e r s = finish e r s := by
  simp [raiseError, releaseCs, releaseDs, hc, hd]

/-! ## Moving `pc` -/

@[simp] theorem retop_cons (k j : Nat) (f : Frame) (fs : List Frame) :
    retop k j (f :: fs) = ⟨f.proc, k, j⟩ :: fs := rfl

@[simp] theorem retop_nil (k j : Nat) : retop k j [] = [] := rfl

/-! ## Meanings of the micro-operations -/

/-- Every micro-operation answers a next state, and which one. -/
theorem exec_micro_cases (u : Instr) (s : State) :
    (u = .csa → exec u s = .next (assertCs s)) ∧ (u = .csd → exec u s = .next (deassertCs s)) ∧
    (u = .dsa → exec u s = .next (assertDs s)) ∧ (u = .dsd → exec u s = .next (deassertDs s)) ∧
    (u = .rsta → exec u s = .next (assertRst s)) ∧ (u = .rstd → exec u s = .next (deassertRst s)) ∧
    (u = .poll → exec u s = .next (flowReady s)) ∧ (∀ x, u = .xchg x → exec u s = .next (exchange x s)) ∧
    (∀ t, u = .delay t → exec u s = .next (delayFor t s)) ∧ (u = .speedhi → exec u s = .next (speedHigh s)) := by
  refine ⟨?_, ?_, ?_, ?_, ?_, ?_, ?_, ?_, ?_, ?_⟩ <;> intros <;> subst_vars <;> rfl

/-- A state of `exchangeAll` differs from the first only in trace and draws: the registers and lines stay. -/
theorem exchangeAll_keeps (xs : List Byte) (s : State) :
    ∃ evs sc c rp, exchangeAll xs s =
      { s with events := evs, replyScript := sc, xchgCount := c, reply := rp } := by
  induction xs generalizing s with
  | nil => exact ⟨_, _, _, _, rfl⟩
  | cons x xs ih =>
    obtain ⟨evs, sc, c, rp, h⟩ := ih (exchange x s)
    exact ⟨evs, sc, c, rp, h⟩

end Sys2Proof.Machine
end

