-- ==== Sys2Proof/Laws/PerInstr.lean ====
section
/-! SUPPORT. A family of statements with one lemma per instruction: the bits of an instruction lie in its row of
spec/opcode_table.json. -/

namespace Sys2Proof.Laws.TableRow

/-- The code is a command word with `(w and mask) = match`. -/
def WordIn (c : Code) (mtch mask : CmdWord) : Prop := ∃ w, c = .command w ∧ w &&& mask = mtch

/-- The code is a micro-operation's, with this number. -/
def MicroIn (c : Code) (mtch : BitVec 4) : Prop := ∃ operand, c = .micro mtch operand

/-- The code is a frame of four bytes under command-select; the bytes, first byte leftmost, satisfy `(w and mask) = match`. -/
def FrameIn (c : Code) (mtch mask : CmdWord) : Prop :=
  ∃ b0 b1 b2 b3 : Byte, c = .csFrame [b0, b1, b2, b3] ∧ (b0 ++ b1 ++ (b2 ++ b3) : CmdWord) &&& mask = mtch

/-- The bits of the instruction lie in its row of the opcode table, at the row's level and of the row's length. -/
def Statement (i : Instr) : Prop :=
  match i with
  | .wrreg _ _ => WordIn (encode i) 0x02000000#32 0xFFF00000#32
  | .rdreg _ => WordIn (encode i) 0x03000000#32 0xFFF0FFFF#32
  | .wrdata => WordIn (encode i) 0x10000000#32 0xFFFFFFFF#32
  | .wrchunk _ => WordIn (encode i) 0x11000000#32 0xFFFF0000#32
  | .fill _ _ => WordIn (encode i) 0x12000000#32 0xFF000000#32
  | .hreset => WordIn (encode i) 0x20000000#32 0xFFFFFFFF#32
  | .sreset => WordIn (encode i) 0x21000000#32 0xFFFFFFFF#32
  | .cancel => WordIn (encode i) 0x30000000#32 0xFFFFFFFF#32
  | .verq => WordIn (encode i) 0x40000000#32 0xFFFFFFFF#32
  | .flowrd => WordIn (encode i) 0x50000000#32 0xFFFFFFFF#32
  | .waitrdy => WordIn (encode i) 0x51000000#32 0xFFFFFFFF#32
  | .csa => MicroIn (encode i) 0x0
  | .csd => MicroIn (encode i) 0x1
  | .dsa => MicroIn (encode i) 0x2
  | .dsd => MicroIn (encode i) 0x3
  | .rsta => MicroIn (encode i) 0x4
  | .rstd => MicroIn (encode i) 0x5
  | .poll => MicroIn (encode i) 0x6
  | .xchg _ => MicroIn (encode i) 0x7
  | .delay _ => MicroIn (encode i) 0x8
  | .speedhi => MicroIn (encode i) 0x9
  | .sciWriteFrame _ _ => FrameIn (encode i) 0x02000000#32 0xFFF00000#32
  | .sciReadFrame _ _ _ => FrameIn (encode i) 0x03000000#32 0xFFF00000#32
  | .sdiChunkFrame bytes => i.wellFormed = true → encode i = .dsFrame bytes ∧ bytes.length ≤ 32

/-- R60. -/
theorem wrreg (a : RegAddr) (v : Half) : Statement (.wrreg a v) := by
  refine ⟨_, rfl, ?_⟩
  rw [show 0xFFF00000#32 = packCommand 0xFF 0xF0 0x0000 from by decide, commandWord, packCommand_and]
  simp [addressByte_and, show 0x02000000#32 = packCommand 0x02 0x00 0x0000 from by decide]

/-- R60. -/
theorem rdreg (a : RegAddr) : Statement (.rdreg a) := by
  refine ⟨_, rfl, ?_⟩
  rw [show 0xFFF0FFFF#32 = packCommand 0xFF 0xF0 0xFFFF from by decide, commandWord, packCommand_and]
  simp [addressByte_and, show 0x03000000#32 = packCommand 0x03 0x00 0x0000 from by decide]

/-- R60. -/
theorem wrdata : Statement .wrdata := by
  exact ⟨_, rfl, by decide⟩

/-- R60. -/
theorem wrchunk (n : BitVec 16) : Statement (.wrchunk n) := by
  refine ⟨_, rfl, ?_⟩
  rw [show 0xFFFF0000#32 = packCommand 0xFF 0xFF 0x0000 from by decide, commandWord, packCommand_and]
  simp [show 0x11000000#32 = packCommand 0x11 0x00 0x0000 from by decide]

/-- R60. -/
theorem fill (x : Byte) (n : BitVec 16) : Statement (.fill x n) := by
  refine ⟨_, rfl, ?_⟩
  rw [show 0xFF000000#32 = packCommand 0xFF 0x00 0x0000 from by decide, commandWord, packCommand_and]
  simp [show 0x12000000#32 = packCommand 0x12 0x00 0x0000 from by decide]

/-- R60. -/
theorem hreset : Statement .hreset := by
  exact ⟨_, rfl, by decide⟩

/-- R60. -/
theorem sreset : Statement .sreset := by
  exact ⟨_, rfl, by decide⟩

/-- R60. -/
theorem cancel : Statement .cancel := by
  exact ⟨_, rfl, by decide⟩

/-- R60. -/
theorem verq : Statement .verq := by
  exact ⟨_, rfl, by decide⟩

/-- R60. -/
theorem flowrd : Statement .flowrd := by
  exact ⟨_, rfl, by decide⟩

/-- R60. -/
theorem waitrdy : Statement .waitrdy := by
  exact ⟨_, rfl, by decide⟩

/-- R63. -/
theorem csa : Statement .csa := ⟨_, rfl⟩

/-- R63. -/
theorem csd : Statement .csd := ⟨_, rfl⟩

/-- R63. -/
theorem dsa : Statement .dsa := ⟨_, rfl⟩

/-- R63. -/
theorem dsd : Statement .dsd := ⟨_, rfl⟩

/-- R63. -/
theorem rsta : Statement .rsta := ⟨_, rfl⟩

/-- R63. -/
theorem rstd : Statement .rstd := ⟨_, rfl⟩

/-- R63. -/
theorem poll : Statement .poll := ⟨_, rfl⟩

/-- R63. -/
theorem xchg (x : Byte) : Statement (.xchg x) := ⟨_, rfl⟩

/-- R63. -/
theorem delay (t : Duration) : Statement (.delay t) := ⟨_, rfl⟩

/-- R63. -/
theorem speedhi : Statement .speedhi := ⟨_, rfl⟩

/-- R53. -/
theorem sciWriteFrame (a : RegAddr) (v : Half) : Statement (.sciWriteFrame a v) := by
  refine ⟨_, _, _, _, rfl, ?_⟩
  rw [show 0xFFF00000#32 = packCommand 0xFF 0xF0 0x0000 from by decide, ← packCommand, packCommand_and]
  simp [addressByte_and, show 0x02000000#32 = packCommand 0x02 0x00 0x0000 from by decide]

/-- R54. -/
theorem sciReadFrame (a : RegAddr) (d e : Byte) : Statement (.sciReadFrame a d e) := by
  refine ⟨_, _, _, _, rfl, ?_⟩
  rw [show 0xFFF00000#32 = packCommand 0xFF 0xF0 0x0000 from by decide, ← packCommand, packCommand_and]
  simp [addressByte_and, show 0x03000000#32 = packCommand 0x03 0x00 0x0000 from by decide]

/-- R55. -/
theorem sdiChunkFrame (bytes : List Byte) : Statement (.sdiChunkFrame bytes) := by
  intro h
  exact ⟨rfl, of_decide_eq_true h⟩

end Sys2Proof.Laws.TableRow
end

