-- ==== Sys2Proof/Laws/Step.lean ====
section
/-! SUPPORT. What a step can do. -/

namespace Sys2Proof.Machine

/-- With the block-reset input asserted a step is block reset. -/
theorem step_reset (s : State) (h : s.resetIn = true) : step s = .next (blockReset s) := by
  simp [step, h]

/-- A step of a running command is the line at `pc`. -/
theorem step_line (s : State) (f : Frame) (fs : List Frame) (hr : s.resetIn = false) (hp : s.pc = f :: fs) :
    step s = runLine f s := by
  simp [step, sequence, hr, hp]

/-- A step of an idle block. -/
theorem step_idle (s : State) (hr : s.resetIn = false) (hp : s.pc = []) (hb : s.busy = false) :
    step s = runIdle s := by
  simp [step, sequence, hr, hp, hb]

/-- An idle block with nothing presented stays as it is. -/
theorem runIdle_nothing (s : State) (h : s.port = []) : runIdle s = .next s := by
  simp [runIdle, fetch, h]

/-- Everything a step can do: block reset, standing still, an illegal command word, the start of a legal command, or one line of
the running command. -/
theorem step_cases (s : State) :
    (s.resetIn = true ∧ step s = .next (blockReset s)) ∨
    (s.resetIn = false ∧ s.pc = [] ∧ (s.busy = true ∨ s.port = []) ∧ step s = .next s) ∨
    (s.resetIn = false ∧ s.pc = [] ∧ s.busy = false ∧ ∃ l rest, s.port = l :: rest ∧
      ((∃ e, decode (.command l.word) = .error e ∧
          step s = .next (raiseError .illegalCmd 0 (latch l rest s))) ∨
       (∃ i, decode (.command l.word) = .ok i ∧
          step s = exec i (latch l rest s)))) ∨
    (s.resetIn = false ∧ ∃ f fs, s.pc = f :: fs ∧ step s = runLine f s) := by
  cases hr : s.resetIn with
  | true => exact .inl ⟨rfl, step_reset s hr⟩
  | false =>
    right
    cases hp : s.pc with
    | cons f fs => exact .inr (.inr ⟨rfl, f, fs, rfl, step_line s f fs hr hp⟩)
    | nil =>
      cases hb : s.busy with
      | true => exact .inl ⟨rfl, rfl, .inl rfl, by simp [step, sequence, hr, hp, hb]⟩
      | false =>
        rw [step_idle s hr hp hb]
        rcases fetch_cases s with ⟨h, _⟩ | ⟨l, rest, h, hf⟩
        · exact .inl ⟨rfl, rfl, .inr h, runIdle_nothing s h⟩
        · refine .inr (.inl ⟨rfl, rfl, rfl, l, rest, h, ?_⟩)
          cases hd : decode (.command l.word) with
          | error e => exact .inl ⟨e, rfl, by simp [runIdle, hf, hd]⟩
          | ok i => exact .inr ⟨i, rfl, by simp [runIdle, hf, hd]⟩

/-- The command decoder, read as the table of R60: which command a legal word is, and that the word is the command's own. -/
theorem decodeCommand_cases (w : CmdWord) (i : Instr) (h : decode (.command w) = .ok i) :
    (∃ a v, i = .wrreg a v) ∨ (∃ a, i = .rdreg a) ∨ i = .wrdata ∨ (∃ n, i = .wrchunk n) ∨ (∃ x n, i = .fill x n) ∨
    i = .hreset ∨ i = .sreset ∨ i = .cancel ∨ i = .verq ∨ i = .flowrd ∨ i = .waitrdy := by
  simp only [decode, decodeCommand] at h
  cases ho : commandOp (opField w) with
  | none => simp [ho] at h
  | some o =>
    cases hi : commandOperands o (aField w) (vField w) with
    | none => simp [ho, hi] at h
    | some k =>
      simp only [ho, hi, Except.ok.injEq] at h
      subst h
      cases o <;> simp only [commandOperands] at hi <;> (try split at hi) <;> simp_all <;> subst hi <;> simp

end Sys2Proof.Machine
end

