-- ==== Sys2Proof/Laws/Run.lean ====
section
/-! SUPPORT. Runs of several steps, and a step at a micro-operation line. -/

namespace Sys2Proof.Machine

/-- A run goes on from where its first part ended. -/
theorem run_add (a b : Nat) (s u : State) (h : run a s = .next u) : run (a + b) s = run b u := by
  induction a generalizing s with
  | zero => cases h; simp
  | succ a ih =>
    rw [Nat.succ_add]
    simp only [run] at h ⊢
    cases hs : step s with
    | next t => simp only [hs] at h ⊢; exact ih t h
    | fault r => simp [hs] at h
    | refused r => simp [hs] at h

/-- A micro-operation line. -/
theorem step_micro {s t : State} {f : Frame} {fs : List Frame} {u : Instr} {d : Dest} {k j : Nat} (hr : s.resetIn = false)
    (hp : s.pc = f :: fs) (hl : lineOf f s = .micro u d k j) (hx : exec u s = .next t) :
    step s = .next (afterMicro d k j t) := by
  rw [step_line s f fs hr hp]
  simp [runLine, hl, runAct, hx, andThen]

/-- A run of no step. -/
theorem Reaches.refl (s : State) : Reaches s s := ⟨0, rfl⟩

/-- Two runs, one after the other. -/
theorem Reaches.trans {s u v : State} (h : Reaches s u) (h' : Reaches u v) : Reaches s v := by
  obtain ⟨a, ha⟩ := h
  obtain ⟨b, hb⟩ := h'
  exact ⟨a + b, by rw [run_add a b s u ha, hb]⟩

/-- A run of one step. -/
theorem Reaches.one {s t : State} (h : step s = .next t) : Reaches s t := ⟨1, by simp [run, h]⟩

/-- One step, then a run. -/
theorem Reaches.head {s t u : State} (h : step s = .next t) (h' : Reaches t u) : Reaches s u :=
  (Reaches.one h).trans h'

end Sys2Proof.Machine
end

