-- ==== Sys2Proof/Laws/Procedures.lean ====
section
/-! SUPPORT. What each procedure does when it runs to its end: `WaitReady`, `SciWrite`, `SciRead`, `Chunk`, `Stream`
(40_line_and_gate.md R74, 41_register_protocol.md R82, R83, 42_streaming_protocol.md R88, R89). -/

namespace Sys2Proof.Machine

/-- One more of the same in front, or behind. -/
theorem cons_replicate_append {α} (j : Nat) (x : α) (l : List α) :
    x :: (List.replicate j x ++ l) = List.replicate j x ++ x :: l := by
  rw [← List.cons_append, ← List.replicate_succ, List.replicate_succ', List.append_assoc, List.singleton_append]

/-- The state after a wait of `j` busy polls and one ready poll, in the caller. -/
def waited (j : Nat) (s : State) : State :=
  { s with
    npoll := j, b := true, events := (waitTrace j).reverse ++ s.events,
    flowScript := s.flowScript.drop (j + 1), pollCount := s.pollCount + (j + 1) }

/-- The answers after a wait. -/
theorem waited_flowAt (j k : Nat) (s : State) : (waited j s).flowAt k = s.flowAt (j + 1 + k) := by
  simp only [State.flowAt, waited, List.getElem?_drop]
  cases s.flowScript[j+1+k]? <;> simp [Nat.add_assoc]

/-- A wait takes no reply byte. -/
theorem waited_replyAt (j k : Nat) (s : State) : (waited j s).replyAt k = s.replyAt k := rfl

/-- The loop of `WaitReady` (R74 lines 2 to 6), entered with `NPOLL` = `m`. -/
theorem waitReady_loop (j : Nat) : ∀ (m : Nat) (s : State) (fs : List Frame), s.pc = ⟨.waitReady, 2, 0⟩ :: fs → s.resetIn = false →
    s.npoll = m → (∀ k, k < j → s.flowAt k = false) → s.flowAt j = true → (∀ l, s.cfg.pollLimit = some l → m + j < l) →
    Reaches s { waited j s with pc := fs, npoll := m + j } := by
  induction j with
  | zero =>
    intro m s fs hp hr hm _ hj hl
    have h1 : step s = .next { flowReady s with pc := ⟨.waitReady, 3, 0⟩ :: fs } := by
      simp [step, sequence, hr, hp, runLine, lineOf, waitReadyLine, runAct, exec, execPoll, andThen, afterMicro, keep, goTo]
    refine .head h1 (.one ?_)
    simp [step, sequence, hr, runLine, lineOf, waitReadyLine, runAct, hj, perform, leave, waited, waitTrace, flowReady, emit, ← hm]
  | succ j ih =>
    intro m s fs hp hr hm hb hj hl
    have h0 := hb 0 (by omega)
    have h1 : step s = .next { flowReady s with pc := ⟨.waitReady, 3, 0⟩ :: fs } := by
      simp [step, sequence, hr, hp, runLine, lineOf, waitReadyLine, runAct, exec, execPoll, andThen, afterMicro, keep, goTo]
    have h2 : step { flowReady s with pc := ⟨.waitReady, 3, 0⟩ :: fs } = .next { flowReady s with pc := ⟨.waitReady, 4, 0⟩ :: fs } := by
      simp [step, sequence, hr, runLine, lineOf, waitReadyLine, runAct, h0, perform, goTo]
    have h3 : step { flowReady s with pc := ⟨.waitReady, 4, 0⟩ :: fs } = .next { flowReady s with pc := ⟨.waitReady, 5, 0⟩ :: fs, npoll := m + 1 } := by
      simp [step, sequence, hr, runLine, lineOf, waitReadyLine, runAct, perform, goTo, hm]
    have hlim : limitReached s.cfg.pollLimit (m + 1) = false := by
      cases h : s.cfg.pollLimit with
      | none => rfl
      | some l => have := hl l h; simp [limitReached]; omega
    have h4 : step { flowReady s with pc := ⟨.waitReady, 5, 0⟩ :: fs, npoll := m + 1 } = .next { flowReady s with pc := ⟨.waitReady, 6, 0⟩ :: fs, npoll := m + 1 } := by
      simp [step, sequence, hr, runLine, lineOf, waitReadyLine, runAct, perform, goTo, hlim]
    have h5 : step { flowReady s with pc := ⟨.waitReady, 6, 0⟩ :: fs, npoll := m + 1 } = .next { flowReady s with pc := ⟨.waitReady, 2, 0⟩ :: fs, npoll := m + 1 } := by
      simp [step, sequence, hr, runLine, lineOf, waitReadyLine, runAct, perform, goTo]
    refine .head h1 (.head h2 (.head h3 (.head h4 (.head h5 ?_))))
    have := ih (m + 1) { flowReady s with pc := ⟨.waitReady, 2, 0⟩ :: fs, npoll := m + 1 } fs rfl hr rfl
      (fun k hk => by
        change (flowReady s).flowAt k = _
        rw [flowReady_flowAt]; exact hb _ (by omega)) 
      (by 
        change (flowReady s).flowAt j = _
        rw [flowReady_flowAt]; exact hj) (fun l h => by have := hl l h; omega)
    convert this using 1
    have e : (waitTrace (j + 1)).reverse ++ s.events = (waitTrace j).reverse ++ Event.poll false :: s.events := by
      simp [waitTrace, List.replicate_succ, cons_replicate_append]
    have d : s.flowScript.drop (j + 1 + 1) = s.flowScript.tail.drop (j + 1) := by simp [← List.drop_one, List.drop_drop, Nat.add_comm]
    simp only [waited, flowReady, emit, h0, e, d, Nat.add_assoc, Nat.add_comm 1]

/-- A wait that reads busy `j` times and then ready (R74). -/
theorem waitReady_run (j : Nat) (s : State) (fs : List Frame) (hp : s.pc = ⟨.waitReady, 1, 0⟩ :: fs) (hr : s.resetIn = false)
    (h : ReadyAfter j s) : Reaches s { waited j s with pc := fs } := by
  have h1 : step s = .next { s with npoll := 0, pc := ⟨.waitReady, 2, 0⟩ :: fs } := by
    simp [step, sequence, hr, hp, runLine, lineOf, waitReadyLine, runAct, perform, goTo]
  refine .head h1 ?_
  have := waitReady_loop j 0 { s with npoll := 0, pc := ⟨.waitReady, 2, 0⟩ :: fs } fs rfl hr rfl h.1 h.2.1 (by simpa using h.2.2)
  simpa [waited] using this

/-- `SciWrite(a, v)` (R82): the wait, then the frame of R53. -/
theorem sciWrite_run (a : RegAddr) (v : Half) (j : Nat) (s : State) (fs : List Frame)
    (hp : s.pc = ⟨.sciWrite a v, 1, 0⟩ :: fs) (hr : s.resetIn = false) (h : ReadyAfter j s) :
    ∃ u, exec (.sciWriteFrame a v) (waited j { s with addr := a, data := v, pc := fs }) = .next u ∧ Reaches s u := by
  refine ⟨_, rfl, ?_⟩
  let s1 : State := { s with addr := a, data := v, pc := ⟨.waitReady, 1, 0⟩ :: ⟨.sciWrite a v, 3, 0⟩ :: fs }
  have h1 : run 2 s = .next s1 := by
    simp [run, step, sequence, hr, hp, runLine, lineOf, sciWriteLine, runAct, perform, goTo, call, s1]
  refine .trans ⟨2, h1⟩ (.trans (waitReady_run j s1 _ rfl hr h) ⟨7, ?_⟩)
  simp [run, step, sequence, hr, runLine, lineOf, sciWriteLine, runAct, exec, execCsa, execCsd, execXchg, andThen, perform,
    goTo, afterMicro, keep, leave, waited, s1, assertCs, deassertCs, exchange, emit, State.replyAt]

/-- `SciRead(a)` (R83): the wait, then the frame of R54 with the dummy byte twice. -/
theorem sciRead_run (a : RegAddr) (j : Nat) (s : State) (fs : List Frame)
    (hp : s.pc = ⟨.sciRead a, 1, 0⟩ :: fs) (hr : s.resetIn = false) (h : ReadyAfter j s) :
    ∃ u, exec (.sciReadFrame a s.cfg.dummyByte s.cfg.dummyByte) (waited j { s with addr := a, pc := fs }) = .next u ∧
      Reaches s u := by
  refine ⟨_, rfl, ?_⟩
  let s1 : State := { s with addr := a, pc := ⟨.waitReady, 1, 0⟩ :: ⟨.sciRead a, 3, 0⟩ :: fs }
  have h1 : run 2 s = .next s1 := by
    simp [run, step, sequence, hr, hp, runLine, lineOf, sciReadLine, runAct, perform, goTo, call, s1]
  refine .trans ⟨2, h1⟩ (.trans (waitReady_run j s1 _ rfl hr h) ⟨8, ?_⟩)
  simp [run, step, sequence, hr, runLine, lineOf, sciReadLine, runAct, exec, execCsa, execCsd, execXchg, andThen, perform,
    goTo, afterMicro, keep, leave, waited, s1, assertCs, deassertCs, exchange, emit, State.replyAt]

/-- The bytes a chunk still has to send are in the list `xs`. -/
abbrev Bytes (f : Source) (k : Nat) (xs : List Byte) (s : State) : Prop :=
  ∀ m (h : m < xs.length), sourceByte f (k + m) s = some xs[m]

/-- The exchanges do not look at `pc` or `I`. -/
theorem exchangeAll_pc_i (xs : List Byte) (s : State) (p : List Frame) (k : BitVec 6) :
    exchangeAll xs { s with pc := p, i := k } = { exchangeAll xs s with pc := p, i := k } := by
  induction xs generalizing s with
  | nil => rfl
  | cons x xs ih => exact ih (exchange x s)

/-- The source of a chunk does not look at `pc`. -/
theorem sourceByte_pc (f : Source) (k : Nat) (s : State) (p : List Frame) :
    sourceByte f k { s with pc := p } = sourceByte f k s := by
  cases f <;> rfl

/-- The loop of `Chunk` (R88 lines 4 to 6). -/
theorem chunk_loop (f : Source) (n : Nat) (fs : List Frame) (xs : List Byte) : ∀ (k : Nat) (s : State),
    s.pc = ⟨.chunk f n, 4, 0⟩ :: fs → s.resetIn = false → s.i = BitVec.ofNat 6 k → s.n.toNat = k + xs.length → Bytes f k xs s →
    Reaches s { exchangeAll xs s with pc := ⟨.chunk f n, 7, 0⟩ :: fs, i := BitVec.ofNat 6 (k + xs.length) } := by
  induction xs with
  | nil =>
    intro k s hp hr hi hn _
    have hk : k < 64 := by have := s.n.isLt; simp at hn; omega
    have hge : ¬ BitVec.ofNat 6 k < s.n := by
      rw [BitVec.lt_def, BitVec.toNat_ofNat, hn]; simp; omega
    refine .one ?_
    simp [step, sequence, hr, hp, runLine, lineOf, chunkLine, runAct, hge, hi, perform, goTo, exchangeAll]
  | cons x xs ih =>
    intro k s hp hr hi hn hb
    have hk : k + xs.length + 1 < 64 := by have := s.n.isLt; simp at hn; omega
    have hik : s.i.toNat = k := by rw [hi, BitVec.toNat_ofNat]; omega
    have hlt : s.i < s.n := by rw [BitVec.lt_def, hik, hn]; simp
    have hx := hb 0 (by simp)
    simp only [Nat.add_zero, List.getElem_cons_zero] at hx
    have h1 : step s = .next { s with pc := ⟨.chunk f n, 5, 0⟩ :: fs } := by
      simp [step, sequence, hr, hp, runLine, lineOf, chunkLine, runAct, hlt, perform, goTo]
    have hl : lineOf ⟨.chunk f n, 5, 0⟩ { s with pc := ⟨.chunk f n, 5, 0⟩ :: fs } = .micro (.xchg x) .discard 6 0 := by
      simp only [lineOf, chunkLine]
      rw [sourceByte_pc, hik, hx]
    have h2 : step { s with pc := ⟨.chunk f n, 5, 0⟩ :: fs } = .next { exchange x s with pc := ⟨.chunk f n, 6, 0⟩ :: fs } :=
      step_micro (s := { s with pc := ⟨.chunk f n, 5, 0⟩ :: fs }) (t := exchange x { s with pc := ⟨.chunk f n, 5, 0⟩ :: fs })
        hr rfl hl rfl
    have hi1 : s.i + 1 = BitVec.ofNat 6 (k + 1) := by rw [hi, BitVec.ofNat_add]; rfl
    have h3 : step { exchange x s with pc := ⟨.chunk f n, 6, 0⟩ :: fs } =
        .next { exchange x s with pc := ⟨.chunk f n, 4, 0⟩ :: fs, i := s.i + 1 } := by
      simp [step, sequence, hr, runLine, lineOf, chunkLine, runAct, perform, goTo]
    rw [hi1] at h3
    refine .head h1 (.head h2 (.head h3 ?_))
    have := ih (k + 1) { exchange x s with pc := ⟨.chunk f n, 4, 0⟩ :: fs, i := BitVec.ofNat 6 (k + 1) } rfl hr rfl
      (by simp [hn]; omega) (fun m hm => by
        have := hb (m + 1) (by simpa using hm)
        rw [List.getElem_cons_succ] at this
        rw [Nat.add_assoc, Nat.add_comm 1, ← this]
        cases f <;> rfl)
    rw [exchangeAll_pc_i] at this
    have e : k + 1 + xs.length = k + (x :: xs).length := by simp; omega
    rw [e] at this
    exact this

/-- Lines 7 and 8 of `Chunk` (R88). -/
theorem chunk_end (f : Source) (n : Nat) (k : BitVec 6) (fs : List Frame) (e : State) (hr : e.resetIn = false) :
    run 2 { e with pc := ⟨.chunk f n, 7, 0⟩ :: fs, i := k } = .next (deassertDs { e with pc := fs, i := k }) := by
  simp [run, step, sequence, hr, runLine, lineOf, chunkLine, runAct, exec, execDsd, andThen, afterMicro, keep, goTo,
    perform, leave, deassertDs, emit]

/-- `Chunk(f, n)` (R88): the wait, then the frame of R55. -/
theorem chunk_run (f : Source) (xs : List Byte) (j : Nat) (s : State) (fs : List Frame)
    (hp : s.pc = ⟨.chunk f xs.length, 1, 0⟩ :: fs) (hr : s.resetIn = false) (h : ReadyAfter j s) (hb : Bytes f 0 xs s)
    (hlen : xs.length ≤ 32) :
    ∃ u, exec (.sdiChunkFrame xs) (waited j { s with n := BitVec.ofNat 6 xs.length, i := BitVec.ofNat 6 xs.length, pc := fs }) = .next u ∧
      Reaches s u := by
  refine ⟨_, by simp only [exec, execSdiChunkFrame, chunkMax, hlen, if_true]; rfl, ?_⟩
  let s1 : State := { s with n := BitVec.ofNat 6 xs.length, i := 0, pc := ⟨.waitReady, 1, 0⟩ :: ⟨.chunk f xs.length, 3, 0⟩ :: fs }
  have h1 : run 2 s = .next s1 := by
    simp [run, step, sequence, hr, hp, runLine, lineOf, chunkLine, runAct, perform, goTo, call, s1]
  let s2 : State := { waited j s1 with pc := ⟨.chunk f xs.length, 3, 0⟩ :: fs }
  let s3 : State := { assertDs s2 with pc := ⟨.chunk f xs.length, 4, 0⟩ :: fs }
  have h3 : step s2 = .next s3 := by
    simp [step, sequence, hr, runLine, lineOf, chunkLine, runAct, exec, execDsa, andThen, afterMicro, keep, goTo, s3, s2,
      waited, s1]
  have h4 := chunk_loop f xs.length fs xs 0 s3 rfl hr rfl (by simp [s3, s2, waited, s1]; omega) (fun m hm => by
    rw [← hb m hm]; cases f <;> rfl)
  have hE : (exchangeAll xs s3).resetIn = false := by
    obtain ⟨evs, sc, c, rp, he⟩ := exchangeAll_keeps xs s3
    rw [he]
    exact hr
  have h5 := chunk_end f xs.length (BitVec.ofNat 6 xs.length) fs (exchangeAll xs s3) hE
  rw [← exchangeAll_pc_i xs s3 fs (BitVec.ofNat 6 xs.length)] at h5
  rw [Nat.zero_add] at h4
  exact .trans ⟨2, h1⟩ (.trans (waitReady_run j s1 _ rfl hr h) (.head h3 (.trans h4 ⟨2, h5⟩)))

/-- What a procedure that ran to its end has done: the events it has put on the trace (outbound side), how many draws it has
taken, and what it has left as it was. -/
structure Sent (s u : State) (sent : List Event) (polls xchgs : Nat) : Prop where
  trace : ∃ more, u.trace = s.trace ++ more ∧ more.map Event.outbound = sent
  flow : ∀ k, u.flowAt k = s.flowAt (polls + k)
  reply : ∀ k, u.replyAt k = s.replyAt (xchgs + k)
  lines : u.cs = s.cs ∧ u.ds = s.ds ∧ u.rst = s.rst ∧ u.speed = s.speed
  command : u.cmd = s.cmd ∧ u.bufBase = s.bufBase ∧ u.bufLen = s.bufLen
  flags : u.busy = s.busy ∧ u.err = s.err ∧ u.result = s.result ∧ u.responses = s.responses
  outside : u.port = s.port ∧ u.hostbuf = s.hostbuf ∧ u.resetIn = s.resetIn ∧ u.cfg = s.cfg
  registers : u.fill = s.fill ∧ u.base = s.base ∧ u.bud = s.bud ∧ u.tmp = s.tmp

/-- The registers of `Stream` and `Chunk` as they were. -/
abbrev KeepsTransfer (s u : State) : Prop :=
  u.rem = s.rem ∧ u.off = s.off ∧ u.n = s.n ∧ u.i = s.i ∧ u.size = s.size

/-- The registers of `SciWrite` and `SciRead` as they were. -/
abbrev KeepsRegisterFrame (s u : State) : Prop := u.addr = s.addr ∧ u.data = s.data

/-- Two procedures, one after the other. -/
theorem Sent.trans {s u v : State} {a b : List Event} {p q x y : Nat} (h : Sent s u a p x) (h' : Sent u v b q y) :
    Sent s v (a ++ b) (p + q) (x + y) where
  trace := by
    obtain ⟨m, hm, rfl⟩ := h.trace
    obtain ⟨m', hm', rfl⟩ := h'.trace
    exact ⟨m ++ m', by rw [hm', hm, List.append_assoc], by rw [List.map_append]⟩
  flow k := by rw [h'.flow, h.flow, Nat.add_assoc]
  reply k := by rw [h'.reply, h.reply, Nat.add_assoc]
  lines := by have := h.lines; have := h'.lines; simp_all
  command := by have := h.command; have := h'.command; simp_all
  flags := by have := h.flags; have := h'.flags; simp_all
  outside := by have := h.outside; have := h'.outside; simp_all
  registers := by have := h.registers; have := h'.registers; simp_all

/-- A wait has no reply bytes. -/
@[simp] theorem waitTrace_outbound (j : Nat) : (waitTrace j).map Event.outbound = waitTrace j := by
  simp [waitTrace, Event.outbound]

/-- `WaitReady` (R74). -/
theorem waitReady_sent (j : Nat) (s : State) (fs : List Frame) (hp : s.pc = ⟨.waitReady, 1, 0⟩ :: fs) (hr : s.resetIn = false)
    (h : ReadyAfter j s) : ∃ u, Reaches s u ∧ u.pc = fs ∧ Sent s u (waitTrace j) (j + 1) 0 ∧
      KeepsTransfer s u ∧ KeepsRegisterFrame s u := by
  refine ⟨_, waitReady_run j s fs hp hr h, rfl, ?_, ⟨rfl, rfl, rfl, rfl, rfl⟩, rfl, rfl⟩
  exact
    { trace := ⟨waitTrace j, by simp [State.trace, waited], by simp⟩
      flow := fun k => waited_flowAt j k s
      reply := fun k => by rw [Nat.zero_add]; rfl
      lines := ⟨rfl, rfl, rfl, rfl⟩
      command := ⟨rfl, rfl, rfl⟩
      flags := ⟨rfl, rfl, rfl, rfl⟩
      outside := ⟨rfl, rfl, rfl, rfl⟩
      registers := ⟨rfl, rfl, rfl, rfl⟩ }

/-- The reply bytes after `n` exchanges. -/
theorem replyAt_of_drop (s u : State) (n : Nat) (h1 : u.replyScript = s.replyScript.drop n) (h2 : u.xchgCount = s.xchgCount + n)
    (k : Nat) : u.replyAt k = s.replyAt (n + k) := by
  simp only [State.replyAt, h1, h2, List.getElem?_drop]
  cases s.replyScript[n + k]? <;> simp [Nat.add_assoc]

/-- `SciWrite(a, v)` (R82). -/
theorem sciWrite_sent (a : RegAddr) (v : Half) (j : Nat) (s : State) (fs : List Frame)
    (hp : s.pc = ⟨.sciWrite a v, 1, 0⟩ :: fs) (hr : s.resetIn = false) (hc : s.cs = false) (h : ReadyAfter j s) :
    ∃ u, Reaches s u ∧ u.pc = fs ∧ Sent s u (waitTrace j ++ writeFrame a v) (j + 1) 4 ∧
      KeepsTransfer s u := by
  obtain ⟨u, hu, hre⟩ := sciWrite_run a v j s fs hp hr h
  simp only [exec, execSciWriteFrame, Host.Outcome.next.injEq] at hu
  subst hu
  refine ⟨_, hre, rfl, ?_, rfl, rfl, rfl, rfl, rfl⟩
  exact
    { trace := ⟨waitTrace j ++ [.csOn, .xchg opWrite (s.replyAt 0), .xchg (addrByte a) (s.replyAt 1),
          .xchg (hiByte v) (s.replyAt 2), .xchg (loByte v) (s.replyAt 3), .csOff],
        by simp [State.trace, waited, State.replyAt, Nat.add_assoc], by
        simp [Event.outbound, writeFrame, opWrite, addrByte, addressByte, hiByte, loByte]⟩
      flow := fun k => waited_flowAt j k s
      reply := fun k => replyAt_of_drop s _ 4 (by simp [waited, ← List.drop_one, List.drop_drop]) (by simp [waited]) k
      lines := ⟨hc.symm, rfl, rfl, rfl⟩
      command := ⟨rfl, rfl, rfl⟩
      flags := ⟨rfl, rfl, rfl, rfl⟩
      outside := ⟨rfl, rfl, rfl, rfl⟩
      registers := ⟨rfl, rfl, rfl, rfl⟩ }

/-- `SciRead(a)` (R83). -/
theorem sciRead_sent (a : RegAddr) (j : Nat) (s : State) (fs : List Frame)
    (hp : s.pc = ⟨.sciRead a, 1, 0⟩ :: fs) (hr : s.resetIn = false) (hc : s.cs = false) (h : ReadyAfter j s) :
    ∃ u, Reaches s u ∧ u.pc = fs ∧ Sent s u (waitTrace j ++ readFrame a s.cfg.dummyByte) (j + 1) 4 ∧
      u.data = s.replyAt 2 ++ s.replyAt 3 ∧ KeepsTransfer s u := by
  obtain ⟨u, hu, hre⟩ := sciRead_run a j s fs hp hr h
  simp only [exec, execSciReadFrame, Host.Outcome.next.injEq] at hu
  subst hu
  refine ⟨_, hre, rfl, ?_, by simp [joinBytes, State.replyAt, waited, Nat.add_assoc], rfl, rfl, rfl, rfl, rfl⟩
  exact
    { trace := ⟨waitTrace j ++ [.csOn, .xchg opRead (s.replyAt 0), .xchg (addrByte a) (s.replyAt 1),
          .xchg s.cfg.dummyByte (s.replyAt 2), .xchg s.cfg.dummyByte (s.replyAt 3), .csOff],
        by simp [State.trace, waited, State.replyAt, Nat.add_assoc], by
        simp [Event.outbound, readFrame, opRead, addrByte, addressByte]⟩
      flow := fun k => waited_flowAt j k s
      reply := fun k => replyAt_of_drop s _ 4 (by simp [waited, ← List.drop_one, List.drop_drop]) (by simp [waited]) k
      lines := ⟨hc.symm, rfl, rfl, rfl⟩
      command := ⟨rfl, rfl, rfl⟩
      flags := ⟨rfl, rfl, rfl, rfl⟩
      outside := ⟨rfl, rfl, rfl, rfl⟩
      registers := ⟨rfl, rfl, rfl, rfl⟩ }

/-- The exchanges of a data frame: trace and draws. -/
theorem exchangeAll_sent (xs : List Byte) (s : State) :
    (∃ more : List Event, (exchangeAll xs s).events = more.reverse ++ s.events ∧
      more.map Event.outbound = xs.map fun x => Event.xchg x 0) ∧
    (exchangeAll xs s).replyScript = s.replyScript.drop xs.length ∧
    (exchangeAll xs s).xchgCount = s.xchgCount + xs.length := by
  induction xs generalizing s with
  | nil => exact ⟨⟨[], rfl, rfl⟩, rfl, rfl⟩
  | cons x xs ih =>
    obtain ⟨⟨m, h1, h2⟩, h3, h4⟩ := ih (exchange x s)
    refine ⟨⟨.xchg x (s.replyAt 0) :: m, ?_, ?_⟩, ?_, ?_⟩
    · simp [exchangeAll, h1]
    · simp [Event.outbound, h2]
    · simp [exchangeAll, h3, ← List.drop_one, List.drop_drop, Nat.add_comm]
    · simp [exchangeAll, h4]; omega

/-- `Chunk(f, n)` (R88). -/
theorem chunk_sent (f : Source) (xs : List Byte) (j : Nat) (s : State) (fs : List Frame)
    (hp : s.pc = ⟨.chunk f xs.length, 1, 0⟩ :: fs) (hr : s.resetIn = false) (hd : s.ds = false) (h : ReadyAfter j s)
    (hb : Bytes f 0 xs s) (hlen : xs.length ≤ 32) :
    ∃ u, Reaches s u ∧ u.pc = fs ∧ Sent s u (waitTrace j ++ chunkFrame xs) (j + 1) xs.length ∧
      u.off = s.off ∧ u.rem = s.rem ∧ u.size = s.size ∧ KeepsRegisterFrame s u := by
  obtain ⟨u, hu, hre⟩ := chunk_run f xs j s fs hp hr h hb hlen
  simp only [exec, execSdiChunkFrame, chunkMax, hlen, if_true, Host.Outcome.next.injEq] at hu
  subst hu
  obtain ⟨evs, sc, c, rp, he⟩ := exchangeAll_keeps xs (assertDs (waited j { s with n := BitVec.ofNat 6 xs.length, i := BitVec.ofNat 6 xs.length, pc := fs }))
  obtain ⟨⟨m, h1, h2⟩, h3, h4⟩ := exchangeAll_sent xs (assertDs (waited j { s with n := BitVec.ofNat 6 xs.length, i := BitVec.ofNat 6 xs.length, pc := fs }))
  rw [he] at h1 h3 h4 hre
  refine ⟨_, hre, rfl, ?_, rfl, rfl, rfl, rfl, rfl⟩
  simp only [assertDs_replyScript, assertDs_xchgCount, assertDs_events] at h1 h3 h4
  subst h1 h3 h4
  exact
    { trace := ⟨waitTrace j ++ .dsOn :: m ++ [.dsOff], by simp [State.trace, waited], by
        simp [Event.outbound, chunkFrame, h2]⟩
      flow := fun k => waited_flowAt j k s
      reply := fun k => replyAt_of_drop s _ xs.length (by simp [waited]) (by simp [waited]) k
      lines := ⟨rfl, hd.symm, rfl, rfl⟩
      command := ⟨rfl, rfl, rfl⟩
      flags := ⟨rfl, rfl, rfl, rfl⟩
      outside := ⟨rfl, rfl, rfl, rfl⟩
      registers := ⟨rfl, rfl, rfl, rfl⟩ }

/-- Enough fuel is enough. -/
theorem splitChunks_fuel (a : Nat) : ∀ (b : Nat) (xs : List Byte), xs.length ≤ a → xs.length ≤ b →
    splitChunks a xs = splitChunks b xs := by
  induction a with
  | zero =>
    intro b xs ha _
    obtain rfl : xs = [] := List.eq_nil_of_length_eq_zero (by omega)
    cases b <;> rfl
  | succ a ih =>
    intro b xs ha hb
    cases xs with
    | nil => cases b <;> rfl
    | cons x xs =>
      cases b with
      | zero => simp at hb
      | succ b =>
        simp only [List.length_cons] at ha hb
        simp only [splitChunks]
        rw [ih b _ (by simp; omega) (by simp; omega)]

/-- No byte, no chunk (R94). -/
@[simp] theorem streamBodies_nil : streamBodies [] = [] := rfl

/-- A transfer is its first chunk and then the rest (R89, R93). -/
theorem streamBodies_step (xs : List Byte) (h : xs ≠ []) :
    streamBodies xs = chunkFrame (xs.take 32) :: streamBodies (xs.drop 32) := by
  cases xs with
  | nil => exact absurd rfl h
  | cons x xs =>
    simp only [streamBodies, List.length_cons, splitChunks, List.map_cons]
    rw [splitChunks_fuel xs.length ((x :: xs).drop 32).length _ (by simp) (by simp)]

/-- The number of chunks, one chunk at a time. -/
theorem chunkCount_step (n : Nat) (h : 0 < n) : chunkCount n = 1 + chunkCount (n - 32) := by
  unfold chunkCount; omega

/-- A transfer with no chunk has no byte. -/
theorem eq_nil_of_chunkCount (xs : List Byte) (h : chunkCount xs.length = 0) : xs = [] := by
  cases xs with
  | nil => rfl
  | cons x xs => simp [chunkCount] at h; omega

/-- The bytes of a source do not change where fill byte, base and buffer do not. -/
theorem sourceByte_congr (f : Source) (k : Nat) (s u : State) (h1 : u.fill = s.fill) (h2 : u.base = s.base)
    (h3 : u.hostbuf = s.hostbuf) : sourceByte f k u = sourceByte f k s := by
  cases f <;> simp [sourceByte, h1, h2, h3]

/-- A source moved on by `o`. -/
theorem sourceByte_shift (f : Source) (o k : Nat) (s : State) :
    sourceByte (f.shift o) k s = sourceByte f (o + k) s := by
  cases f <;> simp [sourceByte, Source.shift, Nat.add_assoc]

/-- A length below 2^`LEN_W` is what a length register holds of it. -/
theorem fitLen_of_lt (c : Config) (x : Nat) (h : x < 2 ^ c.lenW) : c.fitLen x = x := Nat.mod_eq_of_lt h

/-- A procedure that ran to its end did nothing where it left all but `pc` as it was. -/
theorem Sent.refl (s : State) (p : List Frame) : Sent s { s with pc := p } [] 0 0 :=
  ⟨⟨[], by simp [State.trace], rfl⟩, fun k => by rw [Nat.zero_add]; rfl, fun k => by rw [Nat.zero_add]; rfl,
    ⟨rfl, rfl, rfl, rfl⟩, ⟨rfl, rfl, rfl⟩, ⟨rfl, rfl, rfl, rfl⟩, ⟨rfl, rfl, rfl, rfl⟩, ⟨rfl, rfl, rfl, rfl⟩⟩

/-- `Stream` at a loop test (R89 line 2) with the bytes `xs` still to send. -/
structure Streaming (f : Source) (len : Nat) (fs : List Frame) (xs : List Byte) (s : State) : Prop where
  pc : s.pc = ⟨.stream f len, 2, 0⟩ :: fs
  reset : s.resetIn = false
  ds : s.ds = false
  rem : s.rem = xs.length
  fits : s.off + xs.length < 2 ^ s.cfg.lenW
  bytes : Bytes f s.off xs s

/-- Lines 2 to 4 of `Stream` with a byte left (R89): the chunk is called. -/
theorem Streaming.call {f : Source} {len : Nat} {fs : List Frame} {xs : List Byte} {s : State} (h : Streaming f len fs xs s)
    (hpos : 0 < xs.length) :
    run 3 s = .next { s with
      size := (xs.take 32).length,
      pc := ⟨.chunk (f.shift s.off) (xs.take 32).length, 1, 0⟩ :: ⟨.stream f len, 5, 0⟩ :: fs } := by
  simp [run, step, sequence, h.reset, h.pc, runLine, lineOf, streamLine, runAct, h.rem, hpos, perform, goTo, Machine.call,
    chunkMax]

/-- The bytes of the called chunk. -/
theorem Streaming.chunkBytes {f : Source} {len : Nat} {fs : List Frame} {xs : List Byte} {s : State}
    (h : Streaming f len fs xs s) (p : List Frame) (z : Nat) :
    Bytes (f.shift s.off) 0 (xs.take 32) { s with size := z, pc := p } := by
  intro m hm
  rw [sourceByte_shift, Nat.zero_add, List.getElem_take]
  have := h.bytes m (by simp at hm; omega)
  rw [← this]
  cases f <;> rfl

/-- One round of `Stream` (R89 lines 2 to 6): the gate after `j` busy polls, a chunk, the counters moved on. -/
theorem Streaming.round {f : Source} {len : Nat} {fs : List Frame} {xs : List Byte} {s : State} (h : Streaming f len fs xs s)
    (hpos : 0 < xs.length) (j : Nat) (hj : ReadyAfter j s) :
    ∃ v, Reaches s v ∧ Streaming f len fs (xs.drop 32) v ∧
      Sent s v (waitTrace j ++ chunkFrame (xs.take 32)) (j + 1) (xs.take 32).length ∧ KeepsRegisterFrame s v := by
  have htake : (xs.take 32).length = min 32 xs.length := by simp
  obtain ⟨u, hu, hupc, hus, huo, hur, huz, huk⟩ := chunk_sent (f.shift s.off) (xs.take 32) j
    { s with size := (xs.take 32).length, pc := ⟨.chunk (f.shift s.off) (xs.take 32).length, 1, 0⟩ :: ⟨.stream f len, 5, 0⟩ :: fs }
    (⟨.stream f len, 5, 0⟩ :: fs) rfl h.reset h.ds hj (h.chunkBytes _ _) (by simp)
  replace huo : u.off = s.off := huo
  replace hur : u.rem = xs.length := hur.trans h.rem
  replace huz : u.size = (xs.take 32).length := huz
  have hurst : u.resetIn = false := hus.outside.2.2.1.trans h.reset
  have hcfg : u.cfg = s.cfg := hus.outside.2.2.2
  have hfit : u.cfg.fitLen (u.off + u.size) = s.off + (xs.take 32).length := by
    rw [fitLen_of_lt, huo, huz]
    rw [huo, huz, hcfg, htake]
    exact Nat.lt_of_le_of_lt (by omega) h.fits
  have h2 : run 2 u = .next { u with
      off := s.off + (xs.take 32).length, rem := (xs.drop 32).length, pc := ⟨.stream f len, 2, 0⟩ :: fs } := by
    have hrem : u.rem - u.size = (xs.drop 32).length := by
      rw [hur, huz, htake, List.length_drop]; omega
    simp [run, step, sequence, hurst, hupc, runLine, lineOf, streamLine, runAct, perform, goTo, hfit, hrem]
  refine ⟨_, .trans ⟨3, h.call hpos⟩ (.trans hu ⟨2, h2⟩), ⟨rfl, hurst, hus.lines.2.1.trans h.ds, rfl, ?_, ?_⟩,
    ⟨hus.trace, hus.flow, hus.reply, hus.lines, hus.command, hus.flags, hus.outside, hus.registers⟩, huk⟩
  · have := h.fits
    rw [← hcfg] at this
    refine Nat.lt_of_le_of_lt ?_ this
    change s.off + (xs.take 32).length + (xs.drop 32).length ≤ _
    rw [htake, List.length_drop]
    omega
  · intro m hm
    have hm' : 32 + m < xs.length := by rw [List.length_drop] at hm; omega
    have := h.bytes (32 + m) hm'
    rw [List.getElem_drop, ← this]
    refine (sourceByte_congr f _ s _ hus.registers.1 hus.registers.2.1 hus.outside.2.1).trans ?_
    have ei : s.off + (xs.take 32).length + m = s.off + (32 + m) := by rw [htake]; clear hm; omega
    exact congrArg (fun k => sourceByte f k s) ei

/-- The first `m` rounds of `Stream` (R89 lines 2 to 6), gate `g` passing after `js g` busy polls. -/
theorem stream_rounds (f : Source) (len : Nat) (fs : List Frame) (m : Nat) : ∀ (js : Nat → Nat) (xs : List Byte) (s : State),
    Streaming f len fs xs s → m ≤ chunkCount xs.length → GatesPass m js s →
    ∃ u, Reaches s u ∧ Streaming f len fs (xs.drop (32 * m)) u ∧
      Sent s u (gatedFrom js 0 ((streamBodies xs).take m)) (gateStart js m) (min (32 * m) xs.length) ∧
      KeepsRegisterFrame s u := by
  induction m with
  | zero =>
    intro js xs s h _ _
    have e := Sent.refl s s.pc
    exact ⟨s, .refl s, by simpa using h, by simpa [gatedFrom, gateStart] using e, rfl, rfl⟩
  | succ m ih =>
    intro js xs s h hm hg
    have hpos : 0 < xs.length := by
      rcases Nat.eq_zero_or_pos xs.length with h0 | h0
      · rw [h0] at hm; simp [chunkCount] at hm
      · exact h0
    have hne : xs ≠ [] := by rintro rfl; simp at hpos
    have hstep := chunkCount_step xs.length hpos
    obtain ⟨v, hv, hvS, hvs, hvk⟩ := h.round hpos (js 0) (hg.first (by omega))
    rw [Nat.add_comm m 1] at hg
    obtain ⟨u, hu, huS, hus, huk⟩ := ih (fun g => js (1 + g)) (xs.drop 32) v hvS (by simp; omega)
      (hg.rest (fun k => by rw [hvs.flow]; simp [gateStart]) hvs.outside.2.2.2)
    refine ⟨u, hv.trans hu, ?_, ?_, huk.1.trans hvk.1, huk.2.trans hvk.2⟩
    · rw [List.drop_drop, show 32 + 32 * m = 32 * (m + 1) by omega] at huS
      exact huS
    · have e := hvs.trans hus
      rw [streamBodies_step xs hne, List.take_succ_cons, gatedFrom_cons, Nat.add_comm m 1, gateStart_add]
      have a2 : (xs.take 32).length + min (32 * m) (xs.drop 32).length = min (32 * (1 + m)) xs.length := by simp; omega
      rw [a2] at e
      simpa [gateStart] using e

/-- The number of frames of a transfer (R93). -/
theorem streamBodies_length (c : Nat) : ∀ xs : List Byte, chunkCount xs.length = c → (streamBodies xs).length = c := by
  induction c with
  | zero => intro xs h; rw [eq_nil_of_chunkCount xs h]; rfl
  | succ c ih =>
    intro xs h
    have hpos : 0 < xs.length := by
      rcases Nat.eq_zero_or_pos xs.length with h0 | h0
      · rw [h0] at h; simp [chunkCount] at h
      · exact h0
    have hstep := chunkCount_step xs.length hpos
    rw [streamBodies_step xs (by rintro rfl; simp at hpos), List.length_cons, ih _ (by simp; omega)]

/-- Line 1 of `Stream` (R89). -/
theorem stream_start (f : Source) (xs : List Byte) (s : State) (fs : List Frame)
    (hp : s.pc = ⟨.stream f xs.length, 1, 0⟩ :: fs) (hr : s.resetIn = false) (hd : s.ds = false)
    (hfit : xs.length < 2 ^ s.cfg.lenW) (hb : Bytes f 0 xs s) :
    ∃ u, Reaches s u ∧ Streaming f xs.length fs xs u ∧ Sent s u [] 0 0 ∧ KeepsRegisterFrame s u := by
  have h1 : step s = .next { s with off := 0, rem := xs.length, pc := ⟨.stream f xs.length, 2, 0⟩ :: fs } := by
    simp [step, sequence, hr, hp, runLine, lineOf, streamLine, runAct, perform, goTo, fitLen_of_lt _ _ hfit]
  refine ⟨_, .one h1, ⟨rfl, hr, hd, rfl, by simpa using hfit, fun m hm => ?_⟩, ?_, rfl, rfl⟩
  · rw [← hb m hm]; cases f <;> rfl
  · have e := Sent.refl s s.pc
    exact ⟨e.trace, e.flow, e.reply, e.lines, e.command, e.flags, e.outside, e.registers⟩

/-- `Stream(f, L)` (R89), gate `g` passing after `js g` busy polls. -/
theorem stream_sent (f : Source) (xs : List Byte) (js : Nat → Nat) (s : State) (fs : List Frame)
    (hp : s.pc = ⟨.stream f xs.length, 1, 0⟩ :: fs) (hr : s.resetIn = false) (hd : s.ds = false)
    (hfit : xs.length < 2 ^ s.cfg.lenW) (hb : Bytes f 0 xs s) (h : GatesPass (chunkCount xs.length) js s) :
    ∃ u, Reaches s u ∧ u.pc = fs ∧
      Sent s u (gatedFrom js 0 (streamBodies xs)) (gateStart js (chunkCount xs.length)) xs.length ∧
      KeepsRegisterFrame s u := by
  obtain ⟨t, ht, htS, hts, htk⟩ := stream_start f xs s fs hp hr hd hfit hb
  obtain ⟨u, hu, huS, hus, huk⟩ := stream_rounds f xs.length fs _ js xs t htS (Nat.le_refl _)
    (GatesPass.rest (d := 0) (by rwa [Nat.zero_add]) (fun k => by rw [hts.flow]; rfl) hts.outside.2.2.2 |>
      fun e => by simpa using e)
  have hle : xs.length ≤ 32 * chunkCount xs.length := by unfold chunkCount; omega
  have hrem : u.rem = 0 := by have := huS.rem; simp at this; omega
  have h2 : run 2 u = .next { u with pc := fs } := by
    simp [run, step, sequence, huS.reset, huS.pc, runLine, lineOf, streamLine, runAct, perform, leave, goTo, hrem]
  have e := hts.trans hus
  rw [List.take_of_length_le (by rw [streamBodies_length _ xs rfl]), Nat.min_eq_right hle] at e
  simp only [List.nil_append, Nat.zero_add] at e
  exact ⟨_, ht.trans (hu.trans ⟨2, h2⟩), rfl,
    ⟨e.trace, e.flow, e.reply, e.lines, e.command, e.flags, e.outside, e.registers⟩, huk.1.trans htk.1, huk.2.trans htk.2⟩

/-! ## A wait that times out (R75, R130) -/

/-- What a command has done that a failing wait has ended: `(NOT_RESPONDING, 0)` delivered, the block idle, the events it has put
on the trace (outbound side), and what it has left as it was. -/
structure Halted (s u : State) (sent : List Event) : Prop where
  trace : ∃ more, u.trace = s.trace ++ more ∧ more.map Event.outbound = sent
  idle : u.pc = [] ∧ u.busy = false
  flags : u.err = 2 ∧ u.result = 0 ∧ u.responses = ⟨2, 0⟩ :: s.responses
  lines : u.cs = s.cs ∧ u.ds = s.ds ∧ u.rst = s.rst ∧ u.speed = s.speed
  command : u.cmd = s.cmd ∧ u.bufBase = s.bufBase ∧ u.bufLen = s.bufLen
  outside : u.port = s.port ∧ u.hostbuf = s.hostbuf ∧ u.resetIn = s.resetIn ∧ u.cfg = s.cfg
  registers : u.fill = s.fill ∧ u.base = s.base ∧ u.bud = s.bud ∧ u.tmp = s.tmp

/-- A procedure that ran to its end, then the wait that ended the command. -/
theorem Sent.halted {s u v : State} {a b : List Event} {p x : Nat} (h : Sent s u a p x) (h' : Halted u v b) :
    Halted s v (a ++ b) where
  trace := by
    obtain ⟨m, hm, rfl⟩ := h.trace
    obtain ⟨m', hm', rfl⟩ := h'.trace
    exact ⟨m ++ m', by rw [hm', hm, List.append_assoc], by rw [List.map_append]⟩
  idle := h'.idle
  flags := ⟨h'.flags.1, h'.flags.2.1, by rw [h'.flags.2.2, h.flags.2.2.2]⟩
  lines := by have := h.lines; have := h'.lines; simp_all
  command := by have := h.command; have := h'.command; simp_all
  outside := by have := h.outside; have := h'.outside; simp_all
  registers := by have := h.registers; have := h'.registers; simp_all

/-- The state after `j` busy polls, at the test of the limit after the last of them. -/
theorem waitReady_busy (j : Nat) : ∀ (m : Nat) (s : State) (fs : List Frame), s.pc = ⟨.waitReady, 2, 0⟩ :: fs → s.resetIn = false →
    s.npoll = m → (∀ k, k ≤ j → s.flowAt k = false) → (∀ l, s.cfg.pollLimit = some l → m + j < l) →
    ∃ evs sc c, Reaches s
      { s with pc := ⟨.waitReady, 5, 0⟩ :: fs, npoll := m + j + 1, b := false,
               events := evs, flowScript := sc, pollCount := c } ∧
      evs = List.replicate (j + 1) (.poll false) ++ s.events := by
  induction j with
  | zero =>
    intro m s fs hp hr hm hb hl
    have h0 := hb 0 (Nat.le_refl 0)
    have h1 : run 3 s = .next { flowReady s with pc := ⟨.waitReady, 5, 0⟩ :: fs, npoll := m + 1 } := by
      simp [run, step, sequence, hr, hp, runLine, lineOf, waitReadyLine, runAct, exec, execPoll, andThen, afterMicro, keep,
        goTo, h0, perform, hm]
    exact ⟨_, _, _, ⟨3, h1.trans (by simp only [flowReady, emit, h0, Nat.add_zero]; rfl)⟩, rfl⟩
  | succ j ih =>
    intro m s fs hp hr hm hb hl
    have h0 := hb 0 (by omega)
    have hlim : limitReached s.cfg.pollLimit (m + 1) = false := by
      cases h : s.cfg.pollLimit with
      | none => rfl
      | some l => have := hl l h; simp [limitReached]; omega
    have h1 : run 5 s = .next { flowReady s with pc := ⟨.waitReady, 2, 0⟩ :: fs, npoll := m + 1 } := by
      simp [run, step, sequence, hr, hp, runLine, lineOf, waitReadyLine, runAct, exec, execPoll, andThen, afterMicro, keep,
        goTo, h0, perform, hm, hlim]
    obtain ⟨evs, sc, c, hre, he⟩ := ih (m + 1) { flowReady s with pc := ⟨.waitReady, 2, 0⟩ :: fs, npoll := m + 1 } fs rfl hr rfl
      (fun k hk => by
        change (flowReady s).flowAt k = _
        rw [flowReady_flowAt]; exact hb _ (by omega)) (fun l h => by have := hl l h; omega)
    refine ⟨evs, sc, c, .trans ⟨5, h1⟩ ?_, ?_⟩
    · simpa [flowReady, emit, Nat.add_assoc, Nat.add_comm 1] using hre
    · rw [he]
      simp [flowReady, emit, h0, List.replicate_succ, cons_replicate_append]

/-- The test of the limit where it is reached (R74 line 5, R75, R130). -/
theorem waitReady_limit (k : Nat) (t : State) (fs : List Frame) (hp : t.pc = ⟨.waitReady, 5, 0⟩ :: fs) (hr : t.resetIn = false)
    (hc : t.cs = false) (hd : t.ds = false) (hl : t.cfg.pollLimit = some k) (hk : k ≤ t.npoll) :
    step t = .next (finish .notResponding 0 t) := by
  rw [step_line t _ fs hr hp]
  simp [runLine, lineOf, waitReadyLine, hl, limitReached, hk, runAct, perform, raiseError_lines_down _ _ _ hc hd]

/-- A wait whose `k` polls all read busy ends the command (R75). -/
theorem waitReady_halted (k : Nat) (s : State) (fs : List Frame) (hp : s.pc = ⟨.waitReady, 1, 0⟩ :: fs) (hr : s.resetIn = false)
    (hc : s.cs = false) (hd : s.ds = false) (h : TimesOut k s) :
    ∃ u, Reaches s u ∧ Halted s u (List.replicate k (.poll false)) ∧ KeepsTransfer s u ∧ KeepsRegisterFrame s u := by
  obtain ⟨hl, hk, hb⟩ := h
  obtain ⟨j, rfl⟩ : ∃ j, k = j + 1 := ⟨k - 1, by omega⟩
  have h1 : step s = .next { s with npoll := 0, pc := ⟨.waitReady, 2, 0⟩ :: fs } := by
    simp [step, sequence, hr, hp, runLine, lineOf, waitReadyLine, runAct, perform, goTo]
  obtain ⟨evs, sc, c, hre, he⟩ := waitReady_busy j 0 { s with npoll := 0, pc := ⟨.waitReady, 2, 0⟩ :: fs } fs rfl hr rfl
    (fun q hq => hb q (by omega)) (fun l h' => by
      have : some (j + 1) = some l := hl.symm.trans h'
      injection this with this; omega)
  refine ⟨_, .head h1 (hre.trans (.one (waitReady_limit (j + 1) _ fs rfl hr hc hd hl (by simp)))), ?_,
    ⟨rfl, rfl, rfl, rfl, rfl⟩, rfl, rfl⟩
  subst he
  exact
      { trace := ⟨List.replicate (j + 1) (.poll false), by simp [State.trace, finish], by simp [Event.outbound]⟩
        idle := ⟨rfl, rfl⟩
        flags := ⟨rfl, rfl, rfl⟩
        lines := ⟨rfl, rfl, rfl, rfl⟩
        command := ⟨rfl, rfl, rfl⟩
        outside := ⟨rfl, rfl, rfl, rfl⟩
        registers := ⟨rfl, rfl, rfl, rfl⟩ }

/-- `SciWrite` whose wait times out. -/
theorem sciWrite_halted (a : RegAddr) (v : Half) (k : Nat) (s : State) (fs : List Frame)
    (hp : s.pc = ⟨.sciWrite a v, 1, 0⟩ :: fs) (hr : s.resetIn = false) (hc : s.cs = false) (hd : s.ds = false)
    (h : TimesOut k s) : ∃ u, Reaches s u ∧ Halted s u (List.replicate k (.poll false)) ∧ KeepsTransfer s u := by
  have h1 : run 2 s = .next { s with addr := a, data := v, pc := ⟨.waitReady, 1, 0⟩ :: ⟨.sciWrite a v, 3, 0⟩ :: fs } := by
    simp [run, step, sequence, hr, hp, runLine, lineOf, sciWriteLine, runAct, perform, goTo, call]
  obtain ⟨u, hu, hh, hk, _⟩ := waitReady_halted k
    { s with addr := a, data := v, pc := ⟨.waitReady, 1, 0⟩ :: ⟨.sciWrite a v, 3, 0⟩ :: fs } _ rfl hr hc hd h
  exact ⟨u, .trans ⟨2, h1⟩ hu, ⟨hh.trace, hh.idle, hh.flags, hh.lines, hh.command, hh.outside, hh.registers⟩, hk⟩

/-- `SciRead` whose wait times out. -/
theorem sciRead_halted (a : RegAddr) (k : Nat) (s : State) (fs : List Frame)
    (hp : s.pc = ⟨.sciRead a, 1, 0⟩ :: fs) (hr : s.resetIn = false) (hc : s.cs = false) (hd : s.ds = false)
    (h : TimesOut k s) : ∃ u, Reaches s u ∧ Halted s u (List.replicate k (.poll false)) ∧ KeepsTransfer s u := by
  have h1 : run 2 s = .next { s with addr := a, pc := ⟨.waitReady, 1, 0⟩ :: ⟨.sciRead a, 3, 0⟩ :: fs } := by
    simp [run, step, sequence, hr, hp, runLine, lineOf, sciReadLine, runAct, perform, goTo, call]
  obtain ⟨u, hu, hh, hk, _⟩ := waitReady_halted k
    { s with addr := a, pc := ⟨.waitReady, 1, 0⟩ :: ⟨.sciRead a, 3, 0⟩ :: fs } _ rfl hr hc hd h
  exact ⟨u, .trans ⟨2, h1⟩ hu, ⟨hh.trace, hh.idle, hh.flags, hh.lines, hh.command, hh.outside, hh.registers⟩, hk⟩

/-- `Chunk` whose wait times out. -/
theorem chunk_halted (f : Source) (n k : Nat) (s : State) (fs : List Frame)
    (hp : s.pc = ⟨.chunk f n, 1, 0⟩ :: fs) (hr : s.resetIn = false) (hc : s.cs = false) (hd : s.ds = false)
    (h : TimesOut k s) : ∃ u, Reaches s u ∧ Halted s u (List.replicate k (.poll false)) ∧ KeepsRegisterFrame s u := by
  have h1 : run 2 s =
      .next { s with n := BitVec.ofNat 6 n, i := 0, pc := ⟨.waitReady, 1, 0⟩ :: ⟨.chunk f n, 3, 0⟩ :: fs } := by
    simp [run, step, sequence, hr, hp, runLine, lineOf, chunkLine, runAct, perform, goTo, call]
  obtain ⟨u, hu, hh, _, hk⟩ := waitReady_halted k
    { s with n := BitVec.ofNat 6 n, i := 0, pc := ⟨.waitReady, 1, 0⟩ :: ⟨.chunk f n, 3, 0⟩ :: fs } _ rfl hr hc hd h
  exact ⟨u, .trans ⟨2, h1⟩ hu, ⟨hh.trace, hh.idle, hh.flags, hh.lines, hh.command, hh.outside, hh.registers⟩, hk⟩

/-- `Stream` whose first `m` gates pass and whose next wait times out (R89). -/
theorem stream_halted (f : Source) (xs : List Byte) (js : Nat → Nat) (m k : Nat) (s : State) (fs : List Frame)
    (hp : s.pc = ⟨.stream f xs.length, 1, 0⟩ :: fs) (hr : s.resetIn = false) (hc : s.cs = false) (hd : s.ds = false)
    (hfit : xs.length < 2 ^ s.cfg.lenW) (hb : Bytes f 0 xs s) (hm : m < chunkCount xs.length) (h : GateTimesOut m k js s) :
    ∃ u, Reaches s u ∧ Halted s u (stoppedAt m k js (streamBodies xs)) ∧ KeepsRegisterFrame s u := by
  obtain ⟨t, ht, htS, hts, htk⟩ := stream_start f xs s fs hp hr hd hfit hb
  have hflow : ∀ q, t.flowAt q = s.flowAt q := fun q => by rw [hts.flow, Nat.zero_add]
  have hcfg : t.cfg = s.cfg := hts.outside.2.2.2
  have hT : GateTimesOut m k js t := by
    have e := GateTimesOut.rest (d := 0) (u := t) (by rwa [Nat.zero_add]) (fun q => by rw [hflow]; simp [gateStart]) hcfg
    simpa using e
  obtain ⟨u, hu, huS, hus, huk⟩ := stream_rounds f xs.length fs m js xs t htS (by omega) hT.2.2.1
  have hpos : 0 < (xs.drop (32 * m)).length := by simp; unfold chunkCount at hm; omega
  have hN : TimesOut k u := (GateTimesOut.rest (d := m) (m := 0) hT hus.flow hus.outside.2.2.2).now
  obtain ⟨v, hv, hvh, hvk⟩ := chunk_halted (f.shift u.off) ((xs.drop (32 * m)).take 32).length k
    { u with size := ((xs.drop (32 * m)).take 32).length,
             pc := ⟨.chunk (f.shift u.off) ((xs.drop (32 * m)).take 32).length, 1, 0⟩ :: ⟨.stream f xs.length, 5, 0⟩ :: fs }
    _ rfl huS.reset (hus.lines.1.trans (hts.lines.1.trans hc)) huS.ds hN
  have hvh' : Halted u v (List.replicate k (.poll false)) :=
    ⟨hvh.trace, hvh.idle, hvh.flags, hvh.lines, hvh.command, hvh.outside, hvh.registers⟩
  exact ⟨v, ht.trans (hu.trans (.trans ⟨3, huS.call hpos⟩ hv)), (hts.trans hus).halted hvh',
    hvk.1.trans (huk.1.trans htk.1), hvk.2.trans (huk.2.trans htk.2)⟩

end Sys2Proof.Machine
end

