-- ==== Sys2Proof/Laws/Stack.lean ====
section
/-! SUPPORT. The control stack: acceptance, calls and returns (10_state.md R22, R24). -/

namespace Sys2Proof.Machine

/-- A host command's meaning that answers a next state: nothing changed (busy), or the command accepted. -/
theorem exec_command_cases (s : State) (w : CmdWord) (i : Instr) (h : decode (.command w) = .ok i) (t : State)
   (hx : exec i s = .next t) : t = s ∨ ∃ p, p.isCommand = true ∧ p.lines.contains (1,0) = true ∧ t = accept p (commandWord i) s := by
  have H : ∀ p, start p i s = .next t → t = s ∨ t = accept p (commandWord i) s := by
    intro p hp
    rcases start_cases p i s with ⟨_, h⟩ | ⟨_, h⟩ <;> rw [h] at hp <;> injection hp with hp <;> simp [hp]
  have T : ∀ p n, startTransfer p i n s = .next t → t = s ∨ t = accept p (commandWord i) s := by
    intro p n hp
    rcases startTransfer_cases p i n s with ⟨_, h⟩ | ⟨_, _, _, h⟩ | ⟨_, _, h⟩ <;> rw [h] at hp <;>
      first | cases hp; done | (injection hp with hp; subst hp; simp)
  rcases decodeCommand_cases w i h with ⟨a, v, rfl⟩ | ⟨a, rfl⟩ | rfl | ⟨n, rfl⟩ | ⟨x, n, rfl⟩ | rfl | rfl | rfl | rfl | rfl | rfl
  · exact (H .wrreg hx).imp_right fun h => ⟨_, rfl, rfl, h⟩
  · exact (H .rdreg hx).imp_right fun h => ⟨_, rfl, rfl, h⟩
  · exact (T .wrdata _ hx).imp_right fun h => ⟨_, rfl, rfl, h⟩
  · simp only [exec, execWrchunk] at hx
    split at hx
    · exact (H .wrchunk hx).imp_right fun h => ⟨_, rfl, rfl, h⟩
    · exact (T .wrchunk _ hx).imp_right fun h => ⟨_, rfl, rfl, h⟩
  · exact (H .fill hx).imp_right fun h => ⟨_, rfl, rfl, h⟩
  · exact (H .hreset hx).imp_right fun h => ⟨_, rfl, rfl, h⟩
  · exact (H .sreset hx).imp_right fun h => ⟨_, rfl, rfl, h⟩
  · exact (H .cancel hx).imp_right fun h => ⟨_, rfl, rfl, h⟩
  · exact (H .verq hx).imp_right fun h => ⟨_, rfl, rfl, h⟩
  · exact (H .flowrd hx).imp_right fun h => ⟨_, rfl, rfl, h⟩
  · exact (H .waitrdy hx).imp_right fun h => ⟨_, rfl, rfl, h⟩


/-- Where a caller goes on is a line of it, outside every frame. -/
theorem resumesAt_ok (p q : Proc) : ∀ x ∈ p.resumesAt q, x ∈ q.lines ∧
    csAt [⟨q, x.1, x.2⟩] = false ∧ dsAt [⟨q, x.1, x.2⟩] = false ∧ rstAt [⟨q, x.1, x.2⟩] = false := by
  cases p <;> simp only [Proc.resumesAt, List.not_mem_nil, false_implies, implies_true] <;> cases q <;>
    simp [afterWaitReady, afterSciWrite, afterSciRead, afterChunk, afterStream, afterHardReset, afterSoftReset,
      Proc.lines, csAt, dsAt, rstAt]

/-- What is below a procedure is a legal control stack, outside every frame. -/
theorem callersOk_return (p : Proc) (hp : p.isCommand = false) (fs : List Frame) (h : callersOk p fs = true) :
    stackOk fs = true ∧ fs ≠ [] ∧ csAt fs = false ∧ dsAt fs = false ∧ rstAt fs = false := by
  cases fs with
  | nil => simp [callersOk, hp] at h
  | cons g rest =>
    simp only [callersOk, Bool.and_eq_true, List.contains_iff_mem] at h
    have := resumesAt_ok p g.proc _ h.1
    exact ⟨by simp [stackOk, this.1, h.2], by simp, this.2⟩

end Sys2Proof.Machine
end

