-- ==== Sys2Proof/Tests/Slice0.lean ====
section
/-! SUPPORT. The model's own tests: ill-formed terms, words written out from the spec's encodings, single steps checked against
the worked values of 95_test_vectors.md, and a state that meets the hypotheses of each statement. -/

namespace Sys2Proof.Tests

open Sys2Proof.Machine

/-! ## States to test on -/

/-- An idle block with `CFG_EX`. -/
def idle : State := { State.reset with cfg := cfgEx }

/-- An idle block with the poll limit `k`. -/
def limited (k : Nat) : State := { idle with cfg := { cfgEx with pollLimit := some k } }

/-- An idle block whose next `n` polls read ready. -/
def ready (n : Nat) : State := { idle with flowScript := List.replicate n true }

/-- An idle block to which a word is presented, with its operand registers. -/
def presented (w : CmdWord) (base : Nat) (len : Nat) : State := { idle with port := [⟨w, base, len⟩] }

/-- A busy block at a frame, below it its callers. -/
def busyAt (pc : List Frame) : State := { idle with busy := true, pc := pc }

/-- A test on the next state; false on a stop. -/
def nextIs (o : Host.Outcome State Fault Refusal) (p : State → Bool) : Bool :=
  match o with
  | .next t => p t
  | .fault _ => false
  | .refused _ => false

/-- The refusal of an outcome. -/
def refusalOf (o : Host.Outcome State Fault Refusal) : Option Refusal :=
  match o with
  | .refused r => some r
  | .next _ => none
  | .fault _ => none

/-! ## WellFormed refuses the ill-formed (30_encoding.md R55) -/

theorem test_frame_of_33_bytes_is_ill_formed : (Instr.sdiChunkFrame (List.replicate 33 0)).wellFormed = false := by decide
theorem test_frame_of_32_bytes_is_well_formed : (Instr.sdiChunkFrame (List.replicate 32 0)).wellFormed = true := by decide

/-! ## Decoding (30_encoding.md R53 to R63; 95_test_vectors.md V1 to V7, V18, V30, V31, V37) -/

theorem test_decode_wrreg : (decode (.command 0b00000010_0000_1011_1111111111111111#32)).toOption =
    some (.wrreg 0xB 0xFFFF) := by decide
theorem test_decode_rdreg : (decode (.command 0b00000011_0000_0101_0000000000000000#32)).toOption =
    some (.rdreg 0x5) := by decide
theorem test_decode_wrdata : (decode (.command 0b00010000_000000000000000000000000#32)).toOption = some .wrdata := by decide
theorem test_decode_wrchunk : (decode (.command 0b00010001_00000000_0000000000100000#32)).toOption =
    some (.wrchunk 32) := by decide
theorem test_decode_fill : (decode (.command 0b00010010_10101010_0000000001000000#32)).toOption =
    some (.fill 0xAA 64) := by decide
theorem test_decode_hreset : (decode (.command 0b00100000_000000000000000000000000#32)).toOption = some .hreset := by decide
theorem test_decode_sreset : (decode (.command 0b00100001_000000000000000000000000#32)).toOption = some .sreset := by decide
theorem test_decode_cancel : (decode (.command 0b00110000_000000000000000000000000#32)).toOption = some .cancel := by decide
theorem test_decode_verq : (decode (.command 0b01000000_000000000000000000000000#32)).toOption = some .verq := by decide
theorem test_decode_flowrd : (decode (.command 0b01010000_000000000000000000000000#32)).toOption = some .flowrd := by decide
theorem test_decode_waitrdy : (decode (.command 0b01010001_000000000000000000000000#32)).toOption = some .waitrdy := by decide
theorem test_decode_csa : (decode (.micro 0b0000#4 0)).toOption = some .csa := by decide
theorem test_decode_csd : (decode (.micro 0b0001#4 0)).toOption = some .csd := by decide
theorem test_decode_dsa : (decode (.micro 0b0010#4 0)).toOption = some .dsa := by decide
theorem test_decode_dsd : (decode (.micro 0b0011#4 0)).toOption = some .dsd := by decide
theorem test_decode_rsta : (decode (.micro 0b0100#4 0)).toOption = some .rsta := by decide
theorem test_decode_rstd : (decode (.micro 0b0101#4 0)).toOption = some .rstd := by decide
theorem test_decode_poll : (decode (.micro 0b0110#4 0)).toOption = some .poll := by decide
theorem test_decode_xchg : (decode (.micro 0b0111#4 0x5A)).toOption = some (.xchg 0x5A) := by decide
theorem test_decode_delay : (decode (.micro 0b1000#4 1)).toOption = some (.delay .analog) := by decide
theorem test_decode_speedhi : (decode (.micro 0b1001#4 0)).toOption = some .speedhi := by decide
theorem test_decode_sciWriteFrame :
    (decode (.csFrame [0b00000010#8, 0b00001111#8, 0b00010010#8, 0b00110100#8])).toOption =
      some (.sciWriteFrame 0xF 0x1234) := by decide
theorem test_decode_sciReadFrame :
    (decode (.csFrame [0b00000011#8, 0b00001011#8, 0b11111111#8, 0b11111111#8])).toOption =
      some (.sciReadFrame 0xB 0xFF 0xFF) := by decide
theorem test_decode_sdiChunkFrame :
    (decode (.dsFrame [0x11#8, 0x22#8, 0x33#8])).toOption = some (.sdiChunkFrame [0x11, 0x22, 0x33]) := by decide

theorem test_decode_refuses_unknown_op : (decode (.command 0x04000000#32)).toOption = none := by decide
theorem test_decode_refuses_address_high_bits : (decode (.command 0x021BFFFF#32)).toOption = none := by decide
theorem test_decode_refuses_rdreg_value : (decode (.command 0x030B0001#32)).toOption = none := by decide
theorem test_decode_refuses_hreset_low_bit : (decode (.command 0x20000001#32)).toOption = none := by decide
theorem test_decode_refuses_unused_micro_code : (decode (.micro 0xA#4 0)).toOption = none := by decide
theorem test_decode_refuses_wire_op : (decode (.csFrame [0x04#8, 0x00#8, 0x00#8, 0x00#8])).toOption = none := by decide
theorem test_decode_refuses_wire_address : (decode (.csFrame [0x02#8, 0x1B#8, 0x00#8, 0x00#8])).toOption = none := by decide
theorem test_decode_refuses_short_frame : (decode (.csFrame [0x02#8, 0x0B#8, 0x00#8])).toOption = none := by decide
theorem test_decode_refuses_long_chunk : (decode (.dsFrame (List.replicate 33 0))).toOption = none := by decide

/-! ## Single steps -/

/-- V1: acceptance of WRREG (R22, R84). -/
theorem test_wrreg_accepted : nextIs (step (presented 0x020BFFFF#32 0 0))
    (fun t => t.busy && t.cmd == 0x020BFFFF#32 && t.pc == [⟨.wrreg, 1, 0⟩] && t.port == [] && t.events == []) = true := by
  decide

/-- V18: WRREG's call has the address and value of the word (R84). -/
theorem test_wrreg_calls_sciWrite :
    nextIs (step { busyAt [⟨.wrreg, 1, 0⟩] with cmd := 0x02000804#32 })
      (fun t => t.pc == [⟨.sciWrite 0x0 0x0804, 1, 0⟩, ⟨.wrreg, 2, 0⟩]) = true := by decide

/-- V3: RDREG's call has the address of the word (R85). -/
theorem test_rdreg_calls_sciRead :
    nextIs (step { busyAt [⟨.rdreg, 1, 0⟩] with cmd := 0x03050000#32 })
      (fun t => t.pc == [⟨.sciRead 0x5, 1, 0⟩, ⟨.rdreg, 1, 1⟩]) = true := by decide

/-- V21: the value assembled from the third and fourth reply (R57, R83). -/
theorem test_rdreg_assembles_big_endian :
    nextIs (step { busyAt [⟨.sciRead 0x1, 8, 0⟩, ⟨.rdreg, 1, 1⟩] with cs := true, hi := 0xAB, lo := 0xCD })
      (fun t => t.data == 0xABCD#16) = true := by decide

/-- V22: a transfer of no byte ends at its first loop test (R89, R94). -/
theorem test_wrdata_zero_length :
    nextIs (step (busyAt [⟨.stream (.buffer 0) 0, 2, 0⟩, ⟨.wrdata, 3, 0⟩]))
      (fun t => t.pc == [⟨.stream (.buffer 0) 0, 7, 0⟩, ⟨.wrdata, 3, 0⟩] && t.events == []) = true := by decide

/-- V27: the last chunk of 70 bytes has 6 (R93). -/
theorem test_wrdata_last_chunk_size :
    nextIs (step { busyAt [⟨.stream (.buffer 0) 70, 3, 0⟩, ⟨.wrdata, 3, 0⟩] with rem := 6, off := 64 })
      (fun t => t.size == 6) = true := by decide

/-- V30b: WRCHUNK of 33 bytes: `(OVERSIZE, 0)`, empty trace (R90, R95). -/
theorem test_wrchunk_33_is_oversize :
    nextIs (step { busyAt [⟨.wrchunk, 1, 0⟩] with cmd := 0x11000021#32 })
      (fun t => t.events == [] && t.responses == [⟨1, 0⟩] && !t.busy && t.pc == []) = true := by decide

/-- V30a: WRCHUNK of 32 bytes goes on (R90). -/
theorem test_wrchunk_32_is_not_oversize :
    nextIs (step { busyAt [⟨.wrchunk, 1, 0⟩] with cmd := 0x11000020#32 })
      (fun t => t.pc == [⟨.wrchunk, 2, 0⟩] && t.busy) = true := by decide

/-- V7: FILL takes its byte from the word (R92). -/
theorem test_fill_byte :
    nextIs (step { busyAt [⟨.fill, 1, 0⟩] with cmd := 0x12AA0040#32 }) (fun t => t.fill == 0xAA#8) = true := by decide

/-- V7: FILL's count (R92). -/
theorem test_fill_count :
    nextIs (step { busyAt [⟨.fill, 2, 0⟩] with cmd := 0x12AA0040#32 })
      (fun t => t.pc == [⟨.stream .fill 64, 1, 0⟩, ⟨.fill, 3, 0⟩]) = true := by decide

/-- P1, step 4a: the deassertion of a line that is already deasserted is an event (R99, D30). -/
theorem test_hreset_step_4a :
    nextIs (step { busyAt [⟨.hardReset, 4, 0⟩, ⟨.hreset, 2, 0⟩] with rst := true })
      (fun t => t.events == [.csOff] && !t.cs && t.rst && t.pc == [⟨.hardReset, 4, 1⟩, ⟨.hreset, 2, 0⟩]) = true := by decide

/-- P1, step 8: the slow sample rate (R99). -/
theorem test_hreset_step_8 :
    nextIs (step (busyAt [⟨.hardReset, 8, 0⟩, ⟨.hreset, 2, 0⟩]))
      (fun t => t.pc == [⟨.sciWrite 0x5 0x000A, 1, 0⟩, ⟨.hardReset, 9, 0⟩, ⟨.hreset, 2, 0⟩]) = true := by decide

/-- V31: the soft reset writes 0x0804 to the mode register (R100). -/
theorem test_sreset_mode_value :
    nextIs (step (busyAt [⟨.softReset, 1, 0⟩, ⟨.sreset, 2, 0⟩]))
      (fun t => t.pc == [⟨.sciWrite 0x0 0x0804, 1, 0⟩, ⟨.softReset, 2, 0⟩, ⟨.sreset, 2, 0⟩]) = true := by decide

/-- V31: a zero byte of the flush (R100). -/
theorem test_sreset_flush_byte :
    nextIs (step { busyAt [⟨.softReset, 8, 3⟩, ⟨.sreset, 2, 0⟩] with ds := true, replyScript := [0x77] })
      (fun t => t.events == [.xchg 0x00 0x77] && t.pc == [⟨.softReset, 9, 0⟩, ⟨.sreset, 2, 0⟩]) = true := by decide

/-- V38: the fill byte is the low byte of the word read (R108). -/
theorem test_cancel_fill_byte :
    nextIs (step { busyAt [⟨.cancel, 2, 1⟩] with data := 0xAB55 })
      (fun t => t.fill == 0x55#8 && t.tmp == 0xAB55#16) = true := by decide

/-- V43: the bit test (R112). -/
theorem test_cancel_bit :
    (cancelClear 0x0808, cancelClear 0x0008, cancelClear 0xFFFF, cancelClear 0x0800, cancelClear 0x0000, cancelClear 0xFFF7)
      = (false, false, false, true, true, true) := by decide

/-- V49: the last good index, bits outside the nibble ignored (R119). -/
theorem test_verq_nibble_7 :
    nextIs (step { busyAt [⟨.verq, 2, 0⟩] with tmp := 0xFF7F }) (fun t => t.v == 7#4) = true := by decide

/-- V50: the first bad index (R121, R131). -/
theorem test_verq_nibble_8_is_bad :
    nextIs (step { busyAt [⟨.verq, 3, 0⟩] with v := 8 })
      (fun t => t.responses == [⟨4, 0x0008⟩] && t.err == 4#4 && t.events == [] && !t.busy) = true := by decide

/-- V9: FLOWRD's answer (R79). -/
theorem test_flowrd_ready :
    nextIs (step { busyAt [⟨.flowrd, 2, 0⟩] with b := true }) (fun t => t.responses == [⟨0, 0x0001⟩]) = true := by decide

/-- V10: FLOWRD's poll (R79). -/
theorem test_flowrd_polls :
    nextIs (step { busyAt [⟨.flowrd, 1, 0⟩] with flowScript := [false] })
      (fun t => t.events == [.poll false] && !t.b && t.pc == [⟨.flowrd, 2, 0⟩]) = true := by decide

/-- V13: WAITRDY at the third busy poll of three (R75). -/
theorem test_waitrdy_limit :
    nextIs (step { limited 3 with busy := true, pc := [⟨.waitReady, 5, 0⟩, ⟨.waitrdy, 2, 0⟩], npoll := 3 })
      (fun t => t.responses == [⟨2, 0⟩] && t.pc == [] && t.events == []) = true := by decide

/-- V14: WAITRDY at the second busy poll of three goes on (R75). -/
theorem test_waitrdy_below_limit :
    nextIs (step { limited 3 with busy := true, pc := [⟨.waitReady, 5, 0⟩, ⟨.waitrdy, 2, 0⟩], npoll := 2 })
      (fun t => t.pc == [⟨.waitReady, 6, 0⟩, ⟨.waitrdy, 2, 0⟩]) = true := by decide

/-- R67's example. -/
theorem test_csa : nextIs (exec .csa idle) (fun t => t.cs && !t.ds && t.events == [.csOn]) = true := by decide
/-- R68's example. -/
theorem test_csd : nextIs (exec .csd { idle with cs := true }) (fun t => !t.cs && t.events == [.csOff]) = true := by decide
/-- R69's example. -/
theorem test_dsa : nextIs (exec .dsa idle) (fun t => t.ds && !t.cs && t.events == [.dsOn]) = true := by decide
/-- R70's example. -/
theorem test_dsd : nextIs (exec .dsd { idle with ds := true }) (fun t => !t.ds && t.events == [.dsOff]) = true := by decide
/-- R71's example. -/
theorem test_rsta : nextIs (exec .rsta idle) (fun t => t.rst && t.events == [.rstOn]) = true := by decide
/-- R72's example. -/
theorem test_rstd : nextIs (exec .rstd { idle with rst := true }) (fun t => !t.rst && t.events == [.rstOff]) = true := by decide
/-- R73's example. -/
theorem test_poll : nextIs (exec .poll { idle with flowScript := [true, false] })
    (fun t => t.b && t.events == [.poll true] && t.flowScript == [false] && t.pollCount == 1) = true := by decide
/-- R76's example. -/
theorem test_xchg : nextIs (exec (.xchg 0x02) { idle with replyScript := [0x00, 0x11] })
    (fun t => t.reply == 0x00#8 && t.events == [.xchg 0x02 0x00] && t.replyScript == [0x11#8]) = true := by decide
/-- R77's example. -/
theorem test_delay : nextIs (exec (.delay .analog) idle) (fun t => t.events == [.delay .analog] && !t.speed) = true := by decide
/-- R78's example. -/
theorem test_speedhi : nextIs (exec .speedhi idle) (fun t => t.speed && t.events == [.speedUp]) = true := by decide

/-- V19: the bytes of a write frame (R53). -/
theorem test_sciWriteFrame :
    nextIs (exec (.sciWriteFrame 0xF 0x1234) { idle with replyScript := [1, 2, 3, 4] })
      (fun t => t.trace == [.csOn, .xchg 0x02 1, .xchg 0x0F 2, .xchg 0x12 3, .xchg 0x34 4, .csOff] && !t.cs) = true := by decide

/-- V21: the value of a read frame (R54). -/
theorem test_sciReadFrame :
    nextIs (exec (.sciReadFrame 0x1 0xFF 0xFF) { idle with replyScript := [0x11, 0x22, 0xAB, 0xCD] })
      (fun t => t.data == 0xABCD#16 &&
        t.trace == [.csOn, .xchg 0x03 0x11, .xchg 0x01 0x22, .xchg 0xFF 0xAB, .xchg 0xFF 0xCD, .csOff]) = true := by decide

/-- R90's example: the frame of three bytes (R55). -/
theorem test_sdiChunkFrame :
    nextIs (exec (.sdiChunkFrame [0x11, 0x22, 0x33]) { idle with replyScript := [0, 0, 0] })
      (fun t => t.trace == [.dsOn, .xchg 0x11 0, .xchg 0x22 0, .xchg 0x33 0, .dsOff] && !t.ds) = true := by decide

/-- V30c: the empty frame (R94). -/
theorem test_sdiChunkFrame_empty :
    nextIs (exec (.sdiChunkFrame []) idle) (fun t => t.trace == [.dsOn, .dsOff]) = true := by decide

/-- V2: an illegal word (R61, R132). -/
theorem test_illegal_word : nextIs (step (presented 0x021BFFFF#32 0 0))
    (fun t => t.responses == [⟨5, 0⟩] && t.events == [] && !t.busy && t.pc == [] && t.port == []) = true := by decide

/-- R143: block reset cuts a frame short and gives no response. -/
theorem test_block_reset :
    nextIs (step { busyAt [⟨.sciWrite 0xB 0, 6, 0⟩, ⟨.wrreg, 2, 0⟩] with cs := true, speed := true, resetIn := true })
      (fun t => !t.cs && !t.speed && !t.busy && t.pc == [] && t.events == [] && t.responses == []) = true := by decide

/-- R163: a launch whose addresses would pass the end of the buffer space. -/
theorem test_launch_wraps : refusalOf (step (presented 0x10000000#32 0xFFFFFFFF 2)) = some .bufferWraps := by decide

/-- R163: a launch with a byte that is not defined. -/
theorem test_launch_undefined :
    refusalOf (step { presented 0x11000002#32 0x1000 0 with hostbuf := [(0x1000, 0x11)] }) = some .bufferUndefined := by decide

/-- Placing a word from reset: the next step runs it (log entry 10). -/
theorem test_withFetchWord_command :
    nextIs (step (State.reset.withFetchWord 32 0x51000000)) (fun t => t.pc == [⟨.waitrdy, 1, 0⟩] && t.busy) = true := by decide

/-- Placing a micro-operation's code from reset: the next step runs it (log entry 10). -/
theorem test_withFetchWord_micro :
    nextIs (step (State.reset.withFetchWord 8 0x9)) (fun t => t.speed && t.events == [.speedUp]) = true := by decide

/-- R11: the values of `CFG_EX` that the worked examples use. -/
theorem test_cfgEx : cfgEx.clockfValue = 0x8800 ∧ cfgEx.volDefault = 0x2020 ∧ cfgEx.audataTarget = 0xAC45 ∧
    cfgEx.endfillAddr = 0x1E06 ∧ cfgEx.pollLimit = none ∧ cfgEx.duration .soft2 = Config.openSoft2 :=
  ⟨rfl, rfl, rfl, rfl, rfl, rfl⟩

/-- R10, R22: the operand registers hold the low bits of what is presented; here a block with 16-bit addresses. -/
theorem test_latch_width :
    (latch ⟨0x10000000#32, 0x12345, 2⟩ [] { idle with cfg := { cfgEx with hostAddrW := 16 } }).bufBase = 0x2345 := by decide

/-- R10, R37: the end of a buffer space of 16-bit addresses. -/
theorem test_launch_wraps_16 :
    refusalOf (step { presented 0x10000000#32 0xFFFF 2 with cfg := { cfgEx with hostAddrW := 16 } }) = some .bufferWraps := by
  decide

/-- R51: a read that returns the value written before, and one that does not. -/
theorem test_envRoundtrip :
    EnvRoundtrip { idle with events := (writeFrame 0xB 0x1234 ++
      [Event.csOn, .xchg 0x03 0, .xchg 0x0B 0, .xchg 0xFF 0x12, .xchg 0xFF 0x34, .csOff]).reverse } ∧
    ¬ EnvRoundtrip { idle with events := (writeFrame 0xB 0x1234 ++
      [Event.csOn, .xchg 0x03 0, .xchg 0x0B 0, .xchg 0xFF 0x12, .xchg 0xFF 0x35, .csOff]).reverse } := by decide

/-- R51: the chip takes what came right after a ready poll, and the byte outside a frame is none of it. -/
theorem test_envAccept32 :
    EnvAccept32 [⟨false, true, [(0x11, 0)]⟩] { idle with events :=
      [.dsOff, .xchg 0x22 0, .dsOn, .dsOff, .xchg 0x11 0, .dsOn, .poll true, .poll false, .xchg 0xFF 0] } ∧
    EnvReliable [(0xFF, 0x77), (0x11, 0)] { idle with events := [.dsOff, .xchg 0x11 0, .dsOn, .poll true, .xchg 0xFF 0x77] } := by
  decide

/-- R163: the launch premises after a reset and after an HRESET's last event. -/
theorem test_launch_premises :
    LHresetDone { idle with events := [.speedUp], speed := true } ∧ ¬ LHresetDone idle ∧ LSpeed true { idle with speed := true } ∧
    LCfg idle ∧ ¬ LCfg (limited 0) := by
  decide

/-! ## Witnesses: states and operands that meet the hypotheses of the statements -/

/-- The polls of `m` gates of which gate `g` reads busy `js g` times and then ready. -/
def gatePolls (js : Nat → Nat) (m : Nat) : List Bool :=
  match m with
  | 0 => []
  | k + 1 => gatePolls js k ++ (List.replicate (js k) false ++ [true])

/-- There are as many of them as the gates have polls. -/
theorem gatePolls_length (js : Nat → Nat) (m : Nat) : (gatePolls js m).length = gateStart js m := by
  induction m with
  | zero => rfl
  | succ m ih => simp [gatePolls, gateStart, ih]

/-- Placed as the script, they are the polls of `m` gates. -/
theorem pollsThrough_of_script (js : Nat → Nat) (m : Nat) : ∀ (rest : List Bool) (s : State),
    s.flowScript = gatePolls js m ++ rest → PollsThrough m js s := by
  induction m with
  | zero => intro rest s h g hg; omega
  | succ m ih =>
    intro rest s h g hg
    rcases Nat.lt_or_ge g m with hlt | hge
    · exact ih ((List.replicate (js m) false ++ [true]) ++ rest) s (by rw [h]; simp [gatePolls]) g hlt
    · obtain rfl : g = m := by omega
      have hl := gatePolls_length js g
      refine ⟨fun k hk => ?_, ?_⟩
      · simp [State.flowAt, h, gatePolls, List.getElem?_append, hl, hk]
      · simp [State.flowAt, h, gatePolls, hl]

/-- With no poll limit those gates pass. -/
theorem gatesPass_of_script (js : Nat → Nat) (m : Nat) (rest : List Bool) (s : State)
    (h : s.flowScript = gatePolls js m ++ rest) (hc : s.cfg.pollLimit = none) : GatesPass m js s :=
  ⟨pollsThrough_of_script js m rest s h, fun g _ l hl => by rw [hc] at hl; cases hl⟩

/-- Busy counts that differ from gate to gate: 0, 1, 2, 0, 1, 2, ... -/
def uneven (g : Nat) : Nat := g % 3

/-- An idle block whose next `m` gates pass after uneven numbers of busy polls. -/
def passing (m : Nat) : State := { idle with flowScript := gatePolls uneven m }

/-- They pass. -/
theorem passing_gatesPass (m : Nat) : GatesPass m uneven (passing m) :=
  gatesPass_of_script uneven m [] _ (by simp [passing]) rfl

/-- With no poll limit, `j` busy polls and one ready one are a wait that ends. -/
theorem readyAfter_of_script (j : Nat) (s : State) (h : s.flowScript = List.replicate j false ++ [true])
    (hc : s.cfg.pollLimit = none) : ReadyAfter j s := by
  refine ⟨fun k hk => ?_, ?_, fun m hm => by rw [hc] at hm; cases hm⟩
  · simp [State.flowAt, h, List.getElem?_append, hk]
  · simp [State.flowAt, h]

/-- A block with the limit `k` whose next `m` gates pass after uneven numbers of busy polls and whose next wait times out. -/
def stalled (m k : Nat) : State := { limited k with flowScript := gatePolls uneven m ++ List.replicate k false }

/-- The hypotheses of a wait that times out after `m` gates. -/
theorem stalled_gateTimesOut (m k : Nat) (hk : 3 ≤ k) : GateTimesOut m k uneven (stalled m k) := by
  refine ⟨rfl, by omega, ⟨pollsThrough_of_script uneven m _ _ rfl, fun g _ l hl => ?_⟩, fun q hq => ?_⟩
  · obtain rfl : k = l := by injection hl
    unfold uneven
    omega
  · simp [State.flowAt, stalled, gatePolls_length, hq]

/-- The hypotheses of a wait that times out at once. -/
theorem stalled_timesOut (k : Nat) (hk : 1 ≤ k) : TimesOut k (stalled 0 k) := by
  refine ⟨rfl, hk, fun q hq => ?_⟩
  simp [State.flowAt, stalled, gatePolls, hq]

theorem witness_DecodeOfEncodeIsTheInstruction :
    (Instr.sdiChunkFrame (List.replicate 32 0xAA)).wellFormed = true ∧ (Instr.wrreg 0xF 0xFFFF).wellFormed = true := by decide

theorem witness_EncodeOfDecodeIsTheCode :
    decode (.command 0x12FFFFFF#32) = .ok (.fill 0xFF 0xFFFF) ∧
    decode (.dsFrame (List.replicate 32 0xAA)) = .ok (.sdiChunkFrame (List.replicate 32 0xAA)) ∧
    decode (.micro 0x8#4 3) = .ok (.delay .soft2) := ⟨rfl, rfl, rfl⟩

theorem witness_MicroOperationCodes :
    decode (.micro 0x0#4 0) = .ok .csa ∧ decode (.micro 0x9#4 0) = .ok .speedhi ∧ 0xA ≤ (0xA#4).toNat ∧
    0xA ≤ (0xF#4).toNat := ⟨rfl, rfl, by decide, by decide⟩

theorem witness_BlockResetStep : { busyAt [⟨.sciWrite 0xB 0, 6, 0⟩, ⟨.wrreg, 2, 0⟩] with resetIn := true }.resetIn = true := rfl

theorem witness_IdleBlockDoesNothing : idle.resetIn = false ∧ idle.pc = [] ∧ idle.port = [] := ⟨rfl, rfl, rfl⟩

theorem witness_IllegalWordEndsAtOnce :
    LIdle (presented 0x20000001#32 0 0) ∧ (presented 0x20000001#32 0 0).port = [⟨0x20000001#32, 0, 0⟩] ∧
    MatchesNoRow 0x20000001#32 ∧ MatchesNoRow 0x030B0001#32 ∧ MatchesNoRow 0x00000000#32 ∧ MatchesNoRow 0xFFFFFFFF#32 := by
  refine ⟨by decide, rfl, ?_, ?_, ?_, ?_⟩ <;> simp [MatchesNoRow, commandRows]

theorem witness_AcceptanceLatchesTheCommand_wrreg :
    (presented 0x020BFFFF#32 0 0).busy = false ∧ (presented 0x020BFFFF#32 0 0).pc = [] ∧
    decode (.command 0x020BFFFF#32) = .ok (.wrreg 0xB 0xFFFF) := ⟨rfl, rfl, rfl⟩

/-- The last byte of the buffer space, as a transfer of one byte. -/
theorem witness_AcceptanceLatchesTheCommand_wrdata :
    decode (.command 0x10000000#32) = .ok .wrdata ∧
    LBuf 1 (latch ⟨0x10000000#32, 0xFFFFFFFF, 1⟩ [] { idle with hostbuf := [(0xFFFFFFFF, 7)] }) :=
  by
  refine ⟨rfl, by decide, fun j hj => ?_⟩
  have h : j = 0 := by omega
  subst h
  decide

theorem witness_AcceptanceLatchesTheCommand_wrchunk :
    decode (.command 0x11000000#32) = .ok (.wrchunk 0) ∧ LBuf 0 (latch ⟨0x11000000#32, 0xFFFFFFFF, 0⟩ [] idle) ∧
    decode (.command 0x11000021#32) = .ok (.wrchunk 33) ∧ ¬ (33#16).toNat ≤ 32 :=
  ⟨rfl, ⟨by decide, by intro j hj; omega⟩, rfl, by decide⟩

theorem witness_AcceptanceLatchesTheCommand_busy :
    (busyAt [⟨.wrreg, 2, 0⟩]).busy = true ∧
    step (busyAt [⟨.wrreg, 2, 0⟩]) = .next (finish .ok 0 (busyAt [⟨.wrreg, 2, 0⟩])) := ⟨rfl, rfl⟩

theorem witness_LaunchesOutsideTheBufferAreRefused :
    idle.busy = false ∧
    2 ^ 32 < { idle with bufBase := 0xFFFFFFFF, bufLen := 2 }.bufBase +
      { idle with bufBase := 0xFFFFFFFF, bufLen := 2 }.bufLen ∧
    Memory.read { idle with bufBase := 0xFFFFFFFF, bufLen := 1 }.hostbuf (0xFFFFFFFF + 0) = none ∧
    2 ^ 32 < { idle with bufBase := 0xFFFFFFE1 }.bufBase + (32#16).toNat ∧
    { idle with bufBase := 0xFFFFFFE0 }.bufBase + (32#16).toNat ≤ 2 ^ 32 := by decide

theorem witness_StepRunsTheDecodedInstruction :
    (presented 0x50000000#32 0 0).pc = [] ∧ decode (.command 0x50000000#32) = .ok .flowrd ∧
    lineOf ⟨.flowrd, 1, 0⟩ (busyAt [⟨.flowrd, 1, 0⟩]) = .micro .poll .discard 2 0 ∧
    (∀ u d k j, lineOf ⟨.flowrd, 2, 0⟩ (busyAt [⟨.flowrd, 2, 0⟩]) ≠ .micro u d k j) :=
  ⟨rfl, rfl, rfl, fun _ _ _ _ h => by cases h⟩

theorem witness_PortDoesNotInfluenceARunningCommand :
    (busyAt [⟨.waitrdy, 1, 0⟩]).resetIn = false ∧ (busyAt [⟨.waitrdy, 1, 0⟩]).busy = true := ⟨rfl, rfl⟩

/-- A busy block at a frame meets the invariant where its lines stand as the frame says. -/
theorem witness_LineMicroOperations :
    SequencerInv (busyAt [⟨.sciWrite 0xB 0, 3, 0⟩, ⟨.wrreg, 2, 0⟩]) ∧
    SequencerInv { busyAt [⟨.sciWrite 0xB 0, 8, 0⟩, ⟨.wrreg, 2, 0⟩] with cs := true } ∧
    SequencerInv (busyAt [⟨.softReset, 7, 0⟩, ⟨.sreset, 2, 0⟩]) ∧
    SequencerInv { busyAt [⟨.softReset, 9, 0⟩, ⟨.sreset, 2, 0⟩] with ds := true } ∧
    SequencerInv (busyAt [⟨.hardReset, 1, 0⟩, ⟨.hreset, 2, 0⟩]) ∧
    SequencerInv { busyAt [⟨.hardReset, 4, 0⟩, ⟨.hreset, 2, 0⟩] with rst := true } ∧
    SequencerInv { busyAt [⟨.hardReset, 4, 1⟩, ⟨.hreset, 2, 0⟩] with rst := true } ∧
    SequencerInv { busyAt [⟨.hardReset, 4, 2⟩, ⟨.hreset, 2, 0⟩] with rst := true } := by
  unfold SequencerInv
  decide

theorem witness_LineMicroOperations_lines (s : State) :
    lineOf ⟨.sciWrite 0xB 0, 3, 0⟩ s = .micro .csa .discard 4 0 ∧ lineOf ⟨.sciWrite 0xB 0, 8, 0⟩ s = .micro .csd .discard 9 0 ∧
    lineOf ⟨.softReset, 7, 0⟩ s = .micro .dsa .discard 8 0 ∧ lineOf ⟨.softReset, 9, 0⟩ s = .micro .dsd .discard 10 0 ∧
    lineOf ⟨.hardReset, 1, 0⟩ s = .micro .rsta .discard 2 0 ∧ lineOf ⟨.hardReset, 4, 0⟩ s = .micro .csd .discard 4 1 ∧
    lineOf ⟨.hardReset, 4, 1⟩ s = .micro .dsd .discard 4 2 ∧ lineOf ⟨.hardReset, 4, 2⟩ s = .micro .rstd .discard 5 0 :=
  ⟨rfl, rfl, rfl, rfl, rfl, rfl, rfl, rfl⟩

theorem witness_SpeedHighSetsTheHigherSpeed :
    SequencerInv (busyAt [⟨.hardReset, 14, 0⟩, ⟨.hreset, 2, 0⟩]) ∧
    lineOf ⟨.hardReset, 14, 0⟩ idle = .micro .speedhi .discard 15 0 ∧
    exec .csa { idle with speed := true } = .next (assertCs { idle with speed := true }) :=
  ⟨by unfold SequencerInv; decide, rfl, rfl⟩

theorem witness_DataChunkFrame :
    (List.replicate 32 (0xAA : Byte)).length ≤ 32 ∧ ([] : List Byte).length ≤ 32 ∧
    32 < (List.replicate 33 (0xAA : Byte)).length := by decide

/-- A chip that gives back what was written (R51). -/
theorem witness_RegisterReadFrame :
    ∃ t u, exec (.sciWriteFrame 0xB 0x1234) { idle with replyScript := [0, 0, 0, 0, 0, 0, 0x12, 0x34] } = .next t ∧
      exec (.sciReadFrame 0xB 0xFF 0xFF) t = .next u ∧ EnvRoundtrip u := ⟨_, _, rfl, rfl, by decide⟩

theorem witness_SteppedFramesAreTheWireFrames :
    { busyAt [⟨.sciWrite 0xB 0x1234, 3, 0⟩, ⟨.wrreg, 2, 0⟩] with addr := 0xB, data := 0x1234 }.addr = 0xB ∧
    { busyAt [⟨.sciRead 0xB, 3, 0⟩, ⟨.rdreg, 1, 1⟩] with addr := 0xB }.addr = 0xB ∧
    (∀ m (h : m < [0x11#8, 0x22#8].length),
      sourceByte (.buffer 0) m { idle with base := 0x1000, hostbuf := [(0x1000, 0x11), (0x1001, 0x22)] } =
        some [0x11#8, 0x22#8][m]) := by decide

theorem witness_BusyChipKeepsTheBlockWaiting :
    ∀ k, k < 2 → { busyAt [⟨.waitReady, 2, 0⟩, ⟨.waitrdy, 2, 0⟩] with flowScript := [false, false] }.flowAt k = false := by
  decide

theorem witness_PollLimitEndsAWait :
    TimesOut 1 { stalled 0 1 with busy := true, pc := [⟨.waitReady, 1, 0⟩, ⟨.waitrdy, 2, 0⟩] } ∧
    (∀ m, m < 2 → { limited 3 with flowScript := [false, false, true] }.flowAt m = false) ∧
    { limited 3 with flowScript := [false, false, true] }.flowAt 2 = true ∧
    (busyAt [⟨.waitReady, 5, 0⟩]).cfg.pollLimit = none :=
  by
  refine ⟨⟨rfl, by decide, fun m hm => ?_⟩, by decide, rfl, rfl⟩
  have h : m = 0 := by omega
  subst h
  rfl

/-- The hypothesis of FLOWRD, and of every other command on the block's side. -/
theorem witness_FlowrdReturnsOneSample : LIdle idle ∧ LIdle (stalled 0 1) ∧ LIdle (ready 11) := by decide

/-- A command whose wait ends: after no, and after two busy polls; and one whose wait times out: at once, and after three polls. -/
theorem witness_WaitrdyIsTheGateAlone :
    ReadyAfter 0 { idle with flowScript := [true] } ∧ ReadyAfter 2 { idle with flowScript := [false, false, true] } ∧
    TimesOut 1 (stalled 0 1) ∧ TimesOut 3 (stalled 0 3) ∧ LIdle (passing 1) ∧
    (passing 1).cfg.pollLimit = none ∧ EnvReady 1 (passing 1) :=
  ⟨readyAfter_of_script 0 _ rfl rfl, readyAfter_of_script 2 _ rfl rfl, stalled_timesOut 1 (by decide), stalled_timesOut 3 (by decide),
    ⟨rfl, rfl, rfl, rfl, rfl, rfl⟩, rfl, uneven, (passing_gatesPass 1).1⟩

theorem witness_WrregSendsOneWriteFrame :
    LIdle { idle with flowScript := [true] } ∧ ReadyAfter 0 { idle with flowScript := [true] } ∧ TimesOut 1 (stalled 0 1) ∧
    (0x1B#8).extractLsb' 4 4 ≠ 0#4 :=
  ⟨by decide, readyAfter_of_script 0 _ rfl rfl, stalled_timesOut 1 (by decide), by decide⟩

theorem witness_RdregReturnsTheValueRead :
    LIdle { idle with flowScript := [false, true] } ∧ ReadyAfter 1 { idle with flowScript := [false, true] } ∧
    TimesOut 2 (stalled 0 2) ∧ (0xF0#8).extractLsb' 4 4 ≠ 0#4 ∧ (1#16) ≠ 0 :=
  ⟨by decide, readyAfter_of_script 1 _ rfl rfl, stalled_timesOut 2 (by decide), by decide, by decide⟩

theorem witness_WrchunkSendsOneChunk :
    LIdle { idle with flowScript := [true], bufBase := 0xFFFFFFFF, hostbuf := [(0xFFFFFFFF, 7)] } ∧
    BufferHolds [7] { idle with flowScript := [true], bufBase := 0xFFFFFFFF, hostbuf := [(0xFFFFFFFF, 7)] } ∧
    ReadyAfter 0 { idle with flowScript := [true], bufBase := 0xFFFFFFFF, hostbuf := [(0xFFFFFFFF, 7)] } ∧
    BufferHolds [] (stalled 0 1) ∧ (32#16).toNat ≤ 32 ∧ 32 < (33#16).toNat ∧ (0x01#8) ≠ 0 :=
  ⟨by decide, by decide, readyAfter_of_script 0 _ rfl rfl, by decide, by decide, by decide, by decide⟩

theorem witness_WrdataSendsTheBufferInChunks :
    let s := { passing 1 with bufBase := 0x1000, bufLen := 2, hostbuf := [(0x1000, 0x11), (0x1001, 0x22)] }
    LIdle s ∧ LCfg s ∧ OperandsFit s ∧ [0x11#8, 0x22#8].length = s.bufLen ∧ BufferHolds [0x11, 0x22] s ∧
    GatesPass (chunkCount 2) uneven s :=
  ⟨by decide, by decide, by decide, rfl, by decide, gatesPass_of_script uneven 1 [] _ rfl rfl⟩

/-- The byte of a buffer filled with one byte. -/
theorem read_writeBytes_replicate (n : Nat) : ∀ a m, m < n →
    Memory.read ((List.range' a n).map fun c => (c, (0x11 : Byte))) (a + m) = some 0x11 := by
  induction n with
  | zero => intro a m h; omega
  | succ n ih =>
    intro a m h
    cases m with
    | zero => simp [List.range'_succ, Memory.read]
    | succ m =>
      have := ih (a + 1) m (by omega)
      rw [Nat.add_right_comm, Nat.add_assoc] at this
      simpa [List.range'_succ, Memory.read] using this

/-- A block at the second gate's time-out with a buffer of 33 bytes. -/
def stalledBuffer : State :=
  { stalled 1 3 with bufLen := 33, hostbuf := (List.range' 0 33).map fun c => (c, (0x11 : Byte)) }

/-- V30f's shape: 33 bytes, the first gate passes, the second times out. -/
theorem witness_WrdataStopsAtTheGateThatTimesOut :
    LIdle stalledBuffer ∧ LCfg stalledBuffer ∧ OperandsFit stalledBuffer ∧
    (List.replicate 33 (0x11 : Byte)).length = stalledBuffer.bufLen ∧ BufferHolds (List.replicate 33 0x11) stalledBuffer ∧
    1 < chunkCount (List.replicate 33 (0x11 : Byte)).length ∧ GateTimesOut 1 3 uneven stalledBuffer := by
  refine ⟨by decide, by decide, by decide, by decide, ⟨by decide, fun m h => ?_⟩, by decide,
    stalled_gateTimesOut 1 3 (by decide)⟩
  have hm : m < 33 := by rw [List.length_replicate] at h; exact h
  have := read_writeBytes_replicate 33 0 m hm
  rw [List.getElem_replicate]
  exact this

/-- The configuration of `passing` is well-formed. -/
theorem lcfg_open (m : Nat) : LCfg (passing m) := ⟨nofun, (by decide : 16 ≤ 32)⟩

/-- The configuration of `stalled` is well-formed. -/
theorem lcfg_limit (m k : Nat) (h : 0 < k) : LCfg (stalled m k) :=
  ⟨fun e => by injection e with e; omega, (by decide : 16 ≤ 32)⟩

/-- The reply script `r` in place of what `s` has. -/
def answering (r : List Byte) (s : State) : State := { s with replyScript := r }

/-- The gates do not depend on it. -/
theorem answering_gatesPass (r : List Byte) (m : Nat) (js : Nat → Nat) (s : State) (h : GatesPass m js s) :
    GatesPass m js (answering r s) := h

/-- Nor does a wait that times out. -/
theorem answering_gateTimesOut (r : List Byte) (m k : Nat) (js : Nat → Nat) (s : State) (h : GateTimesOut m k js s) :
    GateTimesOut m k js (answering r s) := h

/-- The longest FILL: 2048 gates, uneven. -/
theorem witness_FillSendsTheByteCountTimes :
    LIdle (passing 2048) ∧ LCfg (passing 2048) ∧ GatesPass (chunkCount (65535#16).toNat) uneven (passing 2048) :=
  ⟨⟨rfl, rfl, rfl, rfl, rfl, rfl⟩, lcfg_open 2048, passing_gatesPass 2048⟩

theorem witness_FillStopsAtTheGateThatTimesOut :
    LIdle (stalled 1 3) ∧ LCfg (stalled 1 3) ∧ 1 < chunkCount (33#16).toNat ∧ GateTimesOut 1 3 uneven (stalled 1 3) ∧
    0 < chunkCount (1#16).toNat ∧ GateTimesOut 0 3 uneven (stalled 0 3) :=
  ⟨by decide, by decide, by decide, stalled_gateTimesOut 1 3 (by decide), by decide, stalled_gateTimesOut 0 3 (by decide)⟩

theorem witness_ZeroLengthTransfers :
    LIdle { idle with flowScript := [true] } ∧ OperandsFit { idle with flowScript := [true] } ∧
    { idle with flowScript := [true] }.bufLen = 0 ∧
    ReadyAfter 0 { idle with flowScript := [true] } := ⟨by decide, by decide, rfl, readyAfter_of_script 0 _ rfl rfl⟩

theorem witness_SresetRunsTheSoftReset : LIdle (passing 4) ∧ GatesPass 4 uneven (passing 4) :=
  ⟨by decide, passing_gatesPass 4⟩

theorem witness_HresetRunsTheHardReset : LIdle (passing 11) ∧ GatesPass 11 uneven (passing 11) :=
  ⟨by decide, passing_gatesPass 11⟩

/-- The first wait, the last of a soft reset, the last of a hard reset. -/
theorem witness_ResetStopsAtAWaitThatTimesOut :
    LIdle (stalled 0 3) ∧ GateTimesOut 0 3 uneven (stalled 0 3) ∧ LIdle (stalled 3 3) ∧ GateTimesOut 3 3 uneven (stalled 3 3) ∧
    LIdle (stalled 10 3) ∧ GateTimesOut 10 3 uneven (stalled 10 3) :=
  ⟨by decide, stalled_gateTimesOut 0 3 (by decide), by decide, stalled_gateTimesOut 3 3 (by decide), by decide,
    stalled_gateTimesOut 10 3 (by decide)⟩

/-- A status value with the nibble 7, and one with the nibble 8. -/
theorem witness_VerqReturnsTheVersionNibble :
    LIdle { idle with flowScript := [true], replyScript := [0, 0, 0xFF, 0x7F] } ∧
    ReadyAfter 0 { idle with flowScript := [true], replyScript := [0, 0, 0xFF, 0x7F] } ∧
    ReadyAfter 0 { idle with flowScript := [true], replyScript := [0, 0, 0x00, 0x80] } ∧ TimesOut 1 (stalled 0 1) :=
  ⟨by decide, readyAfter_of_script 0 _ rfl rfl, readyAfter_of_script 0 _ rfl rfl, stalled_timesOut 1 (by decide)⟩

theorem witness_CancelTestsBitThree :
    (busyAt [⟨.cancel, 10, 0⟩]).resetIn = false ∧ (busyAt [⟨.cancel, 10, 0⟩]).pc = [⟨.cancel, 10, 0⟩] := ⟨rfl, rfl⟩

/-- An entry of the first run of a script of two runs. -/
theorem replyAt_first (n : Nat) (x : Byte) (rest : List Byte) (s : State) (h : s.replyScript = List.replicate n x ++ rest)
    (k : Nat) (hk : k < n) : s.replyAt k = x := by
  simp [State.replyAt, h, List.getElem?_append, hk]

/-- An entry of the second run of a script of two runs. -/
theorem replyAt_second (n m : Nat) (x y : Byte) (s : State) (h : s.replyScript = List.replicate n x ++ List.replicate m y)
    (k : Nat) (hk : n ≤ k) (hm : k < n + m) : s.replyAt k = y := by
  have h1 : ¬ k < n := by omega
  have h2 : k - n < m := by omega
  simp [State.replyAt, h, List.getElem?_append, h1, h2]

/-- V40: the bit clear at the first read. -/
theorem witness_CancelConfirmedAtTheNthRead_first :
    let s := answering (List.replicate 2104 0 ++ []) (passing 71)
    LIdle s ∧ LCfg s ∧ GatesPass (2 * 1 + 69) uneven s ∧ EnvCancel 1 s := by
  refine ⟨⟨rfl, rfl, rfl, rfl, rfl, rfl⟩, lcfg_open 71, answering_gatesPass _ _ _ _ (passing_gatesPass 71), by decide,
    fun M h1 h2 => by omega, ?_⟩
  rw [replyAt_first 2104 0 [] _ rfl _ (by decide)]
  rfl

/-- V44: the bit clear at the 64th read. -/
theorem witness_CancelConfirmedAtTheNthRead_last :
    let s := answering (List.replicate 4367 8 ++ List.replicate 5 0) (passing 197)
    LIdle s ∧ LCfg s ∧ GatesPass (2 * 64 + 69) uneven s ∧ EnvCancel 64 s := by
  refine ⟨⟨rfl, rfl, rfl, rfl, rfl, rfl⟩, lcfg_open 197, answering_gatesPass _ _ _ _ (passing_gatesPass 197), by decide,
    fun M h1 h2 => ?_, ?_⟩
  · rw [replyAt_first 4367 8 (List.replicate 5 0) _ rfl _ (by omega)]
    rfl
  · rw [replyAt_second 4367 5 8 0 _ rfl _ (by decide) (by decide)]
    rfl

/-- V45: the bit never clear. -/
theorem witness_CancelUnconfirmedAfterTheBudget :
    let s := answering (List.replicate 4372 8 ++ []) (passing 197)
    LIdle s ∧ LCfg s ∧ GatesPass 197 uneven s ∧ CancelBitSet 64 s := by
  refine ⟨⟨rfl, rfl, rfl, rfl, rfl, rfl⟩, lcfg_open 197, answering_gatesPass _ _ _ _ (passing_gatesPass 197), fun M h1 h2 => ?_⟩
  rw [replyAt_first 4372 8 [] _ rfl _ (by omega)]
  rfl

/-- The first wait; a wait of the pre-fill; the wait of the result's read after one round, and after the budget. -/
theorem witness_CancelStopsAtAWaitThatTimesOut :
    (LIdle (stalled 0 3) ∧ LCfg (stalled 0 3) ∧ CancelBitSet (1 - 1) (stalled 0 3) ∧ GateTimesOut 0 3 uneven (stalled 0 3)) ∧
    (LIdle (stalled 2 3) ∧ LCfg (stalled 2 3) ∧ CancelBitSet (1 - 1) (stalled 2 3) ∧ GateTimesOut 2 3 uneven (stalled 2 3)) ∧
    (let s := answering (List.replicate 2104 0 ++ []) (stalled 70 3)
     LIdle s ∧ LCfg s ∧ CancelBitSet (1 - 1) s ∧ (s.replyAt (2063 + 36 * 1)).getLsbD 3 = false ∧ GateTimesOut 70 3 uneven s) ∧
    (let s := answering (List.replicate 4372 8 ++ []) (stalled 196 3)
     LIdle s ∧ LCfg s ∧ CancelBitSet (64 - 1) s ∧ GateTimesOut 196 3 uneven s) := by
  refine ⟨⟨by decide, by decide, fun M h1 h2 => by omega, stalled_gateTimesOut 0 3 (by decide)⟩,
    ⟨by decide, by decide, fun M h1 h2 => by omega, stalled_gateTimesOut 2 3 (by decide)⟩,
    ⟨⟨rfl, rfl, rfl, rfl, rfl, rfl⟩, lcfg_limit 70 3 (by decide), fun M h1 h2 => by omega, ?_,
      answering_gateTimesOut _ _ _ _ _ (stalled_gateTimesOut 70 3 (by decide))⟩,
    ⟨⟨rfl, rfl, rfl, rfl, rfl, rfl⟩, lcfg_limit 196 3 (by decide), fun M h1 h2 => ?_,
      answering_gateTimesOut _ _ _ _ _ (stalled_gateTimesOut 196 3 (by decide))⟩⟩
  · rw [replyAt_first 2104 0 [] _ rfl _ (by decide)]
    rfl
  · rw [replyAt_first 4372 8 [] _ rfl _ (by omega)]
    rfl

/-- A running WRREG in its call of `SciWrite`, at the exchange of the address byte. -/
def running : State :=
  { busyAt [⟨.sciWrite 0xB 0, 5, 0⟩, ⟨.wrreg, 2, 0⟩] with
    cs := true, addr := 0xB, events := [.xchg 0x02 0, .csOn, .poll true] }

theorem witness_EveryStepKeepsTheSequencerInvariant :
    SequencerInv running ∧ step running = .next (afterMicro .discard 6 0 (exchange 0x0B running)) :=
  ⟨by unfold SequencerInv; decide, rfl⟩

theorem witness_EveryStepKeepsTheShapeOfTheTrace : WireInv running := by
  refine ⟨by unfold SequencerInv; decide, ?_, ?_⟩
  · change phaseSciWrite 5 (phaseOf running.trace)
    unfold phaseSciWrite
    decide
  · simp [LengthsOk, running, busyAt]

theorem witness_EveryStepKeepsTheCountersInRange : SafeInv running := by
  refine ⟨witness_EveryStepKeepsTheShapeOfTheTrace, ⟨by decide, fun _ => by decide, ?_, ?_, ?_, ?_⟩, ?_⟩
  · simp [ChunkCounters, running, busyAt]
  · simp [StreamCounters, running, busyAt]
  · simp [CancelCounter, running, busyAt]
  · simp [WaitCounter, running, busyAt]
  · simp [BufferOk, running, busyAt]

/-- A wait under a limit, a chunk of a transfer and a round of CANCEL, each with its counter at a bound. -/
theorem witness_counters :
    WaitCounter { limited 3 with busy := true, pc := [⟨.waitReady, 5, 0⟩, ⟨.waitrdy, 2, 0⟩], npoll := 3 } ∧
    ChunkCounters { busyAt [⟨.chunk .fill 32, 4, 0⟩, ⟨.cancel, 8, 0⟩] with n := 32, i := 32 } ∧
    CancelCounter { busyAt [⟨.cancel, 7, 0⟩] with bud := 32 } ∧
    ¬ WaitCounter { limited 3 with busy := true, pc := [⟨.waitReady, 2, 0⟩, ⟨.waitrdy, 2, 0⟩], npoll := 3 } := by
  refine ⟨?_, ?_, ?_, ?_⟩
  · simp [WaitCounter, limited, idle]
  · simp [ChunkCounters, busyAt]
  · simp [CancelCounter, busyAt]
  · simp [WaitCounter, limited, idle]

theorem witness_NoStepFaults : SafeInv running := witness_EveryStepKeepsTheCountersInRange

theorem witness_SelectLinesNeverBothAsserted :
    SequencerInv running ∧ Reaches running (afterMicro .discard 6 0 (exchange 0x0B running)) :=
  ⟨by unfold SequencerInv; decide, 1, rfl⟩

theorem witness_NoRunBreaksTheShapeOfTheTrace :
    WireInv running ∧ Reaches running (afterMicro .discard 6 0 (exchange 0x0B running)) :=
  ⟨witness_EveryStepKeepsTheShapeOfTheTrace, 1, rfl⟩

/-- The deepest stack (R24). -/
theorem witness_AtMostFiveFrames :
    SequencerInv (busyAt [⟨.waitReady, 1, 0⟩, ⟨.sciWrite 0x0 0x0804, 3, 0⟩, ⟨.softReset, 2, 0⟩, ⟨.hardReset, 14, 0⟩,
      ⟨.hreset, 2, 0⟩]) := by
  unfold SequencerInv
  decide

theorem witness_SpeedOnlyRisesAtTheEndOfAHardReset :
    step (busyAt [⟨.hardReset, 14, 0⟩, ⟨.hreset, 2, 0⟩]) =
      .next (afterMicro .discard 15 0 (speedHigh (busyAt [⟨.hardReset, 14, 0⟩, ⟨.hreset, 2, 0⟩]))) ∧
    step { idle with speed := true, resetIn := true } = .next (blockReset { idle with speed := true, resetIn := true }) :=
  ⟨rfl, rfl⟩

theorem witness_ConfigurationAndBufferAreConstant :
    step running = .next (afterMicro .discard 6 0 (exchange 0x0B running)) ∧ Memory.wf 32 [(0x1000, 0x11)] = true :=
  ⟨rfl, by decide⟩

theorem witness_FlagsChangeOnlyAtDone :
    (busyAt [⟨.wrreg, 2, 0⟩]).resetIn = false ∧
    step (busyAt [⟨.wrreg, 2, 0⟩]) = .next (finish .ok 0 (busyAt [⟨.wrreg, 2, 0⟩])) ∧
    (presented 0x51000000#32 0 0).resetIn = false ∧
    ∃ t, step (presented 0x51000000#32 0 0) = .next t ∧ t.busy = true := ⟨rfl, rfl, rfl, _, rfl, rfl⟩

theorem witness_ErrorCodesStayBelowSix :
    idle.err.toNat ≤ 5 ∧ (∀ r ∈ idle.responses, r.err.toNat ≤ 5) ∧
    ∃ t, step (presented 0#32 0 0) = .next t := ⟨by decide, by decide, _, rfl⟩

theorem witness_OneEventForEachMicroOperation :
    SequencerInv running ∧ running.resetIn = false ∧
    step running = .next (afterMicro .discard 6 0 (exchange 0x0B running)) ∧
    (∀ u d k j, lineOf ⟨.wrreg, 2, 0⟩ (busyAt [⟨.wrreg, 2, 0⟩]) ≠ .micro u d k j) :=
  ⟨by unfold SequencerInv; decide, rfl, rfl, fun _ _ _ _ h => by cases h⟩

/-- The three lines that raise. -/
theorem witness_ErrorExit :
    lineOf ⟨.wrchunk, 1, 0⟩ { busyAt [⟨.wrchunk, 1, 0⟩] with cmd := 0x11000021#32 } = .raise .oversize 0 ∧
    lineOf ⟨.verq, 3, 0⟩ { busyAt [⟨.verq, 3, 0⟩] with v := 8 } = .raise .badVersion 8 ∧
    lineOf ⟨.waitReady, 5, 0⟩ { limited 1 with npoll := 1 } = .raise .notResponding 0 ∧
    SequencerInv (busyAt [⟨.wrchunk, 1, 0⟩]) :=
  ⟨rfl, rfl, rfl, by unfold SequencerInv; decide⟩

theorem witness_WorkingRegistersAreWrittenWhereTheTableSays :
    (busyAt [⟨.cancel, 5, 0⟩]).resetIn = false ∧
    step (busyAt [⟨.cancel, 5, 0⟩]) = .next { busyAt [⟨.cancel, 6, 0⟩] with bud := 2048 } ∧
    (presented 0#32 0 0).resetIn = false ∧ (presented 0#32 0 0).pc = [] ∧ ∃ t, step (presented 0#32 0 0) = .next t :=
  ⟨rfl, rfl, rfl, rfl, _, rfl⟩

end Sys2Proof.Tests
end

section
/-! SUPPORT. What one step can do, said once: the word of a decoded command, acceptance, the effect of a micro-operation, what a
pseudocode line asks for, where a running line leads (30_encoding.md R60, 10_state.md R22 to R25). -/

namespace Sys2Proof

/-! ## The word of a decoded command -/

/-- The `op` byte of an operation (R60). -/
def CommandOp.byte (o : CommandOp) : Byte :=
  match o with
  | .wrreg => 0x02
  | .rdreg => 0x03
  | .wrdata => 0x10
  | .wrchunk => 0x11
  | .fill => 0x12
  | .hreset => 0x20
  | .sreset => 0x21
  | .cancel => 0x30
  | .verq => 0x40
  | .flowrd => 0x50
  | .waitrdy => 0x51

/-- Each operation has one `op` byte. -/
theorem byte_of_commandOp {op : Byte} {o : CommandOp} (h : commandOp op = some o) : op = o.byte := by
  apply BitVec.eq_of_toNat_eq
  unfold commandOp at h
  split at h <;> cases h <;> assumption

/-- The operand fields of a legal word are those of its instruction (R59, R61). -/
theorem commandWord_of_operands {o : CommandOp} {a : Byte} {v : BitVec 16} {i : Instr}
    (h : commandOperands o a v = some i) : commandWord i = packCommand o.byte a v := by
  cases o with
  | fill => cases h; rfl
  | wrreg =>
    obtain ⟨ha, hi⟩ := Option.ite_none_right_eq_some.mp h
    cases hi
    simp [commandWord, CommandOp.byte, addressByte_lowNibble a ha]
  | rdreg =>
    obtain ⟨⟨ha, rfl⟩, hi⟩ := Option.ite_none_right_eq_some.mp h
    cases hi
    simp [commandWord, CommandOp.byte, addressByte_lowNibble a ha]
  | wrchunk =>
    obtain ⟨rfl, hi⟩ := Option.ite_none_right_eq_some.mp h
    cases hi
    rfl
  | wrdata | hreset | sreset | cancel | verq | flowrd | waitrdy =>
    obtain ⟨⟨rfl, rfl⟩, hi⟩ := Option.ite_none_right_eq_some.mp h
    cases hi
    rfl

/-- A legal word is the command word of the instruction it decodes to (R60, R61). -/
theorem commandWord_of_decode {w : CmdWord} {i : Instr} (h : decode (.command w) = .ok i) : commandWord i = w := by
  simp only [decode, decodeCommand] at h
  cases ho : commandOp (opField w) with
  | none => simp [ho] at h
  | some o =>
    cases hi : commandOperands o (aField w) (vField w) with
    | none => simp [ho, hi] at h
    | some k =>
      simp only [ho, hi, Except.ok.injEq] at h
      subst h
      rw [commandWord_of_operands hi, ← byte_of_commandOp ho, packCommand_fields]

end Sys2Proof

namespace Sys2Proof.Machine

/-! ## Acceptance -/

/-- A legal command's meaning is `start` or, for a transfer out of the host buffer, `startTransfer`. -/
theorem exec_command_eq {w : CmdWord} {i : Instr} (h : decode (.command w) = .ok i) (s : State) :
    ∃ p, exec i s = start p i s ∨ ∃ len, exec i s = startTransfer p i len s := by
  have hcommand := decodeCommand_cases w i h
  cases i with
  | wrdata => exact ⟨.wrdata, .inr ⟨s.bufLen, rfl⟩⟩
  | wrchunk n =>
    refine ⟨.wrchunk, ?_⟩
    simp only [exec, execWrchunk]
    split
    · exact .inl rfl
    · exact .inr ⟨n.toNat, rfl⟩
  | wrreg | rdreg | fill | hreset | sreset | cancel | verq | flowrd | waitrdy => exact ⟨_, .inl rfl⟩
  | csa | csd | dsa | dsd | rsta | rstd | poll | xchg | delay | speedhi | sciWriteFrame | sciReadFrame | sdiChunkFrame =>
    simp at hcommand

/-- What the start of a presented legal command can leave: the latched state, or that state with the command accepted under the
word that was presented (R22). -/
theorem exec_latched_cases {s t : State} {l : Launch} {rest : List Launch} {i : Instr}
    (hd : decode (.command l.word) = .ok i) (hx : exec i (latch l rest s) = .next t) :
    t = latch l rest s ∨
      ∃ p, p.isCommand = true ∧ p.lines.contains (1, 0) = true ∧ t = accept p l.word (latch l rest s) :=
  commandWord_of_decode hd ▸ exec_command_cases _ _ i hd t hx

/-- A launch is refused for one of the two reasons of `L_BUF` only (R163). -/
theorem launchRefusal_some {len : Nat} {s : State} {why : Refusal} (h : launchRefusal len s = some why) :
    why = .bufferWraps ∨ why = .bufferUndefined := by
  unfold launchRefusal at h
  split at h
  · cases h; exact .inl rfl
  · split at h <;> cases h
    exact .inr rfl

/-- A legal command answers a next state or is refused as R163 refuses it. -/
theorem exec_command_next_or_refused {w : CmdWord} {i : Instr} (h : decode (.command w) = .ok i) (s : State) :
    (∃ t, exec i s = .next t) ∨ exec i s = .refused .bufferWraps ∨ exec i s = .refused .bufferUndefined := by
  obtain ⟨p, hx | ⟨len, hx⟩⟩ := exec_command_eq h s <;> rw [hx]
  · rcases start_cases p i s with ⟨_, h⟩ | ⟨_, h⟩ <;> exact .inl ⟨_, h⟩
  · rcases startTransfer_cases p i len s with ⟨_, h⟩ | ⟨_, why, hw, h⟩ | ⟨_, _, h⟩
    · exact .inl ⟨_, h⟩
    · rcases launchRefusal_some hw with rfl | rfl
      · exact .inr (.inl h)
      · exact .inr (.inr h)
    · exact .inl ⟨_, h⟩

/-! ## Micro-operations and assignments -/

/-- The ten micro-operations of R63. -/
def isMicroOp (u : Instr) : Bool :=
  match u with
  | .csa | .csd | .dsa | .dsd | .rsta | .rstd | .poll | .xchg _ | .delay _ | .speedhi => true
  | .wrreg _ _ | .rdreg _ | .wrdata | .wrchunk _ | .fill _ _ | .hreset | .sreset | .cancel | .verq | .flowrd | .waitrdy
  | .sciWriteFrame _ _ | .sciReadFrame _ _ _ | .sdiChunkFrame _ => false

/-- `s` with the lines, the values of the last poll and exchange, and the environment's draws of `t`. -/
def withLinkOf (t s : State) : State :=
  { s with
    cs := t.cs, ds := t.ds, rst := t.rst, speed := t.speed, b := t.b, reply := t.reply,
    flowScript := t.flowScript, pollCount := t.pollCount, replyScript := t.replyScript, xchgCount := t.xchgCount }

/-- `s` with the registers of `t` that a pseudocode assignment can write (R25, log entry 6). -/
def withRegistersOf (t s : State) : State :=
  { s with
    addr := t.addr, data := t.data, fill := t.fill, base := t.base, rem := t.rem, off := t.off, n := t.n, i := t.i,
    bud := t.bud, npoll := t.npoll, tmp := t.tmp, size := t.size, r := t.r, v := t.v }

/-- A micro-operation appends exactly one event and changes nothing but the link (R15, R48). -/
theorem exec_microOp (u : Instr) (hu : isMicroOp u = true) (s : State) :
    ∃ e t, exec u s = .next (emit e (withLinkOf t s)) := by
  cases u with
  | csa => exact ⟨_, assertCs s, rfl⟩
  | csd => exact ⟨_, deassertCs s, rfl⟩
  | dsa => exact ⟨_, assertDs s, rfl⟩
  | dsd => exact ⟨_, deassertDs s, rfl⟩
  | rsta => exact ⟨_, assertRst s, rfl⟩
  | rstd => exact ⟨_, deassertRst s, rfl⟩
  | poll => exact ⟨_, flowReady s, rfl⟩
  | xchg out => exact ⟨_, exchange out s, rfl⟩
  | delay t => exact ⟨_, delayFor t s, rfl⟩
  | speedhi => exact ⟨_, speedHigh s, rfl⟩
  | wrreg | rdreg | wrdata | wrchunk | fill | hreset | sreset | cancel | verq | flowrd | waitrdy | sciWriteFrame
  | sciReadFrame | sdiChunkFrame => simp [isMicroOp] at hu

/-! ## What a line asks for -/

/-- What the line at a frame can ask for (R13): micro-operations and no other instruction, assignments to working registers; which
procedures raise, and where a line stops. -/
def MayAsk (f : Frame) (s : State) (act : Act) : Prop :=
  match act with
  | .micro u _ _ _ => isMicroOp u = true
  | .assign t _ _ => t = withRegistersOf t s
  | .goto _ _ | .call _ _ _ | .ret | .done _ _ => True
  | .raise _ _ => f.proc = .wrchunk ∨ f.proc = .verq ∨ f.proc = .waitReady
  | .stop .hostbufUndefined => ∃ g n, f = ⟨.chunk g n, 5, 0⟩ ∧ sourceByte g s.i.toNat s = none
  | .stop .noSuchLine => (f.step, f.sub) ∉ f.proc.lines

/-! The requirement for each request, and for a test. -/

@[simp] theorem mayAsk_micro (f : Frame) (s : State) (u : Instr) (d : Dest) (k j : Nat) :
    MayAsk f s (.micro u d k j) ↔ isMicroOp u = true := .rfl
@[simp] theorem mayAsk_assign (f : Frame) (s t : State) (k j : Nat) :
    MayAsk f s (.assign t k j) ↔ t = withRegistersOf t s := .rfl
@[simp] theorem mayAsk_goto (f : Frame) (s : State) (k j : Nat) : MayAsk f s (.goto k j) := trivial
@[simp] theorem mayAsk_call (f : Frame) (s : State) (p : Proc) (k j : Nat) : MayAsk f s (.call p k j) := trivial
@[simp] theorem mayAsk_ret (f : Frame) (s : State) : MayAsk f s .ret := trivial
@[simp] theorem mayAsk_done (f : Frame) (s : State) (e : ErrorCode) (r : Half) : MayAsk f s (.done e r) := trivial
@[simp] theorem mayAsk_raise (f : Frame) (s : State) (e : ErrorCode) (r : Half) :
    MayAsk f s (.raise e r) ↔ f.proc = .wrchunk ∨ f.proc = .verq ∨ f.proc = .waitReady := .rfl
@[simp] theorem mayAsk_hostbufUndefined (f : Frame) (s : State) :
    MayAsk f s (.stop .hostbufUndefined) ↔ ∃ g n, f = ⟨.chunk g n, 5, 0⟩ ∧ sourceByte g s.i.toNat s = none := .rfl
@[simp] theorem mayAsk_noSuchLine (f : Frame) (s : State) :
    MayAsk f s (.stop .noSuchLine) ↔ (f.step, f.sub) ∉ f.proc.lines := .rfl
@[simp] theorem mayAsk_ite (f : Frame) (s : State) (c : Prop) [Decidable c] (a b : Act) :
    MayAsk f s (if c then a else b) ↔ (c → MayAsk f s a) ∧ (¬ c → MayAsk f s b) := by
  split <;> simp [*]

/-- Every line of every procedure asks for what `MayAsk` says. Outside of `Chunk`, whose line 5 reads a byte, each row of a table is
a fixed request or a test, and the row past the last is the line that does not exist. -/
theorem lineOf_mayAsk (f : Frame) (s : State) : MayAsk f s (lineOf f s) := by
  obtain ⟨p, k, j⟩ := f
  cases p with
  | chunk g n =>
    simp only [lineOf, chunkLine]
    split
    case h_5 =>
      cases hb : sourceByte g s.i.toNat s with
      | some x => rfl
      | none => exact ⟨g, n, rfl, hb⟩
    all_goals simp_all [isMicroOp, withRegistersOf, Proc.lines]
  | _ =>
    simp only [lineOf, wrregLine, rdregLine, wrdataLine, wrchunkLine, fillLine, hresetLine, sresetLine, cancelLine, verqLine,
      flowrdLine, waitrdyLine, waitReadyLine, sciWriteLine, sciReadLine, streamLine, hardResetLine, softResetLine]
    split <;> simp_all [isMicroOp, withRegistersOf, Proc.lines]

/-- The same of a request that is known. -/
theorem mayAsk_of_lineOf {f : Frame} {s : State} {act : Act} (h : lineOf f s = act) : MayAsk f s act :=
  h ▸ lineOf_mayAsk f s

/-! ## One line of a running command -/

/-- A line that is no micro-operation is done by `perform`. -/
theorem runAct_eq_perform {act : Act} (h : ∀ u d k j, act ≠ .micro u d k j) (s : State) : runAct act s = perform act s := by
  cases act with
  | micro u d k j => exact absurd rfl (h u d k j)
  | assign | goto | call | ret | done | raise | stop => rfl

/-- Everything one line of a running command can lead to. -/
theorem runLine_cases {f : Frame} {s t : State} (h : runLine f s = .next t) :
    (∃ u d k j e v, lineOf f s = .micro u d k j ∧ t = afterMicro d k j (emit e (withLinkOf v s))) ∨
    (∃ v k j, lineOf f s = .assign v k j ∧ t = goTo k j (withRegistersOf v s)) ∨
    (∃ k j, lineOf f s = .goto k j ∧ t = goTo k j s) ∨
    (∃ p k j, lineOf f s = .call p k j ∧ t = call p k j s) ∨
    (lineOf f s = .ret ∧ t = leave s) ∨
    (∃ e r, lineOf f s = .done e r ∧ t = finish e r s) ∨
    (∃ e r, lineOf f s = .raise e r ∧ t = raiseError e r s) := by
  have ask := lineOf_mayAsk f s
  unfold runLine at h
  generalize lineOf f s = act at ask h
  cases act with
  | micro u d k j =>
    obtain ⟨e, v, hx⟩ := exec_microOp u ask s
    simp only [runAct, hx, andThen, Host.Outcome.next.injEq] at h
    exact .inl ⟨u, d, k, j, e, v, rfl, h.symm⟩
  | assign v k j =>
    simp only [runAct, perform, Host.Outcome.next.injEq] at h
    exact .inr (.inl ⟨v, k, j, rfl, h ▸ congrArg (goTo k j) ask⟩)
  | goto k j => cases h; simp
  | call p k j => cases h; simp
  | ret => cases h; simp
  | done e r => cases h; simp
  | raise e r => cases h; simp
  | stop why => cases h

end Sys2Proof.Machine
end

section
/-! The obligations of 00_scope.md: what a step runs, that it does not fault, what it does to the flags and to the trace. -/

namespace Sys2Proof.Machine

/-! ## O13 -/

/-- Settles O13: the idle step, the micro-operation line and every other line, by what `step` is in each. -/
theorem stepRunsTheDecodedInstruction : Obligations.StepRunsTheDecodedInstruction := by
  refine ⟨?_, ?_, ?_⟩
  · intro s l rest i hr hp hb hport hd
    rw [step_idle s hr hp hb]
    simp [runIdle, fetch, hport, hd]
  · intro s f fs u d k j hr hp hl
    rw [step_line s f fs hr hp, runLine, hl, runAct]
  · intro s f fs hr hp hl
    rw [step_line s f fs hr hp, runLine, runAct_eq_perform hl]

/-! ## O56 -/

/-- Settles O56, by cases on what the step is; a line's own effect on the flags is that of `done` or none. -/
theorem flagsChangeOnlyAtDone : Obligations.FlagsChangeOnlyAtDone := by
  intro s t hr hs
  rcases step_cases s with ⟨h, _⟩ | ⟨_, _, _, h⟩ | ⟨_, hp, hb, l, rest, hport, h⟩ | ⟨_, f, fs, _, h⟩
  · simp [hr] at h
  · cases h.symm.trans hs
    exact .inl ⟨rfl, rfl, rfl, .inl rfl⟩
  · obtain ⟨e, _, h⟩ | ⟨i, hd, h⟩ := h
    · cases h.symm.trans hs
      right; simp
    · obtain rfl | ⟨p, _, _, rfl⟩ := exec_latched_cases hd (h.symm.trans hs)
      · exact .inl ⟨rfl, rfl, rfl, .inl rfl⟩
      · exact .inl ⟨rfl, rfl, rfl, .inr ⟨hb, hp, rfl, l, rest, hport, rfl, rfl⟩⟩
  · obtain ⟨u, d, k, j, e, v, _, rfl⟩ | ⟨v, k, j, _, rfl⟩ | ⟨k, j, _, rfl⟩ | ⟨p, k, j, _, rfl⟩ | ⟨_, rfl⟩ | ⟨e, r, _, rfl⟩ |
      ⟨e, r, _, rfl⟩ := runLine_cases (h.symm.trans hs)
    · left; simp [afterMicro, withLinkOf]
    · left; simp [withRegistersOf]
    · left; simp
    · left; simp
    · left; simp
    · right; simp
    · right; simp

/-! ## O58 -/

/-- In a legal run a line that raises finds both select lines deasserted (R81, R130). -/
theorem selectLines_down_at_raise {s : State} {f : Frame} {fs : List Frame} {e : ErrorCode} {r : Half}
    (hinv : SequencerInv s) (hp : s.pc = f :: fs) (hl : lineOf f s = .raise e r) : s.cs = false ∧ s.ds = false := by
  obtain ⟨_, _, hcs, hds, _⟩ := hinv
  rw [hcs, hds, hp]
  rcases mayAsk_of_lineOf hl with h | h | h <;> simp [csAt, dsAt, h]

/-- A line that performs a micro-operation appends one event. -/
theorem runLine_micro_trace {f : Frame} {s t : State} {u : Instr} {d : Dest} {k j : Nat}
    (hl : lineOf f s = .micro u d k j) (h : runLine f s = .next t) : ∃ e, t.trace = s.trace ++ [e] := by
  obtain ⟨e, v, hx⟩ := exec_microOp u (mayAsk_of_lineOf hl) s
  rw [runLine, hl, runAct, hx] at h
  cases h
  exact ⟨e, by simp [State.trace, afterMicro, withLinkOf]⟩

/-- A line that performs none appends no event, where a raising line finds the select lines deasserted. -/
theorem runLine_other_trace {f : Frame} {s t : State} (hno : ∀ u d k j, lineOf f s ≠ .micro u d k j)
    (hdown : ∀ e r, lineOf f s = .raise e r → s.cs = false ∧ s.ds = false) (h : runLine f s = .next t) :
    t.trace = s.trace := by
  obtain ⟨u, d, k, j, e, v, hl, _⟩ | ⟨v, k, j, _, rfl⟩ | ⟨k, j, _, rfl⟩ | ⟨p, k, j, _, rfl⟩ | ⟨_, rfl⟩ | ⟨e, r, _, rfl⟩ |
    ⟨e, r, hl, rfl⟩ := runLine_cases h
  · exact absurd hl (hno u d k j)
  · rfl
  · rfl
  · rfl
  · rfl
  · rfl
  · obtain ⟨hc, hd⟩ := hdown e r hl
    rw [raiseError_lines_down e r s hc hd]
    rfl

/-- In a legal run a step of an idle block appends no event (R24). -/
theorem step_idle_trace {s t : State} (hinv : SequencerInv s) (hr : s.resetIn = false) (hp : s.pc = [])
    (hs : step s = .next t) : t.trace = s.trace := by
  obtain ⟨_, _, hcs, hds, _⟩ := hinv
  rw [hp] at hcs hds
  rcases step_cases s with ⟨h, _⟩ | ⟨_, _, _, h⟩ | ⟨_, _, _, l, rest, _, ⟨e, _, h⟩ | ⟨i, hd, h⟩⟩ | ⟨_, f, fs, h, _⟩
  · simp [hr] at h
  · cases h.symm.trans hs
    rfl
  · cases h.symm.trans hs
    rw [raiseError_lines_down _ _ (latch l rest s) hcs hds]
    rfl
  · obtain rfl | ⟨p, _, _, rfl⟩ := exec_latched_cases hd (h.symm.trans hs) <;> rfl
  · simp [hp] at h

/-- Settles O58: an idle step, a line that performs a micro-operation, any other line. -/
theorem oneEventForEachMicroOperation : Obligations.OneEventForEachMicroOperation := by
  intro s t hinv hr hs
  refine ⟨fun hp => step_idle_trace hinv hr hp hs, fun f fs hp => ?_⟩
  rw [step_line s f fs hr hp] at hs
  exact ⟨fun _ _ _ _ hl => runLine_micro_trace hl hs,
    fun hno => runLine_other_trace hno (fun _ _ hl => selectLines_down_at_raise hinv hp hl) hs⟩

/-! ## O50 -/

/-- A legal control stack stands at a line that exists (R24). -/
theorem lineOf_ne_noSuchLine {s : State} {f : Frame} {fs : List Frame} (hinv : SequencerInv s) (hp : s.pc = f :: fs) :
    lineOf f s ≠ .stop .noSuchLine := by
  obtain ⟨hstack, _⟩ := hinv
  rw [hp, stackOk, Bool.and_eq_true, List.contains_iff_mem] at hstack
  exact fun hl => mayAsk_of_lineOf hl hstack.1

/-- Line 5 of a chunk has its counter below the chunk's length (R88), and every byte of the chunk is defined (R163). -/
theorem chunk_byte_defined {s : State} {g : Source} {n : Nat} {fs : List Frame} (hinv : SafeInv s)
    (hp : s.pc = ⟨.chunk g n, 5, 0⟩ :: fs) : sourceByte g s.i.toNat s ≠ none := by
  obtain ⟨⟨_, hphase, _⟩, _, hchunk, _⟩ := hinv
  cases g with
  | fill => simp [sourceByte]
  | buffer off =>
    have hi : s.i.toNat < n := by
      simp only [PhaseAt, hp, phaseChunk] at hphase
      obtain ⟨_, _, hi⟩ := hphase
      exact hi
    have hdef := hchunk ⟨.chunk (.buffer off) n, 5, 0⟩ (by simp [hp]) off n rfl s.i.toNat hi
    exact Option.isSome_iff_ne_none.mp hdef

/-- Under the safety invariant the line at `pc` can be executed. -/
theorem lineOf_ne_stop {s : State} {f : Frame} {fs : List Frame} (hinv : SafeInv s) (hp : s.pc = f :: fs) (why : Fault) :
    lineOf f s ≠ .stop why := by
  cases why with
  | noSuchLine =>
    obtain ⟨⟨hseq, _⟩, _⟩ := hinv
    exact lineOf_ne_noSuchLine hseq hp
  | hostbufUndefined =>
    intro hl
    obtain ⟨g, n, rfl, hb⟩ := mayAsk_of_lineOf hl
    exact chunk_byte_defined hinv hp hb

/-- A line that can be executed answers a next state. -/
theorem runLine_next {f : Frame} {s : State} (h : ∀ why, lineOf f s ≠ .stop why) : ∃ t, runLine f s = .next t := by
  have ask := lineOf_mayAsk f s
  unfold runLine
  generalize lineOf f s = act at ask h
  cases act with
  | micro u d k j =>
    obtain ⟨e, v, hx⟩ := exec_microOp u ask s
    exact ⟨_, by rw [runAct, hx, andThen]⟩
  | stop why => exact absurd rfl (h why)
  | assign | goto | call | ret | done | raise => exact ⟨_, rfl⟩

/-- Settles O50: only a launch can be refused, and only the line at `pc` could fault. -/
theorem noStepFaults : Obligations.NoStepFaults := by
  intro s hinv
  rcases step_cases s with ⟨_, h⟩ | ⟨_, _, _, h⟩ | ⟨_, _, _, l, rest, _, ⟨e, _, h⟩ | ⟨i, hd, h⟩⟩ | ⟨_, f, fs, hp, h⟩ <;> rw [h]
  · exact .inl ⟨_, rfl⟩
  · exact .inl ⟨_, rfl⟩
  · exact .inl ⟨_, rfl⟩
  · exact exec_command_next_or_refused hd (latch l rest s)
  · exact .inl (runLine_next (lineOf_ne_stop hinv hp))

end Sys2Proof.Machine
end

section
/-! SUPPORT. What a step leads to, said once for the invariants: the start of a command with its launch premise, the next state of
each request of a line, where a line leaves `pc` and the three lines, how deep a procedure can be called (10_state.md R18, R22,
R24; 70_reset_and_hazards.md R163). -/

namespace Sys2Proof.Machine

/-! ## Acceptance -/

/-- The launch premise that the block itself checks (R163): `L_BUF`, for a transfer out of the host buffer. -/
def Launchable (i : Instr) (s : State) : Prop :=
  match i with
  | .wrdata => LBuf s.bufLen s
  | .wrchunk n => n.toNat ≤ 32 → LBuf n.toNat s
  | _ => True

/-- An idle block accepts the command that `start` is given. -/
theorem start_next_iff {p : Proc} {i : Instr} {s t : State} (hb : s.busy = false) :
    start p i s = .next t ↔ t = accept p (commandWord i) s := by
  simp [start, hb, eq_comm]

/-- An idle block starts a transfer exactly where `L_BUF` holds. -/
theorem startTransfer_next_iff {p : Proc} {i : Instr} {len : Nat} {s t : State} (hb : s.busy = false) :
    startTransfer p i len s = .next t ↔ LBuf len s ∧ t = accept p (commandWord i) s := by
  rw [LBuf, ← launchRefusal_none]
  cases hl : launchRefusal len s <;> simp [startTransfer, start, hb, hl, eq_comm]

/-- An idle block accepts a legal command exactly where its launch premise holds (R22, R163). -/
theorem exec_command_next_iff {w : CmdWord} {i : Instr} {s t : State} (hd : decode (.command w) = .ok i)
    (hb : s.busy = false) :
    exec i s = .next t ↔ Launchable i s ∧ ∃ p, commandProc i = some p ∧ t = accept p w s := by
  obtain rfl := commandWord_of_decode hd
  have hcommand := decodeCommand_cases _ i hd
  cases i with
  | wrdata => simp [exec, execWrdata, startTransfer_next_iff hb, Launchable, commandProc]
  | wrchunk n =>
    by_cases h : n.toNat ≤ 32
    · simp [exec, execWrchunk, startTransfer_next_iff hb, Launchable, commandProc, chunkMax, h, Nat.not_lt_of_le h]
    · simp [exec, execWrchunk, start_next_iff hb, Launchable, commandProc, chunkMax, h, Nat.lt_of_not_le h]
  | wrreg | rdreg | fill | hreset | sreset | cancel | verq | flowrd | waitrdy =>
    change start _ _ _ = _ ↔ _
    simp [start_next_iff hb, Launchable, commandProc]
  | csa | csd | dsa | dsd | rsta | rstd | poll | xchg | delay | speedhi | sciWriteFrame | sciReadFrame | sdiChunkFrame =>
    simp at hcommand

/-- The procedure of a command is a command's own pseudocode. -/
theorem isCommand_of_commandProc {i : Instr} {p : Proc} (h : commandProc i = some p) : p.isCommand = true := by
  cases i <;> cases h <;> rfl

/-! ## The next state of a step -/

/-- What a micro-operation does (R67 to R78). -/
def microEffect (u : Instr) (s : State) : State :=
  match u with
  | .csa => assertCs s
  | .csd => deassertCs s
  | .dsa => assertDs s
  | .dsd => deassertDs s
  | .rsta => assertRst s
  | .rstd => deassertRst s
  | .poll => flowReady s
  | .xchg out => exchange out s
  | .delay t => delayFor t s
  | .speedhi => speedHigh s
  | _ => s

/-- `exec` of a micro-operation is its effect. -/
theorem exec_microEffect {u : Instr} (hu : isMicroOp u = true) (s : State) : exec u s = .next (microEffect u s) := by
  cases u with
  | csa | csd | dsa | dsd | rsta | rstd | poll | xchg | delay | speedhi => rfl
  | wrreg | rdreg | wrdata | wrchunk | fill | hreset | sreset | cancel | verq | flowrd | waitrdy | sciWriteFrame
  | sciReadFrame | sdiChunkFrame => cases hu

@[simp] theorem microEffect_pc (u : Instr) (s : State) : (microEffect u s).pc = s.pc := by cases u <;> rfl
@[simp] theorem microEffect_busy (u : Instr) (s : State) : (microEffect u s).busy = s.busy := by cases u <;> rfl

/-- A micro-operation changes the trace and the link, and nothing else. -/
theorem microEffect_withLinkOf (u : Instr) (s : State) :
    ∃ evs, microEffect u s = { withLinkOf (microEffect u s) s with events := evs } := by
  cases u <;> exact ⟨_, rfl⟩

/-- The state after a line that asks for `act`. -/
def actEffect (act : Act) (s : State) : State :=
  match act with
  | .micro u d k j => afterMicro d k j (microEffect u s)
  | .assign t k j => goTo k j t
  | .goto k j => goTo k j s
  | .call p k j => call p k j s
  | .ret => leave s
  | .done e r => finish e r s
  | .raise e info => raiseError e info s
  | .stop _ => s

/-- A line that answers a next state has the effect of what it asks for. -/
theorem runLine_effect {f : Frame} {s t : State} (h : runLine f s = .next t) : t = actEffect (lineOf f s) s := by
  have ask := lineOf_mayAsk f s
  unfold runLine at h
  generalize lineOf f s = act at ask h ⊢
  cases act with
  | micro u d k j =>
    rw [runAct, exec_microEffect ask, andThen] at h
    cases h; rfl
  | stop why => cases h
  | assign | goto | call | ret | done | raise => cases h; rfl

/-- `pc` after a line at `f`, with the callers `fs` below, that asks for `act` (R24). -/
def pcAfter (f : Frame) (fs : List Frame) (act : Act) : List Frame :=
  match act with
  | .micro _ _ k j | .assign _ k j | .goto k j => ⟨f.proc, k, j⟩ :: fs
  | .call p k j => ⟨p, 1, 0⟩ :: ⟨f.proc, k, j⟩ :: fs
  | .ret => fs
  | .done _ _ | .raise _ _ => []
  | .stop _ => f :: fs

/-- A line moves `pc` there. -/
theorem line_pc {s : State} {f : Frame} {fs : List Frame} (hp : s.pc = f :: fs) :
    (actEffect (lineOf f s) s).pc = pcAfter f fs (lineOf f s) := by
  cases h : lineOf f s with
  | micro u d k j => simp [actEffect, pcAfter, afterMicro, hp]
  | assign t k j =>
    rw [mayAsk_of_lineOf h]
    simp [actEffect, pcAfter, withRegistersOf, hp]
  | goto | ret => simp [actEffect, pcAfter, hp]
  | call p k j => simp [actEffect, pcAfter, call, hp]
  | done | raise => rfl
  | stop why => exact hp

/-- Everything a step that answers a next state can be: block reset, an idle block standing still, an illegal word, an
acceptance, a line of the running command. -/
inductive StepTo (s : State) : State → Prop where
  | reset : s.resetIn = true → StepTo s (blockReset s)
  | still : s.resetIn = false → s.pc = [] → StepTo s s
  | illegal (l : Launch) (rest : List Launch) : s.resetIn = false → s.pc = [] → s.busy = false → s.port = l :: rest →
      StepTo s (raiseError .illegalCmd 0 (latch l rest s))
  | accepted (l : Launch) (rest : List Launch) (i : Instr) (p : Proc) : s.resetIn = false → s.pc = [] → s.busy = false →
      s.port = l :: rest → decode (.command l.word) = .ok i → Launchable i (latch l rest s) → commandProc i = some p →
      StepTo s (accept p l.word (latch l rest s))
  | line (f : Frame) (fs : List Frame) : s.resetIn = false → s.pc = f :: fs → StepTo s (actEffect (lineOf f s) s)

/-- A step that answers a next state is one of these. -/
theorem stepTo_of_step {s t : State} (h : step s = .next t) : StepTo s t := by
  rcases step_cases s with ⟨hr, hs⟩ | ⟨hr, hp, _, hs⟩ | ⟨hr, hp, hb, l, rest, hport, hs⟩ | ⟨hr, f, fs, hp, hs⟩
  · cases hs.symm.trans h
    exact .reset hr
  · cases hs.symm.trans h
    exact .still hr hp
  · obtain ⟨e, _, hs⟩ | ⟨i, hd, hs⟩ := hs
    · cases hs.symm.trans h
      exact .illegal l rest hr hp hb hport
    · obtain ⟨hl, p, hcp, rfl⟩ :=
        (exec_command_next_iff (s := latch l rest s) hd hb).mp (hs.symm.trans h)
      exact .accepted l rest i p hr hp hb hport hd hl hcp
  · obtain rfl := runLine_effect (hs.symm.trans h)
    exact .line f fs hr hp

/-! ## Where a line leaves `pc` and the three lines -/

/-- The three lines `CS`, `DS`, `RST` as they stand. -/
def linesOf (s : State) : Bool × Bool × Bool := (s.cs, s.ds, s.rst)

/-- The three lines as `pc` says. -/
def linesAt (pc : List Frame) : Bool × Bool × Bool := (csAt pc, dsAt pc, rstAt pc)

/-- The three lines after a micro-operation (R67 to R72). -/
def linesAfter (u : Instr) (x : Bool × Bool × Bool) : Bool × Bool × Bool :=
  match u with
  | .csa => (true, x.2)
  | .csd => (false, x.2)
  | .dsa => (x.1, true, x.2.2)
  | .dsd => (x.1, false, x.2.2)
  | .rsta => (x.1, x.2.1, true)
  | .rstd => (x.1, x.2.1, false)
  | _ => x

/-- No line asserted. -/
abbrev linesDown : Bool × Bool × Bool := (false, false, false)

theorem linesOf_microEffect (u : Instr) (s : State) : linesOf (microEffect u s) = linesAfter u (linesOf s) := by
  cases u <;> rfl

/-- Where the lines stand is said by the innermost frame alone. -/
theorem linesAt_cons (f : Frame) (fs : List Frame) : linesAt (f :: fs) = linesAt [f] := rfl

/-- The invariant of the sequencer, the three lines taken together. -/
theorem sequencerInv_iff (s : State) :
    SequencerInv s ↔ stackOk s.pc = true ∧ s.busy = !s.pc.isEmpty ∧ linesOf s = linesAt s.pc := by
  simp [SequencerInv, linesOf, linesAt]

/-- Where the request of a line leads: to a line of the same procedure, into a callee, back to a caller or to `IDLE`; and that the
three lines then stand as the new place says. -/
def Flows (f : Frame) (act : Act) : Prop :=
  match act with
  | .micro u _ k j => (k, j) ∈ f.proc.lines ∧ linesAfter u (linesAt [f]) = linesAt [⟨f.proc, k, j⟩]
  | .assign _ k j | .goto k j => (k, j) ∈ f.proc.lines ∧ linesAt [f] = linesAt [⟨f.proc, k, j⟩]
  | .call p k j => (k, j) ∈ p.resumesAt f.proc ∧ linesAt [f] = linesDown
  | .ret => f.proc.isCommand = false ∧ linesAt [f] = linesDown
  | .done _ _ | .raise _ _ => linesAt [f] = linesDown
  | .stop _ => True

@[simp] theorem flows_micro (f : Frame) (u : Instr) (d : Dest) (k j : Nat) : Flows f (.micro u d k j) ↔
    (k, j) ∈ f.proc.lines ∧ linesAfter u (linesAt [f]) = linesAt [⟨f.proc, k, j⟩] := .rfl
@[simp] theorem flows_assign (f : Frame) (t : State) (k j : Nat) : Flows f (.assign t k j) ↔
    (k, j) ∈ f.proc.lines ∧ linesAt [f] = linesAt [⟨f.proc, k, j⟩] := .rfl
@[simp] theorem flows_goto (f : Frame) (k j : Nat) : Flows f (.goto k j) ↔
    (k, j) ∈ f.proc.lines ∧ linesAt [f] = linesAt [⟨f.proc, k, j⟩] := .rfl
@[simp] theorem flows_call (f : Frame) (p : Proc) (k j : Nat) : Flows f (.call p k j) ↔
    (k, j) ∈ p.resumesAt f.proc ∧ linesAt [f] = linesDown := .rfl
@[simp] theorem flows_ret (f : Frame) : Flows f .ret ↔ f.proc.isCommand = false ∧ linesAt [f] = linesDown := .rfl
@[simp] theorem flows_done (f : Frame) (e : ErrorCode) (r : Half) : Flows f (.done e r) ↔ linesAt [f] = linesDown := .rfl
@[simp] theorem flows_raise (f : Frame) (e : ErrorCode) (r : Half) : Flows f (.raise e r) ↔ linesAt [f] = linesDown := .rfl
@[simp] theorem flows_stop (f : Frame) (why : Fault) : Flows f (.stop why) := trivial

@[simp] theorem flows_ite (f : Frame) (c : Prop) [Decidable c] (a b : Act) :
    Flows f (if c then a else b) ↔ (c → Flows f a) ∧ (¬ c → Flows f b) := by
  split <;> simp [*]

/-- Every line of every procedure leads where `Flows` says. -/
theorem lineOf_flows (f : Frame) (s : State) : Flows f (lineOf f s) := by
  obtain ⟨p, k, j⟩ := f
  cases p with
  | chunk g n =>
    simp only [lineOf, chunkLine]
    split
    case h_5 => split <;> simp [Proc.lines, linesAt, csAt, dsAt, rstAt, linesAfter]
    all_goals simp [Proc.lines, Proc.resumesAt, afterWaitReady, Proc.isCommand, linesAt, csAt, dsAt, rstAt, linesAfter]
  | _ =>
    simp only [lineOf, wrregLine, rdregLine, wrdataLine, wrchunkLine, fillLine, hresetLine, sresetLine, cancelLine, verqLine,
      flowrdLine, waitrdyLine, waitReadyLine, sciWriteLine, sciReadLine, streamLine, hardResetLine, softResetLine]
    split <;> simp [Proc.lines, Proc.resumesAt, afterWaitReady, afterSciWrite, afterSciRead, afterChunk, afterStream,
      afterHardReset, afterSoftReset, Proc.isCommand, linesAt, csAt, dsAt, rstAt, linesAfter]

/-- Every procedure has a first line, at which no line is asserted. -/
theorem first_line (p : Proc) : (1, 0) ∈ p.lines ∧ linesAt [⟨p, 1, 0⟩] = linesDown := by
  cases p <;> exact ⟨by simp [Proc.lines], rfl⟩

/-! ## How deep a procedure can be called -/

/-- The number of callers a procedure can have below it (R24). -/
def Proc.rank (p : Proc) : Nat :=
  match p with
  | .wrreg | .rdreg | .wrdata | .wrchunk | .fill | .hreset | .sreset | .cancel | .verq | .flowrd | .waitrdy => 0
  | .hardReset | .stream _ _ => 1
  | .softReset => 2
  | .sciWrite _ _ | .sciRead _ | .chunk _ _ => 3
  | .waitReady => 4

/-- A caller has fewer callers than its callee. -/
theorem rank_lt_of_resumesAt {p q : Proc} {x : Nat × Nat} (h : x ∈ p.resumesAt q) : q.rank < p.rank := by
  cases p <;> simp only [Proc.resumesAt, List.not_mem_nil] at h <;> cases q <;>
    simp_all [afterWaitReady, afterSciWrite, afterSciRead, afterChunk, afterStream, afterHardReset, afterSoftReset, Proc.rank]

/-- A caller and its callers, taken apart. -/
theorem callersOk_cons {p : Proc} {g : Frame} {fs : List Frame} :
    callersOk p (g :: fs) = true ↔ (g.step, g.sub) ∈ p.resumesAt g.proc ∧ callersOk g.proc fs = true := by
  simp [callersOk]

/-- The frames of a stack, taken apart. -/
theorem stackOk_cons {f : Frame} {fs : List Frame} :
    stackOk (f :: fs) = true ↔ (f.step, f.sub) ∈ f.proc.lines ∧ callersOk f.proc fs = true := by
  simp [stackOk]

/-- Every caller below a procedure has a lower rank, so that no procedure is on `pc` twice. -/
theorem rank_lt_of_callersOk {p : Proc} {fs : List Frame} (h : callersOk p fs = true) : ∀ g ∈ fs, g.proc.rank < p.rank := by
  induction fs generalizing p with
  | nil => simp
  | cons g fs ih =>
    obtain ⟨hg, hfs⟩ := callersOk_cons.mp h
    have hlt := rank_lt_of_resumesAt hg
    exact List.forall_mem_cons.mpr ⟨hlt, fun q hq => (ih hfs q hq).trans hlt⟩

/-- There are at most `rank` callers below a procedure. -/
theorem length_le_rank_of_callersOk {p : Proc} {fs : List Frame} (h : callersOk p fs = true) : fs.length ≤ p.rank := by
  induction fs generalizing p with
  | nil => simp
  | cons g fs ih =>
    obtain ⟨hg, hfs⟩ := callersOk_cons.mp h
    exact (Nat.succ_le_succ (ih hfs)).trans (rank_lt_of_resumesAt hg)

/-- The outermost frame is a command's own pseudocode. -/
theorem outermost_isCommand {f g : Frame} {fs : List Frame} (h : callersOk f.proc fs = true)
    (hg : (f :: fs).getLast? = some g) : g.proc.isCommand = true := by
  induction fs generalizing f with
  | nil => cases hg; exact h
  | cons q fs ih => exact ih (callersOk_cons.mp h).2 hg

end Sys2Proof.Machine
end

section
/-! SUPPORT. What one line writes and what it leaves: the registers of its own procedure (10_state.md R25), the clock speed (R19),
the configuration and the host's side (R22, R27, R37), and that the port does not influence it (20_memory.md R50). -/

namespace Sys2Proof.Machine

/-! ## Which registers an assignment writes -/

/-- `s` with the registers of `t` that the lines of a procedure assign (R25, column "written by"; log entry 6). -/
def ownRegisters (p : Proc) (t s : State) : State :=
  match p with
  | .waitReady => { s with npoll := t.npoll }
  | .sciWrite _ _ | .sciRead _ => { s with addr := t.addr, data := t.data }
  | .chunk _ _ => { s with n := t.n, i := t.i }
  | .stream _ _ => { s with rem := t.rem, off := t.off, size := t.size }
  | .wrdata | .wrchunk => { s with base := t.base }
  | .fill => { s with fill := t.fill }
  | .cancel => { s with fill := t.fill, bud := t.bud, tmp := t.tmp, r := t.r }
  | .verq => { s with tmp := t.tmp, v := t.v }
  | .rdreg => { s with r := t.r }
  | .wrreg | .hreset | .sreset | .flowrd | .waitrdy | .hardReset | .softReset => s

/-- An assignment writes registers of its own procedure only. -/
theorem assign_ownRegisters {f : Frame} {s t : State} {k j : Nat} (h : lineOf f s = .assign t k j) :
    t = ownRegisters f.proc t s := by
  obtain ⟨p, a, b⟩ := f
  cases p <;> simp only [lineOf, wrregLine, rdregLine, wrdataLine, wrchunkLine, fillLine, hresetLine, sresetLine, cancelLine,
      verqLine, flowrdLine, waitrdyLine, waitReadyLine, sciWriteLine, sciReadLine, chunkLine, streamLine, hardResetLine,
      softResetLine] at h <;>
    split at h <;> (try split at h) <;> cases h <;> rfl

/-- The eleven working registers are the same in `t` as in `s`, or `p` is a procedure that R25 names for the one that is not. -/
def WrittenBy (p : Proc) (s t : State) : Prop :=
  (t.addr = s.addr ∨ (∃ a v, p = .sciWrite a v) ∨ ∃ a, p = .sciRead a) ∧
  (t.data = s.data ∨ (∃ a v, p = .sciWrite a v) ∨ ∃ a, p = .sciRead a) ∧
  (t.fill = s.fill ∨ p = .fill ∨ p = .cancel) ∧
  (t.base = s.base ∨ p = .wrdata ∨ p = .wrchunk) ∧
  (t.rem = s.rem ∨ ∃ g len, p = .stream g len) ∧
  (t.off = s.off ∨ ∃ g len, p = .stream g len) ∧
  (t.n = s.n ∨ ∃ g m, p = .chunk g m) ∧
  (t.i = s.i ∨ ∃ g m, p = .chunk g m) ∧
  (t.bud = s.bud ∨ p = .cancel) ∧
  (t.npoll = s.npoll ∨ p = .waitReady) ∧
  (t.tmp = s.tmp ∨ p = .cancel ∨ p = .verq)

/-- The registers a procedure assigns are those that the table allows it. -/
theorem writtenBy_ownRegisters (p : Proc) (s t : State) : WrittenBy p s (ownRegisters p t s) := by
  cases p <;> simp [WrittenBy, ownRegisters]

/-- A line writes the working registers of its own procedure only. -/
theorem line_writtenBy (f : Frame) (s : State) : WrittenBy f.proc s (actEffect (lineOf f s) s) := by
  cases h : lineOf f s with
  | micro u d k j =>
    obtain ⟨evs, hu⟩ := microEffect_withLinkOf u s
    rw [actEffect, hu]
    simp [WrittenBy, afterMicro, withLinkOf]
  | assign t k j =>
    rw [assign_ownRegisters h]
    exact writtenBy_ownRegisters f.proc s t
  | goto | call | ret | done | raise | stop => simp [WrittenBy, actEffect]

/-! ## The clock speed -/

/-- `SpeedHigh` is performed by the last action of the hard reset only (R99). -/
theorem line_of_speedhi {f : Frame} {s : State} {d : Dest} {k j : Nat} (h : lineOf f s = .micro .speedhi d k j) :
    f = ⟨.hardReset, 14, 0⟩ := by
  obtain ⟨p, a, b⟩ := f
  cases p <;> simp only [lineOf, wrregLine, rdregLine, wrdataLine, wrchunkLine, fillLine, hresetLine, sresetLine, cancelLine,
      verqLine, flowrdLine, waitrdyLine, waitReadyLine, sciWriteLine, sciReadLine, chunkLine, streamLine, hardResetLine,
      softResetLine] at h <;>
    split at h <;> (try split at h) <;> cases h
  rfl

/-- No micro-operation but SPEEDHI changes the clock speed (R19). -/
theorem microEffect_speed (u : Instr) (s : State) :
    (microEffect u s).speed = s.speed ∨ u = .speedhi ∧ (microEffect u s).speed = true := by
  cases u with
  | speedhi => exact .inr ⟨rfl, rfl⟩
  | _ => exact .inl rfl

/-- A line keeps the clock speed, or is the last action of the hard reset and raises it. -/
theorem line_speed (f : Frame) (s : State) :
    (actEffect (lineOf f s) s).speed = s.speed ∨
      (actEffect (lineOf f s) s).speed = true ∧ f = ⟨.hardReset, 14, 0⟩ := by
  cases h : lineOf f s with
  | micro u d k j =>
    obtain hu | ⟨rfl, hu⟩ := microEffect_speed u s
    · left; simpa [actEffect, afterMicro] using hu
    · exact .inr ⟨by simpa [actEffect, afterMicro] using hu, line_of_speedhi h⟩
  | assign t k j =>
    left
    rw [mayAsk_of_lineOf h]
    rfl
  | goto | call | ret | done | raise | stop => left; simp [actEffect]

/-! ## The host's side -/

/-- The configuration and what the host holds or has had latched are the same in `t` as in `s`. -/
def HostKept (s t : State) : Prop :=
  t.cfg = s.cfg ∧ t.hostbuf = s.hostbuf ∧ t.port = s.port ∧ t.cmd = s.cmd ∧ t.bufBase = s.bufBase ∧ t.bufLen = s.bufLen

/-- A line leaves the configuration, the host buffer, the port and the operand registers. -/
theorem line_keeps_host (f : Frame) (s : State) : HostKept s (actEffect (lineOf f s) s) := by
  cases h : lineOf f s with
  | micro u d k j =>
    obtain ⟨evs, hu⟩ := microEffect_withLinkOf u s
    rw [actEffect, hu]
    simp [HostKept, afterMicro, withLinkOf]
  | assign t k j =>
    rw [mayAsk_of_lineOf h]
    simp [HostKept, actEffect, withRegistersOf]
  | goto | call | ret | done | raise | stop => simp [HostKept, actEffect]

/-- Every step keeps the configuration and the host buffer. -/
theorem step_keeps_cfg_hostbuf {s t : State} (h : step s = .next t) : t.cfg = s.cfg ∧ t.hostbuf = s.hostbuf := by
  cases stepTo_of_step h with
  | reset | still | illegal | accepted => simp
  | line f fs =>
    obtain ⟨hcfg, hbuf, _⟩ := line_keeps_host f s
    exact ⟨hcfg, hbuf⟩

/-! ## The port -/

/-- `s` with other commands presented on the port. -/
def withPort (p : List Launch) (s : State) : State := { s with port := p }

/-- The request of a line with other commands presented on the port. -/
def Act.withPort (p : List Launch) (act : Act) : Act :=
  match act with
  | .assign t k j => .assign (Machine.withPort p t) k j
  | _ => act

/-- The bytes a chunk reads do not depend on the port. -/
theorem sourceByte_withPort (p : List Launch) (g : Source) (i : Nat) (s : State) :
    sourceByte g i (withPort p s) = sourceByte g i s := by
  cases g <;> rfl

/-- What a line asks for does not depend on the port. -/
theorem lineOf_withPort (p : List Launch) (f : Frame) (s : State) : lineOf f (withPort p s) = (lineOf f s).withPort p := by
  obtain ⟨q, a, b⟩ := f
  cases q with
  | chunk g n =>
    simp only [lineOf, chunkLine]
    split
    case h_4 => rw [apply_ite (Act.withPort p)]; rfl
    case h_5 =>
      have hbyte : sourceByte g (withPort p s).i.toNat (withPort p s) = sourceByte g s.i.toNat s :=
        sourceByte_withPort p g s.i.toNat s
      rw [hbyte]
      cases sourceByte g s.i.toNat s <;> rfl
    all_goals rfl
  | _ =>
    simp only [lineOf, wrregLine, rdregLine, wrdataLine, wrchunkLine, fillLine, hresetLine, sresetLine, cancelLine, verqLine,
      flowrdLine, waitrdyLine, waitReadyLine, sciWriteLine, sciReadLine, streamLine, hardResetLine, softResetLine]
    split <;> (try rw [apply_ite (Act.withPort p)]) <;> rfl

/-- A micro-operation's effect does not depend on the port. -/
theorem microEffect_withPort (p : List Launch) (u : Instr) (s : State) :
    microEffect u (withPort p s) = withPort p (microEffect u s) := by
  cases u <;> rfl

/-- Nor does the error exit's. -/
theorem raiseError_withPort (p : List Launch) (e : ErrorCode) (r : Half) (s : State) :
    raiseError e r (withPort p s) = withPort p (raiseError e r s) := by
  cases hc : s.cs <;> cases hd : s.ds <;> simp [raiseError, releaseCs, releaseDs, withPort, hc, hd] <;> rfl

/-- A line's outcome, with other commands presented on the port. -/
theorem runLine_withPort (p : List Launch) (f : Frame) (s : State) :
    runLine f (withPort p s) = andThen (runLine f s) (withPort p) := by
  have ask := lineOf_mayAsk f s
  rw [runLine, runLine, lineOf_withPort]
  generalize lineOf f s = act at ask
  cases act with
  | micro u d k j =>
    simp only [Act.withPort, runAct, exec_microEffect ask, microEffect_withPort, andThen]
    cases d <;> rfl
  | raise e r => simp only [Act.withPort, runAct, perform, raiseError_withPort, andThen]
  | assign | goto | call | ret | done | stop => rfl

end Sys2Proof.Machine
end

section
/-! SUPPORT. Invariants that speak of every frame of `pc`, kept line by line: a line changes the innermost frame and the registers
of its own procedure, and no frame below it is of that procedure (10_state.md R24, R25). -/

namespace Sys2Proof.Machine

/-- What a condition on a frame may speak of: the configuration, the host buffer, the operand registers, and the registers that
lines assign; all else as at reset. -/
def registersOf (s : State) : State :=
  withRegistersOf s
    { State.reset with cfg := s.cfg, hostbuf := s.hostbuf, cmd := s.cmd, bufBase := s.bufBase, bufLen := s.bufLen }

/-- A micro-operation's line leaves these. -/
theorem registersOf_micro (u : Instr) (d : Dest) (k j : Nat) (s : State) :
    registersOf (afterMicro d k j (microEffect u s)) = registersOf s := by
  obtain ⟨evs, hu⟩ := microEffect_withLinkOf u s
  rw [hu]
  cases d <;> rfl

/-- What the request of a line must provide for the condition `P` on frames: `P` of the innermost frame at its next line, and of
a callee at its first. -/
def KeepsFrame (P : Frame → State → Prop) (f : Frame) (s : State) (act : Act) : Prop :=
  match act with
  | .micro _ _ k j | .goto k j => P ⟨f.proc, k, j⟩ s
  | .assign t k j => P ⟨f.proc, k, j⟩ t
  | .call p k j => P ⟨p, 1, 0⟩ s ∧ P ⟨f.proc, k, j⟩ s
  | .ret | .done _ _ | .raise _ _ | .stop _ => True

section
variable (P : Frame → State → Prop) (f : Frame) (s : State)

@[simp] theorem keepsFrame_micro (u : Instr) (d : Dest) (k j : Nat) :
    KeepsFrame P f s (.micro u d k j) ↔ P ⟨f.proc, k, j⟩ s := .rfl
@[simp] theorem keepsFrame_goto (k j : Nat) : KeepsFrame P f s (.goto k j) ↔ P ⟨f.proc, k, j⟩ s := .rfl
@[simp] theorem keepsFrame_assign (t : State) (k j : Nat) :
    KeepsFrame P f s (.assign t k j) ↔ P ⟨f.proc, k, j⟩ t := .rfl
@[simp] theorem keepsFrame_call (p : Proc) (k j : Nat) :
    KeepsFrame P f s (.call p k j) ↔ P ⟨p, 1, 0⟩ s ∧ P ⟨f.proc, k, j⟩ s := .rfl
@[simp] theorem keepsFrame_ret : KeepsFrame P f s .ret := trivial
@[simp] theorem keepsFrame_done (e : ErrorCode) (r : Half) : KeepsFrame P f s (.done e r) := trivial
@[simp] theorem keepsFrame_raise (e : ErrorCode) (r : Half) : KeepsFrame P f s (.raise e r) := trivial
@[simp] theorem keepsFrame_stop (why : Fault) : KeepsFrame P f s (.stop why) := trivial
@[simp] theorem keepsFrame_ite (c : Prop) [Decidable c] (a b : Act) :
    KeepsFrame P f s (if c then a else b) ↔ (c → KeepsFrame P f s a) ∧ (¬ c → KeepsFrame P f s b) := by
  split <;> simp [*]

end

/-- A condition on frames that speaks of the registers only, and that no line of a procedure of higher rank touches, is kept for
all frames of `pc` by a line that provides it for the innermost one. -/
theorem line_keeps_frames {P : Frame → State → Prop}
    (hregs : ∀ {g s t}, registersOf t = registersOf s → P g s → P g t)
    (hlower : ∀ {g p s} (t : State), g.proc.rank < p.rank → P g s → P g (ownRegisters p t s))
    {s : State} {f : Frame} {fs : List Frame} (hp : s.pc = f :: fs) (hfs : callersOk f.proc fs = true)
    (hP : ∀ g ∈ s.pc, P g s) (hline : KeepsFrame P f s (lineOf f s)) :
    ∀ g ∈ (actEffect (lineOf f s) s).pc, P g (actEffect (lineOf f s) s) := by
  obtain ⟨hf, hcallers⟩ := List.forall_mem_cons.mp (hp ▸ hP)
  rw [line_pc hp]
  cases hact : lineOf f s with
  | micro u d k j =>
    rw [hact] at hline
    have hkept : registersOf (actEffect (.micro u d k j) s) = registersOf s := registersOf_micro u d k j s
    exact List.forall_mem_cons.mpr ⟨hregs hkept hline, fun g hg => hregs hkept (hcallers g hg)⟩
  | assign t k j =>
    rw [hact] at hline
    have hkept : registersOf (actEffect (.assign t k j) s) = registersOf t := rfl
    have hlow : ∀ g ∈ fs, P g t := fun g hg =>
      assign_ownRegisters hact ▸ hlower t (rank_lt_of_callersOk hfs g hg) (hcallers g hg)
    exact List.forall_mem_cons.mpr ⟨hregs hkept hline, fun g hg => hregs hkept (hlow g hg)⟩
  | goto k j =>
    rw [hact] at hline
    have hkept : registersOf (actEffect (.goto k j) s) = registersOf s := rfl
    exact List.forall_mem_cons.mpr ⟨hregs hkept hline, fun g hg => hregs hkept (hcallers g hg)⟩
  | call p k j =>
    rw [hact] at hline
    obtain ⟨hcallee, hcaller⟩ := hline
    have hkept : registersOf (actEffect (.call p k j) s) = registersOf s := rfl
    exact List.forall_mem_cons.mpr ⟨hregs hkept hcallee,
      List.forall_mem_cons.mpr ⟨hregs hkept hcaller, fun g hg => hregs hkept (hcallers g hg)⟩⟩
  | ret =>
    have hkept : registersOf (actEffect .ret s) = registersOf s := rfl
    exact fun g hg => hregs hkept (hcallers g hg)
  | done e r => exact List.forall_mem_nil _
  | raise e r => exact List.forall_mem_nil _
  | stop why => exact List.forall_mem_cons.mpr ⟨hf, hcallers⟩

end Sys2Proof.Machine
end

section
/-! SUPPORT. The sequencer's invariant: a line leads where `Flows` says, so every step keeps it (10_state.md R18, R24;
40_line_and_gate.md R81). -/

namespace Sys2Proof.Machine

/-- A block at `IDLE` with `BUSY` = 0 and no line asserted meets the sequencer's invariant. -/
theorem sequencerInv_of_idle {s : State} (hp : s.pc = []) (hb : s.busy = false) (hl : linesOf s = linesDown) :
    SequencerInv s :=
  (sequencerInv_iff s).mpr (by rw [hp]; exact ⟨rfl, hb, hl⟩)

/-- In a legal run an idle block has `BUSY` = 0 and no line asserted. -/
theorem idle_of_sequencerInv {s : State} (hinv : SequencerInv s) (hp : s.pc = []) :
    s.busy = false ∧ linesOf s = linesDown := by
  obtain ⟨_, hb, hl⟩ := (sequencerInv_iff s).mp hinv
  rw [hp] at hb hl
  exact ⟨hb, hl⟩

/-- What `keep` and the move of `pc` leave: the lines. -/
@[simp] theorem linesOf_afterMicro (d : Dest) (k j : Nat) (s : State) : linesOf (afterMicro d k j s) = linesOf s := by
  simp [linesOf, afterMicro]

/-- The error exit leaves no line asserted where none is. -/
theorem linesOf_raiseError {s : State} (e : ErrorCode) (r : Half) (h : linesOf s = linesDown) :
    linesOf (raiseError e r s) = linesDown := by
  have hrst : s.rst = false := congrArg (·.2.2) h
  simp [linesOf, hrst]

/-- A running block whose innermost frame and lines fit meets the sequencer's invariant. -/
theorem sequencerInv_of_running {s : State} {f : Frame} {fs : List Frame} (hp : s.pc = f :: fs) (hb : s.busy = true)
    (hf : (f.step, f.sub) ∈ f.proc.lines) (hfs : callersOk f.proc fs = true) (hl : linesOf s = linesAt [f]) :
    SequencerInv s :=
  (sequencerInv_iff s).mpr (by rw [hp]; exact ⟨stackOk_cons.mpr ⟨hf, hfs⟩, hb, hl⟩)

/-- In a legal run the frames below the innermost one are its callers. -/
theorem callersOk_of_sequencerInv {s : State} {f : Frame} {fs : List Frame} (hinv : SequencerInv s) (hp : s.pc = f :: fs) :
    callersOk f.proc fs = true := by
  obtain ⟨hstack, _⟩ := hinv
  exact (stackOk_cons.mp (hp ▸ hstack)).2

/-- A line of a running command keeps the sequencer's invariant: it leads where `Flows` says. -/
theorem line_keeps_sequencerInv {s : State} {f : Frame} {fs : List Frame} (hinv : SequencerInv s) (hp : s.pc = f :: fs) :
    SequencerInv (actEffect (lineOf f s) s) := by
  have hflow := lineOf_flows f s
  have ask := lineOf_mayAsk f s
  have hpc := line_pc hp
  have hfs := callersOk_of_sequencerInv hinv hp
  obtain ⟨_, hb, hl⟩ := (sequencerInv_iff s).mp hinv
  rw [hp] at hb hl
  generalize lineOf f s = act at hflow ask hpc
  cases act with
  | micro u d k j =>
    obtain ⟨hk, hlines⟩ := hflow
    refine sequencerInv_of_running hpc ?_ hk hfs ?_
    · simpa [actEffect, afterMicro] using hb
    · rw [actEffect, linesOf_afterMicro, linesOf_microEffect, hl, linesAt_cons, hlines]
  | assign t k j =>
    obtain ⟨hk, hlines⟩ := hflow
    rw [mayAsk_assign] at ask
    rw [ask] at hpc ⊢
    exact sequencerInv_of_running hpc hb hk hfs (hl.trans hlines)
  | goto k j =>
    obtain ⟨hk, hlines⟩ := hflow
    exact sequencerInv_of_running hpc hb hk hfs (hl.trans hlines)
  | call p k j =>
    obtain ⟨hk, hlines⟩ := hflow
    obtain ⟨hline, hdown⟩ := first_line p
    exact sequencerInv_of_running hpc hb hline (callersOk_cons.mpr ⟨hk, hfs⟩) ((hl.trans hlines).trans hdown.symm)
  | ret =>
    obtain ⟨hcmd, hlines⟩ := hflow
    obtain ⟨hstack, hne, hcs, hds, hrst⟩ := callersOk_return f.proc hcmd fs hfs
    have hempty : fs.isEmpty = false := List.isEmpty_eq_false_iff.mpr hne
    have hat : linesAt fs = linesDown := by simp [linesAt, hcs, hds, hrst]
    refine (sequencerInv_iff _).mpr ?_
    rw [hpc]
    exact ⟨hstack, by rw [pcAfter, hempty]; exact hb, (hl.trans hlines).trans hat.symm⟩
  | done e r => exact sequencerInv_of_idle rfl rfl (hl.trans hflow)
  | raise e r => exact sequencerInv_of_idle rfl rfl (linesOf_raiseError e r (hl.trans hflow))
  | stop why => exact hinv

/-- Every step keeps the sequencer's invariant. -/
theorem step_keeps_sequencerInv {s t : State} (hinv : SequencerInv s) (h : step s = .next t) : SequencerInv t := by
  cases stepTo_of_step h with
  | reset => exact sequencerInv_of_idle rfl rfl rfl
  | still => exact hinv
  | illegal l rest hr hp =>
    obtain ⟨_, hl⟩ := idle_of_sequencerInv hinv hp
    exact sequencerInv_of_idle rfl rfl (linesOf_raiseError (s := latch l rest s) _ _ hl)
  | accepted l rest i p hr hp hb hport hd hlaunch hcp =>
    obtain ⟨_, hl⟩ := idle_of_sequencerInv hinv hp
    obtain ⟨hline, hdown⟩ := first_line p
    exact sequencerInv_of_running (f := ⟨p, 1, 0⟩) (fs := []) rfl rfl hline (isCommand_of_commandProc hcp)
      (hl.trans hdown.symm)
  | line f fs hr hp => exact line_keeps_sequencerInv hinv hp

/-- What every step keeps holds in every state of a run. -/
theorem reaches_keeps {P : State → Prop} (hstep : ∀ s t, P s → step s = .next t → P t) {s u : State} (hs : P s)
    (h : Reaches s u) : P u := by
  obtain ⟨k, hk⟩ := h
  induction k generalizing s with
  | zero => cases hk; exact hs
  | succ k ih =>
    rw [run] at hk
    cases ht : step s with
    | next t => exact ih (hstep s t hs ht) (by simpa [ht] using hk)
    | fault r => simp [ht] at hk
    | refused r => simp [ht] at hk

/-- No place of `pc` lies under both select lines (R18). -/
theorem not_csAt_and_dsAt (pc : List Frame) : ¬ (csAt pc = true ∧ dsAt pc = true) := by
  cases pc with
  | nil => simp [csAt]
  | cons f fs => obtain ⟨p, k, j⟩ := f; cases p <;> simp [csAt, dsAt]

end Sys2Proof.Machine
end

section
/-! SUPPORT. The invariant of the wire: the phase of the trace that each line finds and leaves, and the lengths at each frame
(30_encoding.md R62, 41_register_protocol.md R86, 70_reset_and_hazards.md R148 to R150). -/

namespace Sys2Proof.Machine

/-! ## Lengths -/

/-- What the invariant of the wire says of lengths at one frame. -/
def FrameLengths (f : Frame) (s : State) : Prop := LengthsOk { s with pc := [f] }

/-- The lengths are in order where they are so at each frame. -/
theorem lengthsOk_iff (s : State) : LengthsOk s ↔ ∀ f ∈ s.pc, FrameLengths f s := by
  simp only [FrameLengths, LengthsOk, List.forall_mem_singleton]
  exact ⟨fun ⟨hchunk, hstream, hwrchunk⟩ f hf => ⟨hchunk f hf, hstream f hf, hwrchunk f hf⟩,
    fun h => ⟨fun f hf => (h f hf).1, fun f hf => (h f hf).2.1, fun f hf => (h f hf).2.2⟩⟩

@[simp] theorem frameLengths_chunk (g : Source) (n k j : Nat) (s : State) :
    FrameLengths ⟨.chunk g n, k, j⟩ s ↔ n ≤ 32 ∧ (k = 3 → s.n.toNat = n ∧ s.i = 0) := by
  simp [FrameLengths, LengthsOk]

@[simp] theorem frameLengths_stream (g : Source) (len k j : Nat) (s : State) :
    FrameLengths ⟨.stream g len, k, j⟩ s ↔ (k = 4 → s.size ≤ 32) := by
  simp [FrameLengths, LengthsOk]

@[simp] theorem frameLengths_wrchunk (k j : Nat) (s : State) :
    FrameLengths ⟨.wrchunk, k, j⟩ s ↔ (2 ≤ k → (cmdV s).toNat ≤ 32) := by
  simp [FrameLengths, LengthsOk, cmdV]

/-- Of the other procedures it says nothing. -/
theorem frameLengths_of_other {f : Frame} (s : State) (hchunk : ∀ g n, f.proc ≠ .chunk g n)
    (hstream : ∀ g len, f.proc ≠ .stream g len) (hwrchunk : f.proc ≠ .wrchunk) : FrameLengths f s := by
  simp [FrameLengths, LengthsOk, hchunk, hstream, hwrchunk]

/-- The lengths at a frame speak of registers only. -/
theorem frameLengths_registersOf (f : Frame) (s : State) : FrameLengths f s ↔ FrameLengths f (registersOf s) := .rfl

theorem frameLengths_congr {g : Frame} {s t : State} (h : registersOf t = registersOf s) (hg : FrameLengths g s) :
    FrameLengths g t := by
  rw [frameLengths_registersOf, h]
  exact hg

/-- No line of a callee touches what the lengths at a caller speak of. -/
theorem frameLengths_ownRegisters {g : Frame} {p : Proc} {s : State} (t : State) (hlt : g.proc.rank < p.rank)
    (hg : FrameLengths g s) : FrameLengths g (ownRegisters p t s) := by
  obtain ⟨q, k, j⟩ := g
  cases q with
  | chunk | stream | wrchunk =>
    cases p <;> simp_all [Proc.rank, ownRegisters, cmdV]
  | _ => exact frameLengths_of_other _ nofun nofun nofun

/-! ## Phases -/

/-- The phase that the line at a frame finds. -/
def FramePhase (f : Frame) (s : State) : Prop := PhaseAt { s with pc := [f] }

/-- The phase is said by the innermost frame alone. -/
theorem phaseAt_cons {s : State} {f : Frame} {fs : List Frame} (hp : s.pc = f :: fs) : PhaseAt s ↔ FramePhase f s := by
  simp only [PhaseAt, FramePhase, hp]
  rfl

/-- Keeping a value and moving `pc` leave the phase at a frame. -/
theorem framePhase_afterMicro (f : Frame) (d : Dest) (k j : Nat) (s : State) :
    FramePhase f (afterMicro d k j s) ↔ FramePhase f s := by
  cases d <;> rfl

theorem phaseAt_idle {s : State} (hp : s.pc = []) : PhaseAt s ↔ (phaseOf s.trace).isFree = true := by
  simp [PhaseAt, hp]

/-- One more event read. -/
@[simp] theorem phaseOf_append (tr : List Event) (e : Event) : phaseOf (tr ++ [e]) = (phaseOf tr).read e := by
  simp [phaseOf]

@[simp] theorem framePhase_waitReady (k j : Nat) (s : State) : FramePhase ⟨.waitReady, k, j⟩ s ↔
    if k = 3 then phaseOf s.trace = .free s.b else (phaseOf s.trace).isFree = true := .rfl
@[simp] theorem framePhase_sciWrite (a : RegAddr) (v : Half) (k j : Nat) (s : State) :
    FramePhase ⟨.sciWrite a v, k, j⟩ s ↔ phaseSciWrite k (phaseOf s.trace) := .rfl
@[simp] theorem framePhase_sciRead (a : RegAddr) (k j : Nat) (s : State) :
    FramePhase ⟨.sciRead a, k, j⟩ s ↔ phaseSciRead k (phaseOf s.trace) := .rfl
@[simp] theorem framePhase_chunk (g : Source) (n k j : Nat) (s : State) :
    FramePhase ⟨.chunk g n, k, j⟩ s ↔ phaseChunk n k s (phaseOf s.trace) := .rfl
@[simp] theorem framePhase_hardReset (k j : Nat) (s : State) :
    FramePhase ⟨.hardReset, k, j⟩ s ↔ phaseHardReset k (phaseOf s.trace) := .rfl
@[simp] theorem framePhase_softReset (k j : Nat) (s : State) :
    FramePhase ⟨.softReset, k, j⟩ s ↔ phaseSoftReset k j (phaseOf s.trace) := .rfl
@[simp] theorem framePhase_stream (g : Source) (len k j : Nat) (s : State) :
    FramePhase ⟨.stream g len, k, j⟩ s ↔ (phaseOf s.trace).isFree = true := .rfl

/-- A command's own pseudocode stands outside of every frame. -/
theorem framePhase_command {p : Proc} (hp : p.isCommand = true) (k j : Nat) (s : State) :
    FramePhase ⟨p, k, j⟩ s ↔ (phaseOf s.trace).isFree = true := by
  cases p with
  | wrreg | rdreg | wrdata | wrchunk | fill | hreset | sreset | cancel | verq | flowrd | waitrdy => rfl
  | waitReady | sciWrite | sciRead | chunk | stream | hardReset | softReset => cases hp

/-- The phase at a return: a wait returns at a poll that read ready, every other procedure outside of every frame. -/
def returnPhase (p : Proc) (x : Phase) : Prop :=
  match p with
  | .waitReady => x = .free true
  | _ => x.isFree = true

/-- What the request of a line must provide for the phase: the phase at the place it leads to. -/
def KeepsPhase (f : Frame) (s : State) (act : Act) : Prop :=
  match act with
  | .micro u _ k j => FramePhase ⟨f.proc, k, j⟩ (microEffect u s)
  | .assign t k j => FramePhase ⟨f.proc, k, j⟩ t
  | .goto k j => FramePhase ⟨f.proc, k, j⟩ s
  | .call _ _ _ | .done _ _ | .raise _ _ => (phaseOf s.trace).isFree = true
  | .ret => returnPhase f.proc (phaseOf s.trace)
  | .stop _ => True

section
variable (f : Frame) (s : State)

@[simp] theorem keepsPhase_micro (u : Instr) (d : Dest) (k j : Nat) :
    KeepsPhase f s (.micro u d k j) ↔ FramePhase ⟨f.proc, k, j⟩ (microEffect u s) := .rfl
@[simp] theorem keepsPhase_assign (t : State) (k j : Nat) :
    KeepsPhase f s (.assign t k j) ↔ FramePhase ⟨f.proc, k, j⟩ t := .rfl
@[simp] theorem keepsPhase_goto (k j : Nat) : KeepsPhase f s (.goto k j) ↔ FramePhase ⟨f.proc, k, j⟩ s := .rfl
@[simp] theorem keepsPhase_call (p : Proc) (k j : Nat) :
    KeepsPhase f s (.call p k j) ↔ (phaseOf s.trace).isFree = true := .rfl
@[simp] theorem keepsPhase_ret : KeepsPhase f s .ret ↔ returnPhase f.proc (phaseOf s.trace) := .rfl
@[simp] theorem keepsPhase_done (e : ErrorCode) (r : Half) :
    KeepsPhase f s (.done e r) ↔ (phaseOf s.trace).isFree = true := .rfl
@[simp] theorem keepsPhase_raise (e : ErrorCode) (r : Half) :
    KeepsPhase f s (.raise e r) ↔ (phaseOf s.trace).isFree = true := .rfl
@[simp] theorem keepsPhase_stop (why : Fault) : KeepsPhase f s (.stop why) := trivial
@[simp] theorem keepsPhase_ite (c : Prop) [Decidable c] (a b : Act) :
    KeepsPhase f s (if c then a else b) ↔ (c → KeepsPhase f s a) ∧ (¬ c → KeepsPhase f s b) := by
  split <;> simp [*]

end

/-! One event read, phase by phase. -/

@[simp] theorem isFree_free (b : Bool) : (Phase.free b).isFree = true := rfl
@[simp] theorem read_csOn : (Phase.free true).read .csOn = .inCs 0 := rfl
@[simp] theorem read_dsOn : (Phase.free true).read .dsOn = .inDs 0 := rfl
@[simp] theorem read_csOff : (Phase.inCs 4).read .csOff = .free false := rfl
@[simp] theorem read_dsOff (k : Nat) : (Phase.inDs k).read .dsOff = .free false := rfl
@[simp] theorem read_rstOff : Phase.held.read .rstOff = .free false := rfl
@[simp] theorem read_held_csOff : Phase.held.read .csOff = .held := rfl
@[simp] theorem read_held_dsOff : Phase.held.read .dsOff = .held := rfl
@[simp] theorem read_held_delay (t : Duration) : Phase.held.read (.delay t) = .held := rfl
@[simp] theorem read_held_xchg (out inp : Byte) : Phase.held.read (.xchg out inp) = .held := rfl
@[simp] theorem read_inCs_xchg (k : Nat) (out inp : Byte) :
    (Phase.inCs k).read (.xchg out inp) = Phase.readCs k out := rfl
@[simp] theorem read_inDs_xchg (k : Nat) (out inp : Byte) :
    (Phase.inDs k).read (.xchg out inp) = if k < 32 then .inDs (k + 1) else .broken := rfl

/-! Outside of every frame a poll, a delay, the speed change and the assertion of the reset line break no rule. -/

section
variable {x : Phase} (h : x.isFree = true)
include h

theorem read_poll_of_isFree (b : Bool) : x.read (.poll b) = .free b := by
  cases x with
  | free => rfl
  | held | inCs | inDs | broken => cases h
theorem read_delay_of_isFree (t : Duration) : x.read (.delay t) = .free false := by
  cases x with
  | free => rfl
  | held | inCs | inDs | broken => cases h
theorem read_speedUp_of_isFree : x.read .speedUp = .free false := by
  cases x with
  | free => rfl
  | held | inCs | inDs | broken => cases h
theorem read_rstOn_of_isFree : x.read .rstOn = .held := by
  cases x with
  | free => rfl
  | held | inCs | inDs | broken => cases h

end

/-! The four bytes under `CS` (R53, R54, R86). -/

@[simp] theorem readCs_opWrite : Phase.readCs 0 opWrite = .inCs 1 := rfl
@[simp] theorem readCs_opRead : Phase.readCs 0 opRead = .inCs 1 := rfl
@[simp] theorem readCs_addrByte (a : RegAddr) : Phase.readCs 1 (addrByte a) = .inCs 2 := by
  decide +revert
@[simp] theorem readCs_third (out : Byte) : Phase.readCs 2 out = .inCs 3 := rfl
@[simp] theorem readCs_fourth (out : Byte) : Phase.readCs 3 out = .inCs 4 := rfl

/-- Every line of `Chunk` keeps the phase (R88); case `h_k` is line `k`. -/
theorem chunkLine_phase {g : Source} {n k j : Nat} {s : State} (hphase : FramePhase ⟨.chunk g n, k, j⟩ s)
    (hlen : FrameLengths ⟨.chunk g n, k, j⟩ s) : KeepsPhase ⟨.chunk g n, k, j⟩ s (chunkLine g n k j s) := by
  rw [framePhase_chunk] at hphase
  rw [frameLengths_chunk] at hlen
  obtain ⟨hn, hset⟩ := hlen
  unfold chunkLine
  split
  case h_1 =>
    have hmod : n < 64 := by omega
    simpa [phaseChunk, State.trace, hmod] using hphase
  case h_2 =>
    obtain ⟨hfree, _, _⟩ := hphase
    exact hfree
  case h_3 => simp_all [phaseChunk, microEffect, State.trace]
  case h_4 =>
    obtain ⟨hds, hN, hle⟩ := hphase
    simp [phaseChunk, hds, BitVec.lt_def, hN]
    omega
  case h_5 =>
    obtain ⟨hds, hN, hlt⟩ := hphase
    have hroom : s.i.toNat < 32 := by omega
    cases sourceByte g s.i.toNat s with
    | none => trivial
    | some x => simp_all [phaseChunk, microEffect, State.trace]
  case h_6 =>
    obtain ⟨hds, hN, hlt⟩ := hphase
    have hmod : (s.i.toNat + 1) % 64 = s.i.toNat + 1 := by omega
    simp_all [phaseChunk, State.trace]
    omega
  case h_7 => simp_all [phaseChunk, microEffect, State.trace]
  case h_8 => exact hphase
  case h_9 => trivial

/-- Every line of every procedure keeps the phase. `Stream` and the commands stay outside of every frame: each row of theirs is such
a place or no line. -/
theorem lineOf_phase {f : Frame} {s : State} (hphase : FramePhase f s) (hlen : FrameLengths f s) :
    KeepsPhase f s (lineOf f s) := by
  obtain ⟨p, k, j⟩ := f
  cases p with
  | chunk g n => exact chunkLine_phase hphase hlen
  | waitReady =>
    simp only [lineOf, waitReadyLine]
    split <;> simp_all [microEffect, returnPhase, State.trace, read_poll_of_isFree]
  | sciWrite a v =>
    simp only [lineOf, sciWriteLine]
    split <;> simp_all [microEffect, phaseSciWrite, returnPhase, State.trace]
  | sciRead a =>
    simp only [lineOf, sciReadLine]
    split <;> simp_all [microEffect, phaseSciRead, returnPhase, State.trace]
  | hardReset =>
    simp only [lineOf, hardResetLine]
    split <;> simp_all [microEffect, phaseHardReset, returnPhase, State.trace, read_rstOn_of_isFree, read_delay_of_isFree,
      read_speedUp_of_isFree]
  | softReset =>
    simp only [lineOf, softResetLine]
    split <;> simp_all [microEffect, phaseSoftReset, returnPhase, State.trace, read_delay_of_isFree]
  | stream g len =>
    rw [framePhase_stream] at hphase
    simp only [lineOf, streamLine]
    split <;> (try split) <;> first | exact hphase | trivial
  | flowrd =>
    replace hphase := (framePhase_command rfl _ _ _).mp hphase
    simp only [lineOf, flowrdLine]
    split
    · rw [keepsPhase_micro, framePhase_command rfl]
      simp_all [microEffect, State.trace, read_poll_of_isFree]
    · exact hphase
    · trivial
  | _ =>
    replace hphase := (framePhase_command rfl _ _ _).mp hphase
    simp only [lineOf, wrregLine, rdregLine, wrdataLine, wrchunkLine, fillLine, hresetLine, sresetLine, cancelLine, verqLine,
      waitrdyLine]
    split <;> (try split) <;> first | exact hphase | trivial

/-- Every procedure is entered outside of every frame. -/
theorem framePhase_first (p : Proc) {s : State} (h : (phaseOf s.trace).isFree = true) : FramePhase ⟨p, 1, 0⟩ s := by
  cases p <;> exact h

/-- A return is outside of every frame. -/
theorem isFree_of_returnPhase {p : Proc} {x : Phase} (h : returnPhase p x) : x.isFree = true := by
  cases p with
  | waitReady => exact (show x = .free true from h) ▸ isFree_free true
  | _ => exact h

/-- Where a caller goes on, it finds the phase at which its callee returns. -/
theorem framePhase_resume {p q : Proc} {k j : Nat} {s : State} (hx : (k, j) ∈ p.resumesAt q)
    (h : returnPhase p (phaseOf s.trace)) : FramePhase ⟨q, k, j⟩ s := by
  have hfree := isFree_of_returnPhase h
  cases q with
  | sciWrite | sciRead | chunk =>
    cases p <;> simp_all [Proc.resumesAt, afterWaitReady, afterSciWrite, afterSciRead, afterChunk, afterStream, afterHardReset,
      afterSoftReset, returnPhase, phaseSciWrite, phaseSciRead, phaseChunk]
  | hardReset =>
    obtain ⟨_, _, _, hrst⟩ := resumesAt_ok p .hardReset _ hx
    have hout : ¬ (2 ≤ k ∧ k ≤ 4) := by simpa [rstAt] using hrst
    simp [phaseHardReset, hout, hfree]
  | softReset =>
    cases p with
    | waitReady =>
      obtain ⟨rfl, rfl⟩ | ⟨rfl, rfl⟩ : (k = 4 ∧ j = 0) ∨ (k = 7 ∧ j = 0) := by
        simpa [Proc.resumesAt, afterWaitReady] using hx
      · exact hfree
      · exact h
    | sciWrite a v =>
      obtain ⟨rfl, rfl⟩ | ⟨rfl, rfl⟩ : (k = 2 ∧ j = 0) ∨ (k = 5 ∧ j = 0) := by
        simpa [Proc.resumesAt, afterSciWrite] using hx
      · exact hfree
      · exact hfree
    | _ => simp [Proc.resumesAt, afterSciRead, afterChunk, afterStream, afterHardReset, afterSoftReset] at hx
  | waitReady =>
    cases p <;> simp [Proc.resumesAt, afterWaitReady, afterSciWrite, afterSciRead, afterChunk, afterStream, afterHardReset,
      afterSoftReset] at hx
  | _ => exact hfree

/-! ## Lines and lengths -/

/-- Every line of every procedure keeps the lengths in order. -/
theorem lineOf_lengths {f : Frame} {s : State} (hphase : FramePhase f s) (hlen : FrameLengths f s) :
    KeepsFrame FrameLengths f s (lineOf f s) := by
  obtain ⟨p, k, j⟩ := f
  cases p with
  | chunk g n =>
    simp only [lineOf, chunkLine]
    split
    case h_5 => cases sourceByte g s.i.toNat s <;> simp_all
    all_goals simp_all [phaseChunk, frameLengths_of_other]
  | stream g len =>
    simp only [lineOf, streamLine]
    split <;> simp_all [chunkMax]
  | wrchunk =>
    simp only [lineOf, wrchunkLine]
    split <;> simp_all [chunkMax, cmdV]
  | cancel =>
    simp only [lineOf, cancelLine]
    split <;> simp_all [chunkMax, frameLengths_of_other]
  | _ =>
    simp only [lineOf, wrregLine, rdregLine, wrdataLine, fillLine, hresetLine, sresetLine, verqLine,
      flowrdLine, waitrdyLine, waitReadyLine, sciWriteLine, sciReadLine, hardResetLine, softResetLine]
    split <;> simp_all [frameLengths_of_other]

/-- A line leaves the trace where `KeepsPhase` says. -/
theorem line_keeps_phaseAt {s : State} {f : Frame} {fs : List Frame} (hinv : SequencerInv s) (hp : s.pc = f :: fs)
    (hphase : FramePhase f s) (hlen : FrameLengths f s) : PhaseAt (actEffect (lineOf f s) s) := by
  have hkeeps := lineOf_phase hphase hlen
  have hpc := line_pc hp
  cases hact : lineOf f s with
  | micro u d k j =>
    rw [hact] at hkeeps hpc
    exact (phaseAt_cons hpc).mpr ((framePhase_afterMicro _ d k j _).mpr hkeeps)
  | assign t k j =>
    rw [hact] at hkeeps hpc
    exact (phaseAt_cons hpc).mpr hkeeps
  | goto k j =>
    rw [hact] at hkeeps hpc
    exact (phaseAt_cons hpc).mpr hkeeps
  | call p k j =>
    rw [hact] at hkeeps hpc
    exact (phaseAt_cons hpc).mpr (framePhase_first p hkeeps)
  | ret =>
    have hflow := lineOf_flows f s
    rw [hact] at hkeeps hpc hflow
    obtain ⟨hcmd, _⟩ := hflow
    have hfs := callersOk_of_sequencerInv hinv hp
    cases fs with
    | nil => simp [callersOk, hcmd] at hfs
    | cons g gs =>
      obtain ⟨hg, _⟩ := callersOk_cons.mp hfs
      exact (phaseAt_cons hpc).mpr (framePhase_resume hg hkeeps)
  | done e r =>
    rw [hact] at hkeeps
    exact (phaseAt_idle rfl).mpr hkeeps
  | raise e r =>
    rw [hact] at hkeeps
    obtain ⟨hcs, hds⟩ := selectLines_down_at_raise hinv hp hact
    rw [actEffect, raiseError_lines_down e r s hcs hds]
    exact (phaseAt_idle rfl).mpr hkeeps
  | stop why => exact (phaseAt_cons hp).mpr hphase

/-- A line of a running command keeps the invariant of the wire. -/
theorem line_keeps_wireInv {s : State} {f : Frame} {fs : List Frame} (hinv : WireInv s) (hp : s.pc = f :: fs) :
    WireInv (actEffect (lineOf f s) s) := by
  obtain ⟨hseq, hphase, hlen⟩ := hinv
  rw [phaseAt_cons hp] at hphase
  rw [lengthsOk_iff] at hlen
  have hf : FrameLengths f s := hlen f (by simp [hp])
  refine ⟨line_keeps_sequencerInv hseq hp, line_keeps_phaseAt hseq hp hphase hf, (lengthsOk_iff _).mpr ?_⟩
  exact line_keeps_frames (P := FrameLengths) frameLengths_congr frameLengths_ownRegisters hp
    (callersOk_of_sequencerInv hseq hp) hlen (lineOf_lengths hphase hf)

/-- An idle block whose trace has every frame closed meets the invariant of the wire. -/
theorem wireInv_of_idle {s : State} (hseq : SequencerInv s) (hp : s.pc = []) (hfree : (phaseOf s.trace).isFree = true) :
    WireInv s :=
  ⟨hseq, (phaseAt_idle hp).mpr hfree, (lengthsOk_iff s).mpr (by simp [hp])⟩

/-- Every procedure starts with its lengths in order, but for a chunk, whose length its caller knows. -/
theorem frameLengths_command {p : Proc} (hp : p.isCommand = true) (s : State) : FrameLengths ⟨p, 1, 0⟩ s := by
  cases p <;> simp_all [Proc.isCommand, frameLengths_of_other]

/-- Every step keeps the invariant of the wire. -/
theorem step_keeps_wireInv {s t : State} (hinv : WireInv s) (h : step s = .next t) : WireInv t := by
  obtain ⟨hseq₀, hphase, hlen⟩ := hinv
  have hseq := step_keeps_sequencerInv hseq₀ h
  cases stepTo_of_step h with
  | reset => exact wireInv_of_idle hseq rfl rfl
  | still => exact ⟨hseq₀, hphase, hlen⟩
  | illegal l rest hr hp hb hport =>
    refine wireInv_of_idle hseq rfl ?_
    rw [step_idle_trace hseq₀ hr hp h]
    exact (phaseAt_idle hp).mp hphase
  | accepted l rest i p hr hp hb hport hd hlaunch hcp =>
    refine ⟨hseq, (phaseAt_cons rfl).mpr (framePhase_first p ?_), (lengthsOk_iff _).mpr ?_⟩
    · exact (phaseAt_idle hp).mp hphase
    · simpa using frameLengths_command (isCommand_of_commandProc hcp) _
  | line f fs hr hp => exact line_keeps_wireInv ⟨hseq₀, hphase, hlen⟩ hp

end Sys2Proof.Machine
end

section
/-! SUPPORT. The counters and the buffer, frame by frame (10_state.md R25, 20_memory.md R37, 42_streaming_protocol.md R89,
44_playback_cancel.md R113, 70_reset_and_hazards.md R163). -/

namespace Sys2Proof.Machine

/-! ## The counters' invariant at a frame -/

/-- What the counters' invariant says at one frame. -/
def FrameCounters (f : Frame) (s : State) : Prop :=
  ChunkCounters { s with pc := [f] } ∧ StreamCounters { s with pc := [f] } ∧ CancelCounter { s with pc := [f] } ∧
    WaitCounter { s with pc := [f] } ∧ BufferOk { s with pc := [f] }

/-- The buffer's invariant holds where it holds at each frame. -/
theorem bufferOk_iff (s : State) : BufferOk s ↔ ∀ f ∈ s.pc, BufferOk { s with pc := [f] } := by
  simp only [BufferOk, List.forall_mem_singleton, forall₂_and]
  rfl

/-- The counters' invariant: the widths, and the counters and the buffer at each frame. -/
theorem countersOk_and_bufferOk_iff (s : State) : CountersOk s ∧ BufferOk s ↔
    LCfg s ∧ (s.busy = true → OperandsFit s) ∧ ∀ f ∈ s.pc, FrameCounters f s := by
  have hchunk : ChunkCounters s ↔ ∀ f ∈ s.pc, ChunkCounters { s with pc := [f] } := by
    simp only [ChunkCounters, List.forall_mem_singleton]
  have hstream : StreamCounters s ↔ ∀ f ∈ s.pc, StreamCounters { s with pc := [f] } := by
    simp only [StreamCounters, List.forall_mem_singleton]
  have hcancel : CancelCounter s ↔ ∀ f ∈ s.pc, CancelCounter { s with pc := [f] } := by
    simp only [CancelCounter, List.forall_mem_singleton]
  have hwait : WaitCounter s ↔ ∀ f ∈ s.pc, WaitCounter { s with pc := [f] } := by
    simp only [WaitCounter, List.forall_mem_singleton]
  simp only [CountersOk, FrameCounters, forall₂_and, ← hchunk, ← hstream, ← hcancel, ← hwait, ← bufferOk_iff, and_assoc]

/-- The bytes `0` .. `n` - 1 of a byte source are defined, in the buffer `m` from `base` on (R88). -/
def SourceDefined (m : Memory) (base : Nat) (g : Source) (n : Nat) : Prop :=
  match g with
  | .fill => True
  | .buffer off => ∀ q, q < n → (Memory.read m (base + off + q)).isSome = true

/-- What is left of a source, moved on (R89 line 4). -/
theorem sourceDefined_shift {m : Memory} {base : Nat} {g : Source} {len off n : Nat} (h : SourceDefined m base g len)
    (hle : off + n ≤ len) : SourceDefined m base (g.shift off) n := by
  cases g with
  | fill => trivial
  | buffer o =>
    intro q hq
    have := h (off + q) (by omega)
    rwa [← Nat.add_assoc, Nat.add_assoc base] at this

section
variable (k j : Nat) (s : State)

@[simp] theorem frameCounters_chunk (g : Source) (n : Nat) : FrameCounters ⟨.chunk g n, k, j⟩ s ↔
    (2 ≤ k → s.i.toNat ≤ s.n.toNat ∧ s.n.toNat ≤ 32) ∧ SourceDefined s.hostbuf s.base g n := by
  cases g <;> simp [FrameCounters, ChunkCounters, StreamCounters, CancelCounter, WaitCounter, BufferOk, SourceDefined,
    BytesDefined]

@[simp] theorem frameCounters_stream (g : Source) (len : Nat) : FrameCounters ⟨.stream g len, k, j⟩ s ↔
    (len < 2 ^ s.cfg.lenW ∧ (2 ≤ k → s.rem < 2 ^ s.cfg.lenW ∧ s.off < 2 ^ s.cfg.lenW) ∧
      (2 ≤ k → k ≤ 5 → s.off + s.rem = len) ∧ (k = 6 → s.off + s.rem = len + s.size) ∧
      (4 ≤ k → k ≤ 6 → s.size ≤ s.rem ∧ s.size ≤ 32)) ∧ SourceDefined s.hostbuf s.base g len := by
  cases g <;> simp [FrameCounters, ChunkCounters, StreamCounters, CancelCounter, WaitCounter, BufferOk, SourceDefined,
    BytesDefined]

@[simp] theorem frameCounters_cancel : FrameCounters ⟨.cancel, k, j⟩ s ↔
    (6 ≤ k → s.bud.toNat ≤ 2048 ∧ s.bud.toNat % 32 = 0 ∧ (k = 7 ∨ k = 8 → 32 ≤ s.bud.toNat)) := by
  simp [FrameCounters, ChunkCounters, StreamCounters, CancelCounter, WaitCounter, BufferOk]

@[simp] theorem frameCounters_waitReady : FrameCounters ⟨.waitReady, k, j⟩ s ↔
    (2 ≤ k → ∀ m, s.cfg.pollLimit = some m → s.npoll ≤ m ∧ (k ≠ 5 → s.npoll < m)) := by
  simp [FrameCounters, ChunkCounters, StreamCounters, CancelCounter, WaitCounter, BufferOk]

@[simp] theorem frameCounters_wrdata : FrameCounters ⟨.wrdata, k, j⟩ s ↔
    (k ≤ 2 → SourceDefined s.hostbuf s.bufBase (.buffer 0) s.bufLen) ∧ (k = 2 → s.base = s.bufBase) := by
  simp [FrameCounters, ChunkCounters, StreamCounters, CancelCounter, WaitCounter, BufferOk, SourceDefined, BytesDefined]

@[simp] theorem frameCounters_wrchunk : FrameCounters ⟨.wrchunk, k, j⟩ s ↔
    (k ≤ 3 → (cmdV s).toNat ≤ 32 → SourceDefined s.hostbuf s.bufBase (.buffer 0) (cmdV s).toNat) ∧
      (k = 3 → s.base = s.bufBase) := by
  simp [FrameCounters, ChunkCounters, StreamCounters, CancelCounter, WaitCounter, BufferOk, SourceDefined, BytesDefined, cmdV]

end

/-- Of the other procedures it says nothing. -/
theorem frameCounters_of_other {f : Frame} (s : State) (hchunk : ∀ g n, f.proc ≠ .chunk g n)
    (hstream : ∀ g len, f.proc ≠ .stream g len) (hcancel : f.proc ≠ .cancel) (hwait : f.proc ≠ .waitReady)
    (hwrdata : f.proc ≠ .wrdata) (hwrchunk : f.proc ≠ .wrchunk) : FrameCounters f s := by
  simp [FrameCounters, ChunkCounters, StreamCounters, CancelCounter, WaitCounter, BufferOk, hchunk, hstream, hcancel, hwait,
    hwrdata, hwrchunk]

/-- The counters at a frame speak of registers only. -/
theorem frameCounters_registersOf (f : Frame) (s : State) : FrameCounters f s ↔ FrameCounters f (registersOf s) := .rfl

theorem frameCounters_congr {g : Frame} {s t : State} (h : registersOf t = registersOf s) (hg : FrameCounters g s) :
    FrameCounters g t := by
  rw [frameCounters_registersOf, h]
  exact hg

/-- No line of a callee touches what the counters' invariant says at a caller. -/
theorem frameCounters_ownRegisters {g : Frame} {p : Proc} {s : State} (t : State) (hlt : g.proc.rank < p.rank)
    (hg : FrameCounters g s) : FrameCounters g (ownRegisters p t s) := by
  obtain ⟨q, k, j⟩ := g
  revert hlt hg
  cases q with
  | chunk | stream | cancel | waitReady | wrdata | wrchunk =>
    cases p <;> simp [Proc.rank, ownRegisters, cmdV]
  | _ => exact fun _ _ => frameCounters_of_other _ nofun nofun nofun nofun nofun nofun

/-! ## Lines and counters -/

/-- Every line of `Chunk` keeps `N` and `I` in range (R88); case `h_k` is line `k`. -/
theorem chunkLine_counters {g : Source} {n k j : Nat} {s : State} (hphase : FramePhase ⟨.chunk g n, k, j⟩ s)
    (hlen : FrameLengths ⟨.chunk g n, k, j⟩ s) (hcount : FrameCounters ⟨.chunk g n, k, j⟩ s) :
    KeepsFrame FrameCounters ⟨.chunk g n, k, j⟩ s (chunkLine g n k j s) := by
  rw [framePhase_chunk] at hphase
  rw [frameLengths_chunk] at hlen
  rw [frameCounters_chunk] at hcount
  obtain ⟨hn, _⟩ := hlen
  obtain ⟨hrange, hsource⟩ := hcount
  unfold chunkLine
  split
  case h_1 =>
    have hmod : n % 64 ≤ 32 := by omega
    simp [hmod, hsource]
  case h_5 => cases sourceByte g s.i.toNat s <;> simp_all
  case h_6 =>
    obtain ⟨_, hN, hlt⟩ := hphase
    have hmod : (s.i.toNat + 1) % 64 = s.i.toNat + 1 := by omega
    simp [hmod, hN, hsource, hn]
    omega
  all_goals simp_all

/-- Every line of `Stream` keeps `REM` and `OFF` in range, their sum the length at the loop test (R89); case `h_k` is line `k`. -/
theorem streamLine_counters {g : Source} {len k j : Nat} {s : State} (hcount : FrameCounters ⟨.stream g len, k, j⟩ s) :
    KeepsFrame FrameCounters ⟨.stream g len, k, j⟩ s (streamLine g len k j s) := by
  rw [frameCounters_stream] at hcount
  obtain ⟨⟨hlen, hrange, hsum, hsum6, hsize⟩, hsource⟩ := hcount
  unfold streamLine
  split
  case h_1 =>
    have hpos : 0 < 2 ^ s.cfg.lenW := Nat.two_pow_pos _
    simp [Config.fitLen, Nat.mod_eq_of_lt hlen, hlen, hsource, hpos]
  case h_2 => simp_all
  case h_3 => simp_all [chunkMax]
  case h_4 =>
    obtain ⟨hrem, _⟩ := hsize (Nat.le_refl 4) (by omega)
    have hle : s.off + s.size ≤ len := by
      have := hsum (by omega) (by omega)
      omega
    simp_all [sourceDefined_shift hsource hle]
  case h_5 =>
    obtain ⟨hrem, _⟩ := hsize (by omega) (by omega)
    have hoff : s.off + s.size < 2 ^ s.cfg.lenW := by
      have := hsum (by omega) (Nat.le_refl 5)
      omega
    simp_all [Config.fitLen, Nat.mod_eq_of_lt hoff]
    omega
  case h_6 =>
    simp_all
    omega
  case h_7 => trivial
  case h_8 => trivial

/-- The limit is not reached exactly where `NPOLL` is below it (R75). -/
theorem limitReached_eq_false_iff (limit : Option Nat) (npoll : Nat) :
    limitReached limit npoll = false ↔ ∀ m, limit = some m → npoll < m := by
  cases limit <;> simp [limitReached]

/-- Every line of `WaitReady` keeps `NPOLL` in range (R74, R75); case `h_k` is line `k`. -/
theorem waitReadyLine_counters {k j : Nat} {s : State} (hcfg : LCfg s) (hcount : FrameCounters ⟨.waitReady, k, j⟩ s) :
    KeepsFrame FrameCounters ⟨.waitReady, k, j⟩ s (waitReadyLine k j s) := by
  obtain ⟨hlimit, _⟩ := hcfg
  rw [frameCounters_waitReady] at hcount
  unfold waitReadyLine
  split
  case h_1 =>
    have hpos : ∀ m, s.cfg.pollLimit = some m → 0 < m := fun m hm => Nat.pos_of_ne_zero fun h0 => hlimit (h0 ▸ hm)
    simpa using hpos
  case h_5 => simp_all [limitReached_eq_false_iff]
  all_goals simp_all

/-- Every line of CANCEL keeps `BUD` in range, a multiple of 32 (R113): line 3 (`h_4`) calls for the pre-fill, line 5 (`h_6`) sets the
budget, lines 6 to 8 (`h_7` to `h_9`) test it, send a chunk and pay for it. -/
theorem cancelLine_counters {k j : Nat} {s : State} (hwide : 2 ^ 16 ≤ 2 ^ s.cfg.lenW)
    (hcount : FrameCounters ⟨.cancel, k, j⟩ s) :
    KeepsFrame FrameCounters ⟨.cancel, k, j⟩ s (cancelLine k j s) := by
  rw [frameCounters_cancel] at hcount
  unfold cancelLine
  split
  case h_4 =>
    have hfits : cancelPrefill < 2 ^ s.cfg.lenW := Nat.lt_of_lt_of_le (by decide) hwide
    simp [hfits, SourceDefined]
  case h_6 => simp [cancelBudget]
  case h_7 =>
    simp_all [BitVec.lt_def]
    omega
  case h_8 => simp_all [SourceDefined]
  case h_9 =>
    simp_all [chunkMax]
    omega
  all_goals simp_all [frameCounters_of_other]

/-- Every line of every procedure keeps the counters in range and leaves no byte to read that is not defined. -/
theorem lineOf_counters {f : Frame} {s : State} (hcfg : LCfg s) (hfit : OperandsFit s) (hphase : FramePhase f s)
    (hlen : FrameLengths f s) (hcount : FrameCounters f s) : KeepsFrame FrameCounters f s (lineOf f s) := by
  have hwide : 2 ^ 16 ≤ 2 ^ s.cfg.lenW := Nat.pow_le_pow_right (by decide) hcfg.2
  obtain ⟨p, k, j⟩ := f
  cases p with
  | chunk g n => exact chunkLine_counters hphase hlen hcount
  | stream g len => exact streamLine_counters hcount
  | waitReady => exact waitReadyLine_counters hcfg hcount
  | cancel => exact cancelLine_counters hwide hcount
  | wrdata =>
    obtain ⟨_, hbuflen⟩ := hfit
    simp only [lineOf, wrdataLine]
    split <;> simp_all
  | wrchunk =>
    simp only [lineOf, wrchunkLine]
    split <;> simp_all [cmdV]
  | fill =>
    have hfits : (cmdV s).toNat < 2 ^ s.cfg.lenW := (cmdV s).isLt.trans_le hwide
    simp only [lineOf, fillLine]
    split <;> simp_all [frameCounters_of_other, SourceDefined]
  | _ =>
    simp only [lineOf, wrregLine, rdregLine, hresetLine, sresetLine, verqLine, flowrdLine, waitrdyLine, sciWriteLine,
      sciReadLine, hardResetLine, softResetLine]
    split <;> simp_all [frameCounters_of_other]

/-! ## Steps and counters -/

/-- A line of a running command keeps the counters' invariant. -/
theorem line_keeps_safeInv {s : State} {f : Frame} {fs : List Frame} (hinv : SafeInv s) (hp : s.pc = f :: fs) :
    SafeInv (actEffect (lineOf f s) s) := by
  obtain ⟨hwire, hcount⟩ := hinv
  refine ⟨line_keeps_wireInv hwire hp, (countersOk_and_bufferOk_iff _).mpr ?_⟩
  obtain ⟨hseq, hphase, hlen⟩ := hwire
  obtain ⟨hcfg, hfit, hframes⟩ := (countersOk_and_bufferOk_iff s).mp hcount
  have hbusy : s.busy = true := by
    obtain ⟨_, hb, _⟩ := hseq
    rw [hb, hp]; rfl
  have hmem : f ∈ s.pc := by simp [hp]
  have hline := lineOf_counters hcfg (hfit hbusy) ((phaseAt_cons hp).mp hphase) ((lengthsOk_iff s).mp hlen f hmem)
    (hframes f hmem)
  obtain ⟨hcfg', _, _, _, hbase, hbuflen⟩ := line_keeps_host f s
  refine ⟨?_, fun _ => ?_, line_keeps_frames (P := FrameCounters) frameCounters_congr frameCounters_ownRegisters hp
    (callersOk_of_sequencerInv hseq hp) hframes hline⟩
  · rw [LCfg, hcfg']
    exact hcfg
  · rw [OperandsFit, hcfg', hbase, hbuflen]
    exact hfit hbusy

/-- An idle block that meets the invariant of the wire meets the counters' invariant: no counter is in use. -/
theorem safeInv_of_idle {s : State} (hwire : WireInv s) (hcfg : LCfg s) (hp : s.pc = []) (hb : s.busy = false) :
    SafeInv s :=
  ⟨hwire, (countersOk_and_bufferOk_iff s).mpr ⟨hcfg, by simp [hb], by simp [hp]⟩⟩

/-- `L_BUF` says that the bytes from `BUF_BASE` on are defined. -/
theorem sourceDefined_of_lBuf {len : Nat} {s : State} (h : LBuf len s) :
    SourceDefined s.hostbuf s.bufBase (.buffer 0) len := h.2

/-- A command that has been accepted has its bytes defined and no counter in use. -/
theorem frameCounters_accepted {w : CmdWord} {i : Instr} {p : Proc} {s : State} (hd : decode (.command w) = .ok i)
    (hlaunch : Launchable i s) (hcp : commandProc i = some p) : FrameCounters ⟨p, 1, 0⟩ (accept p w s) := by
  obtain rfl := commandWord_of_decode hd
  cases i <;> cases hcp
  case wrdata => simpa using sourceDefined_of_lBuf hlaunch
  case wrchunk n => simpa [cmdV, commandWord] using fun hn => sourceDefined_of_lBuf (hlaunch hn)
  all_goals simp [frameCounters_of_other]

/-- Every step keeps the counters' invariant. -/
theorem step_keeps_safeInv {s t : State} (hinv : SafeInv s) (h : step s = .next t) : SafeInv t := by
  obtain ⟨hwire₀, ⟨hcfg₀, hcounters⟩, hbuffer⟩ := hinv
  have hwire : WireInv t := step_keeps_wireInv hwire₀ h
  have hcfg : LCfg t := by
    obtain ⟨hsame, _⟩ := step_keeps_cfg_hostbuf h
    rw [LCfg, hsame]
    exact hcfg₀
  cases stepTo_of_step h with
  | reset => exact safeInv_of_idle hwire hcfg rfl rfl
  | still => exact ⟨hwire₀, ⟨hcfg₀, hcounters⟩, hbuffer⟩
  | illegal l rest => exact safeInv_of_idle hwire hcfg rfl rfl
  | accepted l rest i p hr hp hb hport hd hlaunch hcp =>
    refine ⟨hwire, (countersOk_and_bufferOk_iff _).mpr ⟨hcfg, fun _ => ?_, ?_⟩⟩
    · exact ⟨Nat.mod_lt _ (Nat.two_pow_pos _), Nat.mod_lt _ (Nat.two_pow_pos _)⟩
    · simpa using frameCounters_accepted hd hlaunch hcp
  | line f fs hr hp => exact line_keeps_safeInv ⟨hwire₀, ⟨hcfg₀, hcounters⟩, hbuffer⟩ hp

end Sys2Proof.Machine
end

section
/-! The obligations of 10_state.md: block reset and acceptance, what every step keeps, what a step writes. -/

namespace Sys2Proof.Machine

/-! ## O47 -/

/-- Settles O47, from what each kind of step leaves of `pc`, `BUSY` and the lines. -/
theorem everyStepKeepsTheSequencerInvariant : Obligations.EveryStepKeepsTheSequencerInvariant :=
  fun _ _ => step_keeps_sequencerInv

/-! ## O49 -/

/-- Settles O49, frame by frame: each line keeps its own procedure's counters, and no other's. -/
theorem everyStepKeepsTheCountersInRange : Obligations.EveryStepKeepsTheCountersInRange :=
  fun _ _ => step_keeps_safeInv

/-! ## O11 -/

/-- What O11 asks of a launch is what the block checks. -/
theorem launchable_of_lBuf {i : Instr} {s : State} (hdata : i = .wrdata → LBuf s.bufLen s)
    (hchunk : ∀ n : BitVec 16, i = .wrchunk n → n.toNat ≤ 32 → LBuf n.toNat s) : Launchable i s := by
  cases i with
  | wrdata => exact hdata rfl
  | wrchunk n => exact hchunk n rfl
  | _ => trivial

/-- A legal word is a host command's. -/
theorem exists_commandProc {w : CmdWord} {i : Instr} (hd : decode (.command w) = .ok i) : ∃ p, commandProc i = some p := by
  rcases decodeCommand_cases w i hd with ⟨_, _, rfl⟩ | ⟨_, rfl⟩ | rfl | ⟨_, rfl⟩ | ⟨_, _, rfl⟩ | rfl | rfl | rfl | rfl | rfl |
    rfl <;> exact ⟨_, rfl⟩

/-- No step of a busy block takes from the port. -/
theorem port_of_busy_step {s t : State} (hr : s.resetIn = false) (hb : s.busy = true) (h : step s = .next t) :
    t.port = s.port := by
  cases stepTo_of_step h with
  | reset hr' => simp [hr] at hr'
  | still => rfl
  | illegal l rest _ _ hb' => simp [hb] at hb'
  | accepted l rest i p _ _ hb' => simp [hb] at hb'
  | line f fs =>
    obtain ⟨_, _, hport, _⟩ := line_keeps_host f s
    exact hport

/-- Settles O11: the idle step is `exec` of the decoded command, which accepts it. -/
theorem acceptanceLatchesTheCommand : Obligations.AcceptanceLatchesTheCommand := by
  refine ⟨fun s l rest i hr hp hb hport hd hdata hchunk => ?_, fun s t => port_of_busy_step⟩
  obtain ⟨p, hcp⟩ := exists_commandProc hd
  have hlaunch : Launchable i (latch l rest s) := launchable_of_lBuf hdata hchunk
  obtain ⟨hstep, _⟩ := stepRunsTheDecodedInstruction
  refine ⟨p, hcp, (hstep s l rest i hr hp hb hport hd).trans ?_⟩
  exact (exec_command_next_iff (s := latch l rest s) hd hb).mpr ⟨hlaunch, p, hcp, rfl⟩

/-! ## O51 -/

/-- Settles O51: the sequencer's invariant along the run, and where it puts the select lines. -/
theorem selectLinesNeverBothAsserted : Obligations.SelectLinesNeverBothAsserted := by
  intro s u hinv h
  obtain ⟨_, _, hcs, hds, _⟩ := reaches_keeps everyStepKeepsTheSequencerInvariant hinv h
  rw [hcs, hds]
  exact ⟨not_csAt_and_dsAt u.pc, fun hp => by simp [hp, csAt, dsAt]⟩

/-! ## O53 -/

/-- Settles O53: the rank of a procedure is at most 4. -/
theorem atMostFiveFrames : Obligations.AtMostFiveFrames := by
  intro s hinv
  obtain ⟨hstack, _⟩ := hinv
  cases hp : s.pc with
  | nil => simp
  | cons f fs =>
    obtain ⟨_, hfs⟩ := stackOk_cons.mp (hp ▸ hstack)
    have hrank : f.proc.rank ≤ 4 := by cases f.proc <;> simp [Proc.rank]
    exact ⟨Nat.succ_le_succ ((length_le_rank_of_callersOk hfs).trans hrank), fun g hg => outermost_isCommand hfs hg⟩

/-! ## O54 -/

/-- Settles O54: of all steps but block reset only a line can change the speed. -/
theorem speedOnlyRisesAtTheEndOfAHardReset : Obligations.SpeedOnlyRisesAtTheEndOfAHardReset := by
  refine ⟨fun s t hr h => ?_, fun s t hr h => ?_⟩
  · cases stepTo_of_step h with
    | reset hr' => simp [hr] at hr'
    | still | illegal | accepted => left; simp
    | line f fs _ hp => exact (line_speed f s).imp_right fun ⟨hs, hf⟩ => ⟨hs, fs, hf ▸ hp⟩
  · cases (step_reset s hr).symm.trans h
    rfl

/-! ## O55 -/

/-- Settles O55: what depends on the configuration and the host buffer stays with them. -/
theorem configurationAndBufferAreConstant : Obligations.ConfigurationAndBufferAreConstant := by
  intro s t h
  obtain ⟨hcfg, hbuf⟩ := step_keeps_cfg_hostbuf h
  exact ⟨hcfg, hbuf, fun a => by rw [hbuf], fun hwf => by rwa [hcfg, hbuf]⟩

/-! ## O60 -/

/-- Settles O60: an idle block's steps leave the working registers, a line writes those of its own procedure. -/
theorem workingRegistersAreWrittenWhereTheTableSays : Obligations.WorkingRegistersAreWrittenWhereTheTableSays := by
  refine ⟨fun s t hr hp h => ?_, fun s t f fs hr hp h => ?_⟩
  · cases stepTo_of_step h with
    | reset hr' => simp [hr] at hr'
    | still | illegal | accepted => simp
    | line f fs _ hp' => simp [hp] at hp'
  · rw [step_line s f fs hr hp] at h
    rw [runLine_effect h]
    exact line_writtenBy f s

/-! ## O7, O8, O9 -/

/-- Settles O7: each value stands in `State.reset`, and an empty trace has no event. -/
theorem resetState : Obligations.ResetState := by
  have hidle : LIdle State.reset := ⟨rfl, rfl, rfl, rfl, rfl, rfl⟩
  have hcfg : LCfg State.reset := ⟨Option.some_ne_none 0 |>.symm, Nat.le_add_left 16 16⟩
  have hreset : ¬ LHresetDone State.reset := fun ⟨_, h⟩ => List.not_mem_nil h
  exact ⟨rfl, rfl, rfl, rfl, rfl, rfl, rfl, rfl, rfl, rfl, hidle, hcfg, rfl, hreset⟩

/-- Settles O8, by what `blockReset` leaves in each field. -/
theorem blockResetStep : Obligations.BlockResetStep := fun s hr =>
  ⟨blockReset s, step_reset s hr, rfl, rfl, rfl, rfl, rfl, rfl, rfl, rfl, rfl, rfl, rfl, rfl, rfl, rfl, fun _ => rfl,
    fun _ => rfl⟩

/-- Settles O9: at `IDLE` with an empty port the only step is standing still. -/
theorem idleBlockDoesNothing : Obligations.IdleBlockDoesNothing := by
  intro s hr hp hport
  rcases step_cases s with ⟨h, _⟩ | ⟨_, _, _, h⟩ | ⟨_, _, _, l, rest, h, _⟩ | ⟨_, f, fs, h, _⟩
  · simp [hr] at h
  · exact h
  · simp [hport] at h
  · simp [hp] at h

/-! ## O14 -/

/-- Settles O14: a busy block stands still or does the line at `pc`. -/
theorem portDoesNotInfluenceARunningCommand : Obligations.PortDoesNotInfluenceARunningCommand := by
  intro s p hr hb
  change step (withPort p s) = andThen (step s) (withPort p)
  cases hp : s.pc with
  | nil =>
    have hstill (q : State) (hr : q.resetIn = false) (hb : q.busy = true) (hp : q.pc = []) : step q = .next q := by
      simp [step, sequence, hr, hb, hp]
    rw [hstill s hr hb hp, hstill (withPort p s) hr hb hp, andThen]
  | cons f fs => rw [step_line s f fs hr hp, step_line (withPort p s) f fs hr hp, runLine_withPort]

/-! ## O46 -/

/-- Settles O46: at reset the block is idle, the trace is empty, no procedure is on `pc`. -/
theorem resetMeetsTheInvariants : Obligations.ResetMeetsTheInvariants := by
  have hseq : SequencerInv State.reset := sequencerInv_of_idle rfl rfl rfl
  have hwire : WireInv State.reset := wireInv_of_idle hseq rfl rfl
  obtain ⟨_, _, _, _, _, _, _, _, _, _, _, hcfg, _⟩ := resetState
  exact ⟨hseq, hwire, safeInv_of_idle hwire hcfg rfl rfl⟩

end Sys2Proof.Machine
end

section
/-! SUPPORT. What the wire frames, the gate and a launch do, said once: counted runs of micro-operation lines, the loop of `Chunk`
with its number of steps, a refused launch, and how a command's run ends (20_memory.md R37, R45, R51; 42_streaming_protocol.md R88;
70_reset_and_hazards.md R161, R163). -/

namespace Sys2Proof.Machine

/-! ## Values and bytes -/

/-- The number that two bytes stand for (R57). -/
theorem joinBytes_toNat (hi lo : Byte) : (joinBytes hi lo).toNat = hi.toNat * 256 + lo.toNat := by
  rw [joinBytes, BitVec.toNat_append, ← Nat.shiftLeft_add_eq_or_of_lt lo.isLt, Nat.shiftLeft_eq]

/-- The bytes of an assembled value (R57). -/
theorem bytes_of_value (hi lo : Byte) : hiByte (joinBytes hi lo) = hi ∧ loByte (joinBytes hi lo) = lo := by
  have hhi := hi.isLt
  have hlo := lo.isLt
  constructor <;> apply BitVec.eq_of_toNat_eq
  · rw [hiByte, BitVec.extractLsb'_toNat, joinBytes_toNat, Nat.shiftRight_eq_div_pow]
    omega
  · rw [loByte, BitVec.extractLsb'_toNat, joinBytes_toNat, Nat.shiftRight_zero]
    omega

/-- The version nibble as a number (R120). -/
theorem versionNibble_toNat (c : Config) (v : Half) : (versionNibble c v).toNat = v.toNat / 2 ^ c.verLsb.val % 16 := by
  rw [versionNibble, BitVec.extractLsb'_toNat, Nat.shiftRight_eq_div_pow]

/-! ## A refused launch -/

/-- The address space comes first (R37). -/
theorem launchRefusal_wraps {len : Nat} {s : State} (h : 2 ^ s.cfg.hostAddrW < s.bufBase + len) :
    launchRefusal len s = some .bufferWraps := by
  simp [launchRefusal, h]

/-- Inside the address space an undefined byte is left as the reason (R163). -/
theorem launchRefusal_undefined {len : Nat} {s : State} (hfit : s.bufBase + len ≤ 2 ^ s.cfg.hostAddrW)
    (hbyte : ∃ j, j < len ∧ Memory.read s.hostbuf (s.bufBase + j) = none) :
    launchRefusal len s = some .bufferUndefined := by
  obtain ⟨j, hj, hnone⟩ := hbyte
  have hdef : ¬ Memory.definedAt s.hostbuf s.bufBase len = true := fun h => by
    simpa [hnone] using (Memory.definedAt_iff _ _ _).mp h j hj
  simp [launchRefusal, Nat.not_lt_of_le hfit, hdef]

/-- An idle block refuses a transfer for the reason that its launch premise gives. -/
theorem startTransfer_refused {p : Proc} {i : Instr} {len : Nat} {s : State} {why : Refusal} (hb : s.busy = false)
    (h : launchRefusal len s = some why) : startTransfer p i len s = .refused why := by
  simp [startTransfer, hb, h]

/-- WRCHUNK of at most 32 bytes is a transfer out of the host buffer (R90). -/
theorem exec_wrchunk_of_le {n : BitVec 16} (h : n.toNat ≤ 32) (s : State) :
    exec (.wrchunk n) s = startTransfer .wrchunk (.wrchunk n) n.toNat s :=
  if_neg (Nat.not_lt_of_le h)

/-! ## Counted runs, line by line -/

/-- `s` with `pc` at the frame `f`, whose callers are `fs` (R24). -/
def atFrame (f : Frame) (fs : List Frame) (s : State) : State := { s with pc := f :: fs }

/-- A state stands where its `pc` says. -/
theorem atFrame_self {s : State} {f : Frame} {fs : List Frame} (hp : s.pc = f :: fs) : atFrame f fs s = s := by
  rw [atFrame, ← hp]

/-- A micro-operation does not look at `pc`. -/
theorem microEffect_atFrame (u : Instr) (f : Frame) (fs : List Frame) (s : State) :
    microEffect u (atFrame f fs s) = atFrame f fs (microEffect u s) := by
  cases u <;> rfl

@[simp] theorem assertCs_atFrame (f : Frame) (fs : List Frame) (s : State) :
    assertCs (atFrame f fs s) = atFrame f fs (assertCs s) := rfl
@[simp] theorem deassertCs_atFrame (f : Frame) (fs : List Frame) (s : State) :
    deassertCs (atFrame f fs s) = atFrame f fs (deassertCs s) := rfl
@[simp] theorem assertDs_atFrame (f : Frame) (fs : List Frame) (s : State) :
    assertDs (atFrame f fs s) = atFrame f fs (assertDs s) := rfl
@[simp] theorem deassertDs_atFrame (f : Frame) (fs : List Frame) (s : State) :
    deassertDs (atFrame f fs s) = atFrame f fs (deassertDs s) := rfl
@[simp] theorem exchange_atFrame (out : Byte) (f : Frame) (fs : List Frame) (s : State) :
    exchange out (atFrame f fs s) = atFrame f fs (exchange out s) := rfl
@[simp] theorem keep_atFrame (d : Dest) (f : Frame) (fs : List Frame) (s : State) :
    keep d (atFrame f fs s) = atFrame f fs (keep d s) := by cases d <;> rfl
@[simp] theorem exchangeAll_atFrame (xs : List Byte) (f : Frame) (fs : List Frame) (s : State) :
    exchangeAll xs (atFrame f fs s) = atFrame f fs (exchangeAll xs s) := by
  induction xs generalizing s with
  | nil => rfl
  | cons x xs ih => exact ih (exchange x s)

section
variable (s : State) {f : Frame} {fs : List Frame} {k j n : Nat} (hr : s.resetIn = false)
include hr

/-- A run that starts with the line at `f`. -/
theorem run_line {t : State} (hl : runLine f (atFrame f fs s) = .next t) : run (n + 1) (atFrame f fs s) = run n t := by
  simp only [run, (step_line (atFrame f fs s) f fs hr rfl).trans hl]

/-- A run that starts with a micro-operation's line. -/
theorem run_micro (u : Instr) (d : Dest) (hl : lineOf f (atFrame f fs s) = .micro u d k j) (hu : isMicroOp u = true) :
    run (n + 1) (atFrame f fs s) = run n (atFrame ⟨f.proc, k, j⟩ fs (keep d (microEffect u s))) := by
  refine run_line s hr ?_
  rw [runLine, hl, runAct, exec_microEffect hu, microEffect_atFrame]
  cases d <;> rfl

/-- A run that starts with an assignment's line. -/
theorem run_assign {t : State} (hl : lineOf f (atFrame f fs s) = .assign (atFrame f fs t) k j) :
    run (n + 1) (atFrame f fs s) = run n (atFrame ⟨f.proc, k, j⟩ fs t) :=
  run_line s hr (by rw [runLine, hl]; rfl)

/-- A run that starts with a test's line. -/
theorem run_goto (hl : lineOf f (atFrame f fs s) = .goto k j) :
    run (n + 1) (atFrame f fs s) = run n (atFrame ⟨f.proc, k, j⟩ fs s) :=
  run_line s hr (by rw [runLine, hl]; rfl)

end

/-! ## The loop of `Chunk`, counted -/

/-- `s` with `I` at the number `k` (R88). -/
def atByte (k : BitVec 6) (s : State) : State := { s with i := k }

@[simp] theorem exchangeAll_atByte (xs : List Byte) (k : BitVec 6) (s : State) :
    exchangeAll xs (atByte k s) = atByte k (exchangeAll xs s) := by
  induction xs generalizing s with
  | nil => rfl
  | cons x xs ih => exact ih (exchange x s)

@[simp] theorem assertDs_atByte (k : BitVec 6) (s : State) : assertDs (atByte k s) = atByte k (assertDs s) := rfl
@[simp] theorem deassertDs_atByte (k : BitVec 6) (s : State) : deassertDs (atByte k s) = atByte k (deassertDs s) := rfl

/-- One round of the loop of `Chunk` (R88 lines 4 to 6) sends byte `I`. -/
theorem chunk_round (g : Source) (n : Nat) (fs : List Frame) {x : Byte} {s : State} (k : Nat) (hr : s.resetIn = false)
    (hlt : s.i < s.n) (hx : sourceByte g s.i.toNat s = some x) :
    run (k + 3) (atFrame ⟨.chunk g n, 4, 0⟩ fs s) =
      run k (atFrame ⟨.chunk g n, 4, 0⟩ fs (atByte (s.i + 1) (exchange x s))) := by
  have hxchg : lineOf ⟨.chunk g n, 5, 0⟩ (atFrame ⟨.chunk g n, 5, 0⟩ fs s) = .micro (.xchg x) .discard 6 0 := by
    rw [← sourceByte_pc g s.i.toNat s (⟨.chunk g n, 5, 0⟩ :: fs)] at hx
    simp only [lineOf, chunkLine, atFrame, hx]
  calc run (k + 3) (atFrame ⟨.chunk g n, 4, 0⟩ fs s)
      = run (k + 2) (atFrame ⟨.chunk g n, 5, 0⟩ fs s) := run_goto s hr (if_pos hlt)
    _ = run (k + 1) (atFrame ⟨.chunk g n, 6, 0⟩ fs (exchange x s)) := run_micro s hr (.xchg x) .discard hxchg rfl
    _ = run k (atFrame ⟨.chunk g n, 4, 0⟩ fs (atByte (s.i + 1) (exchange x s))) := run_assign (exchange x s) hr rfl

/-- The loop of `Chunk` (R88 lines 4 to 6) sends the bytes from `I` to `N` in three steps each. -/
theorem chunk_loop_run (g : Source) (n : Nat) (fs : List Frame) (k : Nat) (xs : List Byte) {s : State}
    (hr : s.resetIn = false) (hn : s.i.toNat + xs.length = s.n.toNat) (hb : Bytes g s.i.toNat xs s) :
    run (k + (3 * xs.length + 1)) (atFrame ⟨.chunk g n, 4, 0⟩ fs s) =
      run k (atFrame ⟨.chunk g n, 7, 0⟩ fs (atByte s.n (exchangeAll xs s))) := by
  induction xs generalizing s with
  | nil =>
    have hi : s.i = s.n := BitVec.eq_of_toNat_eq hn
    have hend : ¬ s.i < s.n := by simp [hi]
    rw [exchangeAll, ← hi]
    exact run_goto s hr (if_neg hend)
  | cons x xs ih =>
    rw [List.length_cons] at hn ⊢
    have hlt : s.i < s.n := by rw [BitVec.lt_def]; omega
    have hnext : (s.i + 1).toNat = s.i.toNat + 1 := by bv_omega
    have hrest : Bytes g (s.i + 1).toNat xs (atByte (s.i + 1) (exchange x s)) := by
      intro m hm
      refine (sourceByte_congr g _ s _ rfl rfl rfl).trans ?_
      rw [hnext, Nat.add_assoc, Nat.add_comm 1]
      exact hb (m + 1) (Nat.succ_lt_succ hm)
    have hloop := ih (s := atByte (s.i + 1) (exchange x s)) hr (by simp only [atByte, exchange_n, hnext]; omega) hrest
    rw [exchangeAll_atByte] at hloop
    rw [show k + (3 * (xs.length + 1) + 1) = k + (3 * xs.length + 1) + 3 by omega]
    exact (chunk_round g n fs _ hr hlt (hb 0 (Nat.succ_pos _))).trans hloop

/-! ## The trace and the replies of the register frames -/

@[simp] theorem exchange_trace (out : Byte) (s : State) :
    (exchange out s).trace = s.trace ++ [.xchg out (s.replyAt 0)] := by simp [State.trace]
@[simp] theorem assertCs_trace (s : State) : (assertCs s).trace = s.trace ++ [.csOn] := by simp [State.trace]
@[simp] theorem deassertCs_trace (s : State) : (deassertCs s).trace = s.trace ++ [.csOff] := by simp [State.trace]
@[simp] theorem keep_trace (d : Dest) (s : State) : (keep d s).trace = s.trace := by simp [State.trace]
@[simp] theorem assertCs_replyAt (s : State) (k : Nat) : (assertCs s).replyAt k = s.replyAt k := rfl
@[simp] theorem deassertCs_replyAt (s : State) (k : Nat) : (deassertCs s).replyAt k = s.replyAt k := rfl
@[simp] theorem keep_replyAt (d : Dest) (s : State) (k : Nat) : (keep d s).replyAt k = s.replyAt k := by cases d <;> rfl

/-- `DATA` assembled from the two captured bytes (R83 line 8). -/
def storeValue (s : State) : State := { s with data := joinBytes s.hi s.lo }

@[simp] theorem storeValue_trace (s : State) : (storeValue s).trace = s.trace := rfl
@[simp] theorem storeValue_replyAt (s : State) (k : Nat) : (storeValue s).replyAt k = s.replyAt k := rfl
@[simp] theorem storeValue_data (s : State) : (storeValue s).data = joinBytes s.hi s.lo := rfl
@[simp] theorem storeValue_atFrame (f : Frame) (fs : List Frame) (s : State) :
    storeValue (atFrame f fs s) = atFrame f fs (storeValue s) := rfl

/-- The register read frame in its nine operations (R54, R83 lines 3 to 9). -/
theorem exec_sciReadFrame (a : RegAddr) (d1 d2 : Byte) (s : State) :
    exec (.sciReadFrame a d1 d2) s = .next (deassertCs (storeValue (keep .lo (exchange d2 (keep .hi (exchange d1
      (exchange (addrByte a) (exchange opRead (assertCs s))))))))) := rfl

/-- The events of a register write frame with the replies `inp` (R53). -/
def writeEvents (a : RegAddr) (v : Half) (inp : Nat → Byte) : List Event :=
  [.csOn, .xchg 0x02 (inp 0), .xchg (0#4 ++ a) (inp 1), .xchg (v.extractLsb' 8 8) (inp 2), .xchg (v.extractLsb' 0 8) (inp 3),
    .csOff]

/-- The events of a register read frame with the replies `inp` (R54). -/
def readEvents (a : RegAddr) (d1 d2 : Byte) (inp : Nat → Byte) : List Event :=
  [.csOn, .xchg 0x03 (inp 0), .xchg (0#4 ++ a) (inp 1), .xchg d1 (inp 2), .xchg d2 (inp 3), .csOff]

/-- What the register write frame puts on the trace (R53). -/
theorem sciWriteFrame_trace {a : RegAddr} {v : Half} {s t : State} (h : exec (.sciWriteFrame a v) s = .next t) :
    t.trace = s.trace ++ writeEvents a v s.replyAt := by
  cases h
  simp [writeEvents, opWrite, addrByte, addressByte, hiByte, loByte]

/-- What the register read frame does (R54): its events, the value from its third and fourth reply, four draws. -/
theorem sciReadFrame_effect {a : RegAddr} {d1 d2 : Byte} {s t : State} (h : exec (.sciReadFrame a d1 d2) s = .next t) :
    t.trace = s.trace ++ readEvents a d1 d2 s.replyAt ∧ t.data = s.replyAt 2 ++ s.replyAt 3 ∧
      ∀ k, t.replyAt k = s.replyAt (k + 4) := by
  rw [exec_sciReadFrame] at h
  cases h
  simp [readEvents, opRead, addrByte, addressByte, joinBytes]

/-- A trace that ends with a write and a read of one register, where every read returns the value last written (R51): the value
read is the value written. -/
theorem value_read_of_roundtrip {pre : List Event} {a : RegAddr} {v : Half} {d1 d2 : Byte} {i j : Nat → Byte}
    (h : readsReturnWrites (fun _ => none) (linkFrames false none (pre ++ writeEvents a v i ++ readEvents a d1 d2 j)) = true) :
    j 2 ++ j 3 = v := by
  rw [List.append_assoc] at h
  obtain ⟨before, gate, hframes⟩ := linkFrames_append_csOn pre ((writeEvents a v i).tail ++ readEvents a d1 d2 j) false none
  have hwrite : linkFrames false (some ⟨true, gate, []⟩) ((writeEvents a v i).tail ++ readEvents a d1 d2 j) =
      [⟨true, gate, [(0x02, i 0), (0#4 ++ a, i 1), (v.extractLsb' 8 8, i 2), (v.extractLsb' 0 8, i 3)]⟩,
        ⟨true, false, [(0x03, j 0), (0#4 ++ a, j 1), (d1, j 2), (d2, j 3)]⟩] := rfl
  obtain ⟨held, hlast⟩ := readsReturnWrites_append before _ _ (hwrite ▸ hframes ▸ h)
  simp only [readsReturnWrites, access_write, access_read] at hlast
  exact (by simpa using hlast : v = j 2 ++ j 3).symm

/-! ## How a command's run ends -/

section
variable {i : Instr} {p : Proc} {s u : State} {sent : List Event} (hidle : LIdle s) (hcp : commandProc i = some p)
  (hx : exec i s = .next (acceptedAs i p s)) (hu : Reaches (acceptedAs i p s) u)
include hidle hcp hx hu

/-- A command whose procedures have run to their end and whose next line is its `done` completes (R23, R161). -/
theorem completes_of_done {f : Frame} {e : ErrorCode} {r : Half} {polls xchgs : Nat} (hpc : u.pc = [f])
    (hl : lineOf f u = .done e r) (hsent : Sent (acceptedAs i p s) u sent polls xchgs) (hkept : KeptBy p s u) :
    Completes i p s e.code r sent s.speed := by
  obtain ⟨_, _, hcs, hds, hrst, hr⟩ := hidle
  obtain ⟨htrace, _, _, ⟨hcs', hds', hrst', hspeed⟩, ⟨hcmd, hbase, hlen⟩, ⟨_, _, _, hresp⟩, ⟨hport, hbuf, hr', hcfg⟩, _⟩ :=
    hsent
  have hstep : step u = .next (finish e r u) := by
    rw [step_line u f [] (hr'.trans hr) hpc, runLine, hl]
    rfl
  refine ⟨hcp, hx, finish e r u, hu.trans (.one hstep), ⟨rfl, rfl, hcs'.trans hcs, hds'.trans hds, hrst'.trans hrst,
    hr'.trans hr, rfl, rfl, ?_, htrace, hbuf, hport, hcfg⟩, hspeed, hcmd, hbase, hlen, ?_⟩
  · simp [State.responsesInOrder, hresp, acceptedAs]
  · cases p <;> exact hkept

/-- A command that a failing wait has ended completes with `(NOT_RESPONDING, 0)` (R130, R161). -/
theorem completes_of_halted (hhalted : Halted (acceptedAs i p s) u sent) (hkept : KeptBy p s u) :
    Completes i p s 2 0 sent s.speed := by
  obtain ⟨_, _, hcs, hds, hrst, hr⟩ := hidle
  obtain ⟨htrace, ⟨hpc, hbusy⟩, ⟨herr, hresult, hresp⟩, ⟨hcs', hds', hrst', hspeed⟩, ⟨hcmd, hbase, hlen⟩,
    ⟨hport, hbuf, hr', hcfg⟩, _⟩ := hhalted
  refine ⟨hcp, hx, u, hu, ⟨hpc, hbusy, hcs'.trans hcs, hds'.trans hds, hrst'.trans hrst, hr'.trans hr, herr, hresult, ?_,
    htrace, hbuf, hport, hcfg⟩, hspeed, hcmd, hbase, hlen, hkept⟩
  simp [State.responsesInOrder, hresp, acceptedAs]

end

end Sys2Proof.Machine
end

section
/-! The obligations of 20_memory.md. -/

namespace Sys2Proof.Machine

/-! ## O48 -/

/-- Settles O48, from what each kind of step leaves of `pc`, the trace and the lengths. -/
theorem everyStepKeepsTheShapeOfTheTrace : Obligations.EveryStepKeepsTheShapeOfTheTrace :=
  fun _ _ => step_keeps_wireInv

/-! ## O21 -/

/-- Settles O21: the frame's effect, and the last two frames of the trace under `ENV_ROUNDTRIP`. -/
theorem registerReadFrame : Obligations.RegisterReadFrame := by
  refine ⟨rfl, fun a d1 d2 s => ?_, fun a v d1 d2 s t u hwrite hread henv => ?_⟩
  · obtain ⟨htrace, hdata, hreply⟩ := sciReadFrame_effect (exec_sciReadFrame a d1 d2 s)
    exact ⟨_, exec_sciReadFrame a d1 d2 s, htrace, hdata, hreply, rfl⟩
  · obtain ⟨htrace, hdata, _⟩ := sciReadFrame_effect hread
    rw [EnvRoundtrip, State.linkFrames, htrace, sciWriteFrame_trace hwrite] at henv
    exact hdata.trans (value_read_of_roundtrip henv)

/-! ## O23 -/

/-- Lines 3 to 8 of `SciWrite` (R82) are the write frame (R53). -/
theorem sciWrite_lines_run (a : RegAddr) (v : Half) (fs : List Frame) (s : State) (hr : s.resetIn = false) (ha : s.addr = a)
    (hv : s.data = v) :
    run 6 (atFrame ⟨.sciWrite a v, 3, 0⟩ fs s) = exec (.sciWriteFrame a v) (atFrame ⟨.sciWrite a v, 9, 0⟩ fs s) := by
  let s1 := assertCs s
  let s2 := exchange opWrite s1
  let s3 := exchange (addrByte s.addr) s2
  let s4 := exchange (hiByte s.data) s3
  let s5 := exchange (loByte s.data) s4
  calc run 6 (atFrame ⟨.sciWrite a v, 3, 0⟩ fs s)
      = run 5 (atFrame ⟨.sciWrite a v, 4, 0⟩ fs s1) := run_micro s hr .csa .discard rfl rfl
    _ = run 4 (atFrame ⟨.sciWrite a v, 5, 0⟩ fs s2) := run_micro s1 hr (.xchg opWrite) .discard rfl rfl
    _ = run 3 (atFrame ⟨.sciWrite a v, 6, 0⟩ fs s3) := run_micro s2 hr (.xchg (addrByte s.addr)) .discard rfl rfl
    _ = run 2 (atFrame ⟨.sciWrite a v, 7, 0⟩ fs s4) := run_micro s3 hr (.xchg (hiByte s.data)) .discard rfl rfl
    _ = run 1 (atFrame ⟨.sciWrite a v, 8, 0⟩ fs s5) := run_micro s4 hr (.xchg (loByte s.data)) .discard rfl rfl
    _ = run 0 (atFrame ⟨.sciWrite a v, 9, 0⟩ fs (deassertCs s5)) := run_micro s5 hr .csd .discard rfl rfl
    _ = exec (.sciWriteFrame a v) (atFrame ⟨.sciWrite a v, 9, 0⟩ fs s) := by
      simp [exec, execSciWriteFrame, run, s5, s4, s3, s2, s1, ha, hv]

/-- Lines 3 to 9 of `SciRead` (R83) are the read frame (R54) with the dummy byte twice. -/
theorem sciRead_lines_run (a : RegAddr) (fs : List Frame) (s : State) (hr : s.resetIn = false) (ha : s.addr = a) :
    run 7 (atFrame ⟨.sciRead a, 3, 0⟩ fs s) =
      exec (.sciReadFrame a s.cfg.dummyByte s.cfg.dummyByte) (atFrame ⟨.sciRead a, 10, 0⟩ fs s) := by
  let s1 := assertCs s
  let s2 := exchange opRead s1
  let s3 := exchange (addrByte s.addr) s2
  let s4 := keep .hi (exchange s.cfg.dummyByte s3)
  let s5 := keep .lo (exchange s.cfg.dummyByte s4)
  calc run 7 (atFrame ⟨.sciRead a, 3, 0⟩ fs s)
      = run 6 (atFrame ⟨.sciRead a, 4, 0⟩ fs s1) := run_micro s hr .csa .discard rfl rfl
    _ = run 5 (atFrame ⟨.sciRead a, 5, 0⟩ fs s2) := run_micro s1 hr (.xchg opRead) .discard rfl rfl
    _ = run 4 (atFrame ⟨.sciRead a, 6, 0⟩ fs s3) := run_micro s2 hr (.xchg (addrByte s.addr)) .discard rfl rfl
    _ = run 3 (atFrame ⟨.sciRead a, 7, 0⟩ fs s4) := run_micro s3 hr (.xchg s.cfg.dummyByte) .hi rfl rfl
    _ = run 2 (atFrame ⟨.sciRead a, 8, 0⟩ fs s5) := run_micro s4 hr (.xchg s.cfg.dummyByte) .lo rfl rfl
    _ = run 1 (atFrame ⟨.sciRead a, 9, 0⟩ fs (storeValue s5)) := run_assign s5 hr rfl
    _ = run 0 (atFrame ⟨.sciRead a, 10, 0⟩ fs (deassertCs (storeValue s5))) :=
      run_micro (storeValue s5) hr .csd .discard rfl rfl
    _ = exec (.sciReadFrame a s.cfg.dummyByte s.cfg.dummyByte) (atFrame ⟨.sciRead a, 10, 0⟩ fs s) := by
      simp [exec_sciReadFrame, run, s5, s4, s3, s2, s1, ha]

/-- Lines 3 to 7 of `Chunk` (R88) are the data frame (R55). -/
theorem chunk_lines_run (g : Source) (xs : List Byte) (fs : List Frame) (s : State) (hr : s.resetIn = false)
    (hn : s.n.toNat = xs.length) (hi : s.i = 0) (hlen : xs.length ≤ 32) (hb : Bytes g 0 xs s) :
    run (3 * xs.length + 3) (atFrame ⟨.chunk g xs.length, 3, 0⟩ fs s) =
      exec (.sdiChunkFrame xs) (atFrame ⟨.chunk g xs.length, 8, 0⟩ fs (atByte (BitVec.ofNat 6 xs.length) s)) := by
  have hcount : BitVec.ofNat 6 xs.length = s.n := by simp [← hn]
  let s1 := assertDs s
  let s2 := atByte s.n (exchangeAll xs s1)
  have hr2 : s2.resetIn = false := by
    obtain ⟨_, _, _, _, hkept⟩ := exchangeAll_keeps xs s1
    rw [show s2 = atByte s.n (exchangeAll xs s1) from rfl, hkept]
    exact hr
  have hb1 : Bytes g s1.i.toNat xs s1 := fun m hm => by
    rw [show s1.i = 0 from hi, sourceByte_congr g _ s s1 rfl rfl rfl]
    exact hb m hm
  calc run (3 * xs.length + 3) (atFrame ⟨.chunk g xs.length, 3, 0⟩ fs s)
      = run (1 + (3 * xs.length + 1)) (atFrame ⟨.chunk g xs.length, 4, 0⟩ fs s1) := by
        rw [Nat.add_comm 1]
        exact run_micro s hr .dsa .discard rfl rfl
    _ = run 1 (atFrame ⟨.chunk g xs.length, 7, 0⟩ fs s2) :=
        chunk_loop_run g xs.length fs 1 xs (s := s1) hr (by simp [s1, hi, hn]) hb1
    _ = run 0 (atFrame ⟨.chunk g xs.length, 8, 0⟩ fs (deassertDs s2)) := run_micro s2 hr2 .dsd .discard rfl rfl
    _ = exec (.sdiChunkFrame xs) (atFrame ⟨.chunk g xs.length, 8, 0⟩ fs (atByte (BitVec.ofNat 6 xs.length) s)) := by
        simp [exec, execSdiChunkFrame, chunkMax, hlen, run, hcount, s2, s1]

/-- Settles O23: each procedure's lines, run one by one, are its frame. -/
theorem steppedFramesAreTheWireFrames : Obligations.SteppedFramesAreTheWireFrames := by
  refine ⟨fun a v s fs hr hp ha hv => ?_, fun a s fs hr hp ha => ?_, fun g xs s fs hr hp hn hi hlen hb => ?_⟩
  · exact (congrArg (run 6) (atFrame_self hp).symm).trans (sciWrite_lines_run a v fs s hr ha hv)
  · exact (congrArg (run 7) (atFrame_self hp).symm).trans (sciRead_lines_run a fs s hr ha)
  · refine (congrArg (run _) (atFrame_self hp).symm).trans (chunk_lines_run g xs fs s hr hn hi hlen fun m hm => ?_)
    rw [Nat.zero_add]
    exact hb m hm

/-! ## O27 -/

/-- WAITRDY accepted, its wait called (R80 line 1). -/
theorem waitrdy_called (s : State) (hr : s.resetIn = false) :
    Reaches (acceptedAs .waitrdy .waitrdy s)
      (atFrame ⟨.waitReady, 1, 0⟩ [⟨.waitrdy, 2, 0⟩] (acceptedAs .waitrdy .waitrdy s)) :=
  .one ((step_line (acceptedAs .waitrdy .waitrdy s) ⟨.waitrdy, 1, 0⟩ [] hr rfl).trans rfl)

/-- Settles O27: the command is its gate, which passes or times out. -/
theorem waitrdyIsTheGateAlone : Obligations.WaitrdyIsTheGateAlone := by
  intro s hidle
  have ⟨_, hb, hcs, hds, _, hr⟩ := hidle
  have hx : exec .waitrdy s = .next (acceptedAs .waitrdy .waitrdy s) := (start_next_iff hb).mpr rfl
  have hready (j : Nat) (hj : ReadyAfter j s) : Completes .waitrdy .waitrdy s 0 0 (waitTrace j) s.speed := by
    obtain ⟨u, hu, hpc, hsent, ⟨hrem, hoff, hn, hi, _⟩, haddr, hdata⟩ := waitReady_sent j
      (atFrame ⟨.waitReady, 1, 0⟩ [⟨.waitrdy, 2, 0⟩] (acceptedAs .waitrdy .waitrdy s)) _ rfl hr hj
    obtain ⟨hfill, hbase, hbud, htmp⟩ := hsent.registers
    exact completes_of_done (e := .ok) hidle rfl hx ((waitrdy_called s hr).trans hu) hpc rfl ((Sent.refl _ _).trans hsent)
      ⟨haddr, hdata, hfill, hbase, hrem, hoff, hn, hi, hbud, htmp⟩
  refine ⟨hready, fun k hk => ?_, fun hlimit ⟨js, hjs⟩ => ?_⟩
  · obtain ⟨u, hu, hhalted, ⟨hrem, hoff, hn, hi, _⟩, haddr, hdata⟩ := waitReady_halted k
      (atFrame ⟨.waitReady, 1, 0⟩ [⟨.waitrdy, 2, 0⟩] (acceptedAs .waitrdy .waitrdy s)) _ rfl hr hcs hds hk
    obtain ⟨hfill, hbase, hbud, htmp⟩ := hhalted.registers
    exact completes_of_halted hidle rfl hx ((waitrdy_called s hr).trans hu) ((Sent.refl _ _).halted hhalted)
      ⟨haddr, hdata, hfill, hbase, hrem, hoff, hn, hi, hbud, htmp⟩
  · have hpass : GatesPass 1 js s := ⟨hjs, fun _ _ l hl => by simp [hlimit] at hl⟩
    exact ⟨js 0, hready (js 0) (hpass.first Nat.one_pos)⟩

/-! ## O6, O12 -/

/-- Settles O6: the split and the assembly as arithmetic. -/
theorem valueSplitAndAssembly : Obligations.ValueSplitAndAssembly := by
  refine ⟨fun v => ⟨rfl, rfl, value_of_bytes v⟩, fun hi lo => ⟨joinBytes_toNat hi lo, bytes_of_value hi lo⟩, fun a => ?_,
    versionNibble_toNat⟩
  rw [addrByte, addressByte, BitVec.toNat_append]
  simp

/-- Settles O12: the refusals of `L_BUF`, which WRDATA and a short WRCHUNK start with. -/
theorem launchesOutsideTheBufferAreRefused : Obligations.LaunchesOutsideTheBufferAreRefused := by
  refine fun s hb => ⟨fun h => ?_, fun hfit hbyte => ?_, fun n hn h => ?_, fun n hn hfit hbyte => ?_⟩
  · exact startTransfer_refused hb (launchRefusal_wraps h)
  · exact startTransfer_refused hb (launchRefusal_undefined hfit hbyte)
  · exact (exec_wrchunk_of_le hn s).trans (startTransfer_refused hb (launchRefusal_wraps h))
  · exact (exec_wrchunk_of_le hn s).trans (startTransfer_refused hb (launchRefusal_undefined hfit hbyte))

end Sys2Proof.Machine
end

section
/-! SUPPORT. Decoder and encoder, said once: what the code of each instruction decodes to, and that a code decodes to an instruction
exactly where it is that instruction's encoding (30_encoding.md R53 to R63); a row's `match` and `mask` field by field (R60). -/

namespace Sys2Proof

/-! ## Command words -/

/-- The `op` byte of an operation selects it (R60). -/
theorem commandOp_byte (o : CommandOp) : commandOp o.byte = some o := by
  cases o <;> rfl

/-- A word with an operation's `op` byte and operand fields that it takes is a legal command (R60, R61). -/
theorem decode_of_operands {o : CommandOp} {a : Byte} {v : BitVec 16} {i : Instr} (h : commandOperands o a v = some i) :
    decode (.command (packCommand o.byte a v)) = .ok i := by
  simp [decode, decodeCommand, commandOp_byte, h]

/-- A packed word has these three fields (R58). -/
theorem packCommand_eq_iff {o a : Byte} {v : BitVec 16} {w : CmdWord} :
    packCommand o a v = w ↔ o = opField w ∧ a = aField w ∧ v = vField w := by
  rw [← packCommand_inj, packCommand_fields]

/-- The test `(w and mask) = match` of a row of R60, field by field. -/
theorem and_mask_eq_iff {o m : Byte} {k : BitVec 16} {w : CmdWord} :
    w &&& packCommand 0xFF m k = packCommand o 0 0 ↔ o = opField w ∧ aField w &&& m = 0 ∧ vField w &&& k = 0 := by
  have hop : opField w &&& 0xFF = opField w := BitVec.and_allOnes
  conv_lhs => rw [← packCommand_fields w, packCommand_and, packCommand_inj, hop, eq_comm]

/-- `a[3:0]` of a command word are its bits 19:16 (R58). -/
theorem lowNibble_aField (w : CmdWord) : lowNibble (aField w) = w.extractLsb' 16 4 := by
  apply BitVec.eq_of_getLsbD_eq
  intro i hi
  simp (disch := omega) [lowNibble, aField]

/-- A byte is the address byte of an address (R56). -/
theorem addressByte_eq_iff {a : RegAddr} {b : Byte} : addressByte a = b ↔ b &&& 0xF0 = 0 ∧ a = lowNibble b := by
  constructor
  · rintro rfl
    exact ⟨addressByte_and a, (lowNibble_addressByte a).symm⟩
  · rintro ⟨hmask, rfl⟩
    have hhigh : ∀ b : Byte, b &&& 0xF0 = 0 → highNibble b = 0 := by decide
    exact addressByte_lowNibble b (hhigh b hmask)

/-! ## Micro-operation codes -/

/-- A micro-operation without operand is legal with the operand byte 0 only. -/
theorem bareMicro_eq_ok_iff {code : BitVec 4} {operand : Byte} {i j : Instr} :
    bareMicro code operand i = .ok j ↔ operand = 0 ∧ i = j := by
  by_cases h : operand = 0#8 <;> simp [bareMicro, h]

/-- The number of a duration name, read back. -/
theorem durationOf_code (t : Duration) : durationOf t.code = some t := by
  cases t <;> rfl

/-- A duration has one number. -/
theorem code_of_durationOf {operand : Byte} {t : Duration} (h : durationOf operand = some t) : t.code = operand := by
  apply BitVec.eq_of_toNat_eq
  unfold durationOf at h
  split at h <;> cases h <;> exact Eq.symm ‹_›

/-- A micro-operation code that is legal is the encoding of its instruction (R63). -/
theorem encode_of_decodeMicro {code : BitVec 4} {operand : Byte} {i : Instr} (h : decodeMicro code operand = .ok i) :
    i.wellFormed = true ∧ encode i = .micro code operand := by
  unfold decodeMicro at h
  split at h
  case h_8 hcode =>
    obtain rfl : code = 7 := BitVec.eq_of_toNat_eq hcode
    cases h
    exact ⟨rfl, rfl⟩
  case h_9 hcode =>
    obtain rfl : code = 8 := BitVec.eq_of_toNat_eq hcode
    split at h <;> cases h
    exact ⟨rfl, congrArg _ (code_of_durationOf ‹_›)⟩
  case h_11 => cases h
  all_goals
    obtain ⟨rfl, rfl⟩ := bareMicro_eq_ok_iff.mp h
    exact ⟨rfl, congrArg (Code.micro · 0) (BitVec.eq_of_toNat_eq (Eq.symm ‹_›))⟩

/-! ## Wire frames -/

/-- The bytes of a legal frame under command-select are the encoding of its instruction (R53, R54, R56). -/
theorem encode_of_decodeCsFrame {bytes : List Byte} {i : Instr} (h : decodeCsFrame bytes = .ok i) :
    i.wellFormed = true ∧ encode i = .csFrame bytes := by
  unfold decodeCsFrame at h
  split at h
  case h_1 op ab x y =>
    split_ifs at h with hop hab hop' hab <;> cases h
    · obtain ⟨hhi, hlo⟩ : (x ++ y).extractLsb' 8 8 = x ∧ (x ++ y).extractLsb' 0 8 = y := Machine.bytes_of_value x y
      simp [Instr.wellFormed, encode, addressByte_lowNibble ab hab, hop, hhi, hlo]
    · simp [Instr.wellFormed, encode, addressByte_lowNibble ab hab, hop']
  case h_2 => cases h

/-! ## Codes and instructions -/

/-- A legal command word is the encoding of its instruction (R60, R61). -/
theorem encode_of_decodeCommand {w : CmdWord} {i : Instr} (h : decode (.command w) = .ok i) :
    i.wellFormed = true ∧ encode i = .command w := by
  rw [← commandWord_of_decode h]
  rcases Machine.decodeCommand_cases w i h with ⟨_, _, rfl⟩ | ⟨_, rfl⟩ | rfl | ⟨_, rfl⟩ | ⟨_, _, rfl⟩ | rfl | rfl | rfl | rfl |
    rfl | rfl <;> exact ⟨rfl, rfl⟩

/-- A legal code is the encoding of its instruction (R53 to R63). -/
theorem encode_of_decode {c : Code} {i : Instr} (h : decode c = .ok i) : i.wellFormed = true ∧ encode i = c := by
  cases c with
  | command w => exact encode_of_decodeCommand h
  | micro code operand => exact encode_of_decodeMicro h
  | csFrame bytes => exact encode_of_decodeCsFrame h
  | dsFrame bytes =>
    simp only [decode, decodeDsFrame] at h
    split at h <;> cases h
    exact ⟨decide_eq_true ‹_›, rfl⟩

/-- The encoding of a well-formed instruction is legal and stands for it (R53 to R63). -/
theorem decode_encode {i : Instr} (h : i.wellFormed = true) : decode (encode i) = .ok i := by
  cases i with
  | wrreg a v => exact decode_of_operands (o := .wrreg) (by simp [commandOperands])
  | rdreg a => exact decode_of_operands (o := .rdreg) (by simp [commandOperands])
  | wrchunk n => exact decode_of_operands (o := .wrchunk) (by simp [commandOperands])
  | fill x n => exact decode_of_operands (o := .fill) rfl
  | wrdata | hreset | sreset | cancel | verq | flowrd | waitrdy => rfl
  | csa | csd | dsa | dsd | rsta | rstd | poll | xchg | speedhi => rfl
  | delay t => simp [encode, decode, decodeMicro, durationOf_code]
  | sciWriteFrame a v => simp [encode, decode, decodeCsFrame, Machine.value_of_bytes]
  | sciReadFrame a d1 d2 => simp [encode, decode, decodeCsFrame]
  | sdiChunkFrame bytes => exact if_pos (of_decide_eq_true h)

/-- A code stands for an instruction exactly where it is the instruction's encoding. -/
theorem decode_eq_ok_iff {c : Code} {i : Instr} : decode c = .ok i ↔ i.wellFormed = true ∧ encode i = c :=
  ⟨encode_of_decode, fun ⟨hwf, hc⟩ => hc ▸ decode_encode hwf⟩

/-! ## The rows of R60 -/

/-- A word decodes to a host command exactly where its fields are those of the command's word. -/
theorem decode_command_iff {o a : Byte} {v : BitVec 16} {w : CmdWord} {i : Instr} (hwf : i.wellFormed = true)
    (h : encode i = .command (packCommand o a v)) :
    decode (.command w) = .ok i ↔ o = opField w ∧ a = aField w ∧ v = vField w := by
  simp [decode_eq_ok_iff, hwf, h, packCommand_eq_iff]

/-- A row without operands is one word. -/
theorem decode_bare_command_iff {w m : CmdWord} {i : Instr} (hwf : i.wellFormed = true) (h : encode i = .command m) :
    decode (.command w) = .ok i ↔ w &&& 0xFFFFFFFF#32 = m := by
  have hmask : w &&& 0xFFFFFFFF#32 = w := BitVec.and_allOnes
  rw [decode_eq_ok_iff, h, hmask]
  simp [hwf, eq_comm]

end Sys2Proof

namespace Sys2Proof.Machine

/-! ## An illegal word -/

/-- An idle block ends an illegal word in the step that takes it from the port (R61, R132). -/
theorem step_illegal {s : State} {l : Launch} {rest : List Launch} (hidle : LIdle s) (hport : s.port = l :: rest)
    (hw : Illegal l.word) : step s = .next (finish .illegalCmd 0 (latch l rest s)) := by
  obtain ⟨hpc, hbusy, hcs, hds, _, hr⟩ := hidle
  obtain ⟨e, he⟩ := hw
  rw [step_idle s hr hpc hbusy, ← raiseError_lines_down .illegalCmd 0 (latch l rest s) hcs hds]
  simp [runIdle, fetch, hport, he]

/-! ## The exchanges of a data frame -/

@[simp] theorem assertDs_trace (s : State) : (assertDs s).trace = s.trace ++ [.dsOn] := by simp [State.trace]
@[simp] theorem deassertDs_trace (s : State) : (deassertDs s).trace = s.trace ++ [.dsOff] := by simp [State.trace]
@[simp] theorem assertDs_replyAt (s : State) (k : Nat) : (assertDs s).replyAt k = s.replyAt k := rfl

/-- The reply bytes after a data frame's exchanges are the old ones, moved on by its length. -/
theorem exchangeAll_replyAt (xs : List Byte) (s : State) (k : Nat) :
    (exchangeAll xs s).replyAt k = s.replyAt (k + xs.length) := by
  obtain ⟨_, hscript, hcount⟩ := exchangeAll_sent xs s
  rw [replyAt_of_drop s _ xs.length hscript hcount, Nat.add_comm]

/-- Exchange `i` of a data frame sends byte `i` and takes reply `i` (R55). -/
theorem exchangeAll_trace (xs : List Byte) (s : State) :
    (exchangeAll xs s).trace = s.trace ++ xs.zipIdx.map fun x => Event.xchg x.1 (s.replyAt x.2) := by
  induction xs generalizing s with
  | nil => simp [exchangeAll]
  | cons x xs ih => simp [exchangeAll, ih, List.zipIdx_cons, List.zipIdx_succ]

end Sys2Proof.Machine
end

section
/-! The obligations of 30_encoding.md: decoder and encoder, the opcode map, illegal words, the exchange and the frames. -/

namespace Sys2Proof.Machine

/-! ## O2, O3 -/

/-- Settles O2, instruction by instruction. -/
theorem decodeOfEncodeIsTheInstruction : Obligations.DecodeOfEncodeIsTheInstruction :=
  fun _ => decode_encode

/-- Settles O3, level by level. -/
theorem encodeOfDecodeIsTheCode : Obligations.EncodeOfDecodeIsTheCode :=
  fun _ _ => encode_of_decode

/-! ## O1 -/

/-- R60, WRREG. -/
theorem decode_wrreg_iff (w : CmdWord) (a : RegAddr) (v : Half) :
    decode (.command w) = .ok (.wrreg a v) ↔
      w &&& packCommand 0xFF 0xF0 0 = packCommand 0x02 0 0 ∧ a = w.extractLsb' 16 4 ∧ v = vField w := by
  rw [decode_command_iff rfl rfl, and_mask_eq_iff, addressByte_eq_iff, lowNibble_aField]
  simp [and_assoc]

/-- R60, RDREG. -/
theorem decode_rdreg_iff (w : CmdWord) (a : RegAddr) :
    decode (.command w) = .ok (.rdreg a) ↔
      w &&& packCommand 0xFF 0xF0 0xFFFF = packCommand 0x03 0 0 ∧ a = w.extractLsb' 16 4 := by
  have hmask : vField w &&& 0xFFFF = vField w := BitVec.and_allOnes
  rw [decode_command_iff rfl rfl, and_mask_eq_iff, addressByte_eq_iff, lowNibble_aField, hmask, eq_comm (a := vField w)]
  tauto

/-- R60, WRCHUNK. -/
theorem decode_wrchunk_iff (w : CmdWord) (n : BitVec 16) :
    decode (.command w) = .ok (.wrchunk n) ↔ w &&& packCommand 0xFF 0xFF 0 = packCommand 0x11 0 0 ∧ n = vField w := by
  have hmask : aField w &&& 0xFF = aField w := BitVec.and_allOnes
  rw [decode_command_iff rfl rfl, and_mask_eq_iff, hmask, eq_comm (a := aField w)]
  simp [and_assoc]

/-- R60, FILL. -/
theorem decode_fill_iff (w : CmdWord) (x : Byte) (n : BitVec 16) :
    decode (.command w) = .ok (.fill x n) ↔
      w &&& packCommand 0xFF 0 0 = packCommand 0x12 0 0 ∧ x = aField w ∧ n = vField w := by
  rw [decode_command_iff rfl rfl, and_mask_eq_iff]
  simp

/-- Settles O1, row by row: a word decodes to a command where its fields are those of the command's word, and the mask keeps the
fields that the operands leave fixed. -/
theorem commandWordSelectsItsRow : Obligations.CommandWordSelectsItsRow := fun w =>
  ⟨decode_wrreg_iff w, decode_rdreg_iff w, decode_bare_command_iff rfl rfl, decode_wrchunk_iff w, decode_fill_iff w,
    decode_bare_command_iff rfl rfl, decode_bare_command_iff rfl rfl, decode_bare_command_iff rfl rfl,
    decode_bare_command_iff rfl rfl, decode_bare_command_iff rfl rfl, decode_bare_command_iff rfl rfl⟩

/-! ## O10 -/

/-- A legal word matches the row of the command that it decodes to (R60). -/
theorem exists_row_of_decode {w : CmdWord} {i : Instr} (h : decode (.command w) = .ok i) :
    ∃ r ∈ commandRows, w &&& r.2 = r.1 := by
  obtain ⟨hwrreg, hrdreg, hwrdata, hwrchunk, hfill, hhreset, hsreset, hcancel, hverq, hflowrd, hwaitrdy⟩ :=
    commandWordSelectsItsRow w
  rcases decodeCommand_cases w i h with ⟨a, v, rfl⟩ | ⟨a, rfl⟩ | rfl | ⟨n, rfl⟩ | ⟨x, n, rfl⟩ | rfl | rfl | rfl | rfl |
    rfl | rfl
  · exact ⟨commandRows[0], List.getElem_mem _, ((hwrreg a v).mp h).1⟩
  · exact ⟨commandRows[1], List.getElem_mem _, ((hrdreg a).mp h).1⟩
  · exact ⟨commandRows[2], List.getElem_mem _, hwrdata.mp h⟩
  · exact ⟨commandRows[3], List.getElem_mem _, ((hwrchunk n).mp h).1⟩
  · exact ⟨commandRows[4], List.getElem_mem _, ((hfill x n).mp h).1⟩
  · exact ⟨commandRows[5], List.getElem_mem _, hhreset.mp h⟩
  · exact ⟨commandRows[6], List.getElem_mem _, hsreset.mp h⟩
  · exact ⟨commandRows[7], List.getElem_mem _, hcancel.mp h⟩
  · exact ⟨commandRows[8], List.getElem_mem _, hverq.mp h⟩
  · exact ⟨commandRows[9], List.getElem_mem _, hflowrd.mp h⟩
  · exact ⟨commandRows[10], List.getElem_mem _, hwaitrdy.mp h⟩

/-- A word that matches no row is illegal (R61). -/
theorem illegal_of_matchesNoRow {w : CmdWord} (h : MatchesNoRow w) : Illegal w := by
  cases hd : decode (.command w) with
  | error e => exact ⟨e, hd⟩
  | ok i =>
    obtain ⟨r, hr, hw⟩ := exists_row_of_decode hd
    exact absurd hw (h r hr)

/-- Settles O10: the word is illegal, and the step that takes it is `done` with `ILLEGAL_CMD`. -/
theorem illegalWordEndsAtOnce : Obligations.IllegalWordEndsAtOnce := by
  intro s l rest hidle hport hrow
  have hstep := step_illegal hidle hport (illegal_of_matchesNoRow hrow)
  obtain ⟨_, _, hcs, hds, hrst, _⟩ := hidle
  refine ⟨_, hstep, rfl, hcs, hds, hrst, rfl, rfl, rfl, rfl, rfl, ?_, rfl, rfl, rfl⟩
  simp [State.responsesInOrder, ErrorCode.code]

/-! ## O22, O20 -/

/-- Settles O22: the trace and the draws of the frame's exchanges, and the registers that they keep. -/
theorem dataChunkFrame : Obligations.DataChunkFrame := by
  refine ⟨fun bytes s hlen => ?_, fun bytes s hlen => if_neg (Nat.not_le_of_lt hlen)⟩
  refine ⟨deassertDs (exchangeAll bytes (assertDs s)), if_pos hlen, ?_, fun k => exchangeAll_replyAt bytes (assertDs s) k, ?_⟩
  · simp [exchangeAll_trace]
  · obtain ⟨_, _, _, _, hkept⟩ := exchangeAll_keeps bytes (assertDs s)
    rw [hkept]
    rfl

/-- Settles O20: the frame's trace, four draws, nothing else. -/
theorem registerWriteFrame : Obligations.RegisterWriteFrame :=
  fun a v s => ⟨_, rfl, sciWriteFrame_trace (a := a) (v := v) (s := s) rfl, fun k => by simp, rfl⟩

/-! ## O4, O5, O17 -/

/-- Settles O4: the decoder computes each of the nine. -/
theorem writtenOutWordsDecode : Obligations.WrittenOutWordsDecode :=
  ⟨rfl, rfl, rfl, rfl, rfl, rfl, rfl, rfl, rfl⟩

/-- Settles O5: a legal code is its instruction's encoding, and past 0x9 the decoder has no row. -/
theorem microOperationCodes : Obligations.MicroOperationCodes := by
  refine ⟨fun code operand i h => ?_, fun code operand hcode => ?_⟩
  · obtain ⟨_, henc⟩ := encode_of_decode h
    cases i with
    | csa | csd | dsa | dsd | rsta | rstd | poll | xchg | delay | speedhi => cases henc; simp
    | wrreg | rdreg | wrdata | wrchunk | fill | hreset | sreset | cancel | verq | flowrd | waitrdy | sciWriteFrame
    | sciReadFrame | sdiChunkFrame => cases henc
  · simp only [decode, decodeMicro]
    split
    case h_11 => rfl
    all_goals omega

/-- Settles O17, by what `exchange` does. -/
theorem exchangeMovesOneByteEachWay : Obligations.ExchangeMovesOneByteEachWay :=
  ⟨fun _ => rfl, fun out s =>
    ⟨exchange out s, rfl, rfl, exchange_trace out s, exchange_replyAt out s, exchange_flowAt out s, rfl⟩⟩

end Sys2Proof.Machine
end

section
/-! SUPPORT. Where the line operations stand, events without a reply byte, one busy round of a wait (10_state.md R18, R24;
40_line_and_gate.md R67 to R75). -/

namespace Sys2Proof.Machine

/-! ## Where the line operations stand -/

/-- Where a line operation stands (R67 to R72): CSA and DSA outside of every frame, CSD and DSD inside one or in line 4 of the
hard reset, RSTA and RSTD in its lines 1 and 4. -/
def LineOpSite (f : Frame) (u : Instr) : Prop :=
  match u with
  | .csa | .dsa => csAt [f] = false ∧ dsAt [f] = false
  | .csd => csAt [f] = true ∨ f = ⟨.hardReset, 4, 0⟩
  | .dsd => dsAt [f] = true ∨ f = ⟨.hardReset, 4, 1⟩
  | .rsta => f = ⟨.hardReset, 1, 0⟩
  | .rstd => f = ⟨.hardReset, 4, 2⟩
  | _ => True

/-- A request, if it is a line operation, stands at its place. -/
def AtSite (f : Frame) (act : Act) : Prop :=
  match act with
  | .micro u _ _ _ => LineOpSite f u
  | _ => True

@[simp] theorem atSite_micro (f : Frame) (u : Instr) (d : Dest) (k j : Nat) : AtSite f (.micro u d k j) ↔ LineOpSite f u := .rfl
@[simp] theorem atSite_assign (f : Frame) (t : State) (k j : Nat) : AtSite f (.assign t k j) := trivial
@[simp] theorem atSite_goto (f : Frame) (k j : Nat) : AtSite f (.goto k j) := trivial
@[simp] theorem atSite_call (f : Frame) (p : Proc) (k j : Nat) : AtSite f (.call p k j) := trivial
@[simp] theorem atSite_ret (f : Frame) : AtSite f .ret := trivial
@[simp] theorem atSite_done (f : Frame) (e : ErrorCode) (r : Half) : AtSite f (.done e r) := trivial
@[simp] theorem atSite_raise (f : Frame) (e : ErrorCode) (r : Half) : AtSite f (.raise e r) := trivial
@[simp] theorem atSite_stop (f : Frame) (why : Fault) : AtSite f (.stop why) := trivial
@[simp] theorem atSite_ite (f : Frame) (c : Prop) [Decidable c] (a b : Act) :
    AtSite f (if c then a else b) ↔ (c → AtSite f a) ∧ (¬ c → AtSite f b) := by
  split <;> simp [*]

/-- Every line of every procedure has its line operation at its place. -/
theorem lineOf_atSite (f : Frame) (s : State) : AtSite f (lineOf f s) := by
  obtain ⟨p, k, j⟩ := f
  cases p with
  | chunk g n =>
    simp only [lineOf, chunkLine]
    split
    case h_5 => split <;> simp [LineOpSite]
    all_goals simp [LineOpSite, csAt, dsAt]
  | _ =>
    simp only [lineOf, wrregLine, rdregLine, wrdataLine, wrchunkLine, fillLine, hresetLine, sresetLine, cancelLine, verqLine,
      flowrdLine, waitrdyLine, waitReadyLine, sciWriteLine, sciReadLine, streamLine, hardResetLine, softResetLine]
    split <;> simp [LineOpSite, csAt, dsAt]

/-- The same of a line operation that is known. -/
theorem lineOpSite_of_lineOf {f : Frame} {s : State} {u : Instr} {d : Dest} {k j : Nat} (h : lineOf f s = .micro u d k j) :
    LineOpSite f u := by
  simpa [h] using lineOf_atSite f s

/-! ## The clock speed -/

/-- A host command's meaning leaves SPEED: it changes nothing or is the acceptance (R22). -/
theorem exec_command_speed {i : Instr} (h : (commandProc i).isSome = true) {s t : State} (hx : exec i s = .next t) :
    t.speed = s.speed := by
  have hd : ∃ w, decode (.command w) = .ok i := by
    cases i with
    | wrreg | rdreg | wrdata | wrchunk | fill | hreset | sreset | cancel | verq | flowrd | waitrdy =>
      exact ⟨_, decode_eq_ok_iff.mpr ⟨rfl, rfl⟩⟩
    | csa | csd | dsa | dsd | rsta | rstd | poll | xchg | delay | speedhi | sciWriteFrame | sciReadFrame | sdiChunkFrame =>
      cases h
  obtain ⟨w, hd⟩ := hd
  obtain rfl | ⟨p, _, _, rfl⟩ := exec_command_cases s w i hd t hx <;> rfl

/-! ## Events without a reply byte -/

/-- Events none of which is an exchange are what their outbound side says. -/
theorem eq_of_map_outbound {more sent : List Event} (h : more.map Event.outbound = sent)
    (hno : ∀ out inp, Event.xchg out inp ∉ sent) : more = sent := by
  subst h
  refine ((List.map_congr_left fun e he => ?_).trans (List.map_id _)).symm
  cases e with
  | xchg out inp => exact absurd (List.mem_map_of_mem (f := Event.outbound) he) (hno out 0)
  | _ => rfl

/-! ## One busy round of a wait -/

/-- One round of `WaitReady` that reads busy, below the poll limit (R74 lines 2 to 6). -/
theorem waitReady_busy_round {s : State} (fs : List Frame) (n : Nat) (hr : s.resetIn = false) (hbusy : s.flowAt 0 = false)
    (hlimit : limitReached s.cfg.pollLimit (s.npoll + 1) = false) :
    run (n + 5) (atFrame ⟨.waitReady, 2, 0⟩ fs s) =
      run n (atFrame ⟨.waitReady, 2, 0⟩ fs { flowReady s with npoll := s.npoll + 1 }) := by
  let t : State := { flowReady s with npoll := s.npoll + 1 }
  have hb : ¬ (flowReady s).b = true := by simp [hbusy]
  have hl : ¬ limitReached t.cfg.pollLimit t.npoll = true := by simpa [t] using hlimit
  calc run (n + 5) (atFrame ⟨.waitReady, 2, 0⟩ fs s)
      = run (n + 4) (atFrame ⟨.waitReady, 3, 0⟩ fs (flowReady s)) := run_micro s hr .poll .discard rfl rfl
    _ = run (n + 3) (atFrame ⟨.waitReady, 4, 0⟩ fs (flowReady s)) := run_goto (flowReady s) hr (if_neg hb)
    _ = run (n + 2) (atFrame ⟨.waitReady, 5, 0⟩ fs t) := run_assign (flowReady s) hr rfl
    _ = run (n + 1) (atFrame ⟨.waitReady, 6, 0⟩ fs t) := run_goto t hr (if_neg hl)
    _ = run n (atFrame ⟨.waitReady, 2, 0⟩ fs t) := run_goto t hr rfl

/-- A wait without a poll limit raises nothing (R75). -/
theorem waitReady_no_raise {f : Frame} {s : State} (hf : f.proc = .waitReady) (hlimit : s.cfg.pollLimit = none)
    (e : ErrorCode) (info : Half) : lineOf f s ≠ .raise e info := by
  simp only [lineOf, hf, waitReadyLine, hlimit, limitReached]
  split
  case h_3 => split <;> simp
  all_goals simp

/-! ## The error exit -/

/-- What the error exit puts on the trace (R130). -/
theorem raiseError_trace (e : ErrorCode) (r : Half) (s : State) :
    (raiseError e r s).trace = s.trace ++ (if s.cs then [.csOff] else []) ++ (if s.ds then [.dsOff] else []) := by
  cases hc : s.cs <;> cases hd : s.ds <;> simp [State.trace, raiseError_events, hc, hd]

end Sys2Proof.Machine
end

section
/-! The obligations of 40_line_and_gate.md about single micro-operations, the gate and the error exit. -/

namespace Sys2Proof.Machine

/-! ## O15, O16, O18, O19 -/

/-- Settles O15: the effects are the operations' own; the sites are `LineOpSite`, with the lines where the invariant has them. -/
theorem lineMicroOperations : Obligations.LineMicroOperations := by
  refine fun s => ⟨rfl, rfl, rfl, rfl, rfl, rfl, rfl, rfl, rfl, rfl, rfl, rfl, fun f fs d k j hinv hp => ?_⟩
  obtain ⟨_, _, hcs, hds, _⟩ := hinv
  replace hcs : s.cs = csAt [f] := by rw [hcs, hp]; rfl
  replace hds : s.ds = dsAt [f] := by rw [hds, hp]; rfl
  rw [hcs, hds]
  refine ⟨lineOpSite_of_lineOf, fun hl hdown => ?_, lineOpSite_of_lineOf, fun hl hdown => ?_, lineOpSite_of_lineOf,
    lineOpSite_of_lineOf⟩
  · exact (lineOpSite_of_lineOf hl).resolve_left (by simp [hdown])
  · exact (lineOpSite_of_lineOf hl).resolve_left (by simp [hdown])

/-- Settles O16, by what `flowReady` does. -/
theorem pollTakesOneSample : Obligations.PollTakesOneSample :=
  ⟨rfl, fun s => ⟨flowReady s, rfl, rfl, by simp [State.trace], flowReady_flowAt s, flowReady_replyAt s, rfl⟩⟩

/-- Settles O18, by what `delayFor` does. -/
theorem delayIsOnlyAnEvent : Obligations.DelayIsOnlyAnEvent := fun _ _ => rfl

/-- Settles O19: a command's acceptance keeps SPEED, a micro-operation keeps or raises it, a frame keeps it. -/
theorem speedHighSetsTheHigherSpeed : Obligations.SpeedHighSetsTheHigherSpeed := by
  refine ⟨rfl, fun s => ⟨rfl, fun f fs d k j _ _ => line_of_speedhi, fun i t hx hs => ?_⟩⟩
  cases i with
  | csa | csd | dsa | dsd | rsta | rstd | poll | xchg | delay | sciWriteFrame | sciReadFrame =>
    cases hx
    exact hs
  | speedhi =>
    cases hx
    rfl
  | sdiChunkFrame bytes =>
    obtain ⟨_, _, _, _, hkept⟩ := exchangeAll_keeps bytes (assertDs s)
    simp only [exec, execSdiChunkFrame, hkept] at hx
    split at hx <;> cases hx
    exact hs
  | wrreg | rdreg | wrdata | wrchunk | fill | hreset | sreset | cancel | verq | flowrd | waitrdy =>
    exact (exec_command_speed rfl hx).trans hs

/-! ## O24, O25 -/

/-- Settles O24, by induction on the number of busy answers. -/
theorem busyChipKeepsTheBlockWaiting : Obligations.BusyChipKeepsTheBlockWaiting := by
  intro s fs n hr hp hlimit hbusy
  rw [← atFrame_self hp]
  clear hp
  induction n generalizing s with
  | zero => exact ⟨_, rfl, rfl, by simp, rfl, rfl, rfl, rfl, rfl, by simp⟩
  | succ n ih =>
    have hround := waitReady_busy_round fs (5 * n) hr (hbusy 0 n.succ_pos) (by simp [hlimit, limitReached])
    obtain ⟨t, ht, hpc, htrace, hbusy', hresp, hcs, hds, hrst, hflow⟩ := ih { flowReady s with npoll := s.npoll + 1 } hr hlimit
      fun k hk => (flowReady_flowAt s k).trans (hbusy (k + 1) (Nat.succ_lt_succ hk))
    refine ⟨t, hround.trans ht, hpc, ?_, hbusy', hresp, hcs, hds, hrst, fun k => ?_⟩
    · rw [htrace]
      simp [State.trace, atFrame, flowReady, emit, hbusy 0 n.succ_pos, List.replicate_succ]
    · rw [hflow, Nat.add_right_comm]
      exact flowReady_flowAt s (n + k)

/-- Settles O25: a failing wait halts the command, a passing one ends in the caller, and without a limit no line of it raises. -/
theorem pollLimitEndsAWait : Obligations.PollLimitEndsAWait := by
  refine ⟨fun s fs k hr hp hcs hds htimeout => ?_, fun s fs k j hr hp hlimit hjk hbusy hready => ?_,
    fun s f fs _ hf hlimit => waitReady_no_raise hf hlimit⟩
  · obtain ⟨t, ht, ⟨⟨more, htrace, hmore⟩, ⟨hpc, hbusy⟩, ⟨herr, hresult, hresp⟩, ⟨_, _, hrst, hspeed⟩, _⟩, _⟩ :=
      waitReady_halted k s fs hp hr hcs hds htimeout
    rw [eq_of_map_outbound hmore (by simp [List.mem_replicate])] at htrace
    exact ⟨t, ht, hpc, hbusy, herr, hresult, by simp [State.responsesInOrder, hresp], htrace, hrst, hspeed⟩
  · have hpass : ReadyAfter j s := ⟨hbusy, hready, fun l hl => by rw [hlimit] at hl; cases hl; exact hjk⟩
    exact ⟨_, waitReady_run j s fs hp hr hpass, rfl, by simp [State.trace, waited], rfl⟩

/-! ## O26 -/

/-- Settles O26: FLOWRD is one poll and its `done`. -/
theorem flowrdReturnsOneSample : Obligations.FlowrdReturnsOneSample := by
  refine ⟨fun s hidle => ?_, rfl⟩
  have ⟨_, hb, _, _, _, hr⟩ := hidle
  let t := atFrame ⟨.flowrd, 2, 0⟩ [] (flowReady (acceptedAs .flowrd .flowrd s))
  have hpoll : Reaches (acceptedAs .flowrd .flowrd s) t :=
    .one (step_micro (s := acceptedAs .flowrd .flowrd s) (f := ⟨.flowrd, 1, 0⟩) hr rfl rfl rfl)
  have hsent : Sent (acceptedAs .flowrd .flowrd s) t [.poll (s.flowAt 0)] 1 0 :=
    { trace := ⟨[.poll (s.flowAt 0)], by simp [State.trace, t, atFrame, acceptedAs]; rfl, rfl⟩
      flow := fun k => by rw [Nat.add_comm]; exact flowReady_flowAt _ k
      reply := fun k => by rw [Nat.zero_add]; rfl
      lines := ⟨rfl, rfl, rfl, rfl⟩
      command := ⟨rfl, rfl, rfl⟩
      flags := ⟨rfl, rfl, rfl, rfl⟩
      outside := ⟨rfl, rfl, rfl, rfl⟩
      registers := ⟨rfl, rfl, rfl, rfl⟩ }
  have hx : exec .flowrd s = .next (acceptedAs .flowrd .flowrd s) := (start_next_iff hb).mpr rfl
  exact completes_of_done (e := .ok) hidle rfl hx hpoll rfl rfl hsent
    ⟨rfl, rfl, rfl, rfl, rfl, rfl, rfl, rfl, rfl, rfl, rfl⟩

/-! ## O59 -/

/-- Settles O59: the line is the error exit, and in a legal run no select line is asserted at it. -/
theorem errorExit : Obligations.ErrorExit := by
  intro s f fs e info hr hp hl
  refine ⟨⟨raiseError e info s, ?_, ?_⟩, fun hinv => selectLines_down_at_raise hinv hp hl⟩
  · rw [step_line s f fs hr hp, runLine, hl]
    rfl
  · simp [raiseError_trace, State.responsesInOrder]

end Sys2Proof.Machine
end

section
/-! SUPPORT. A command's run as a sequence of gates: what a run that goes on or that has ended has done, and the rules by which the
run of a whole command is put together from its parts, each with every gate passing and with any one of them timing out
(40_line_and_gate.md R74, R75; 60_exceptions.md R130; 70_reset_and_hazards.md R161). -/

namespace Sys2Proof.Machine

/-! ## What a part of a run has done -/

/-- What a part of a command's run that goes on has done: the events it has put on the trace (outbound side), how many polls it has
taken, and what it has left as it was. -/
structure Advanced (s u : State) (sent : List Event) (polls : Nat) : Prop where
  trace : ∃ more, u.trace = s.trace ++ more ∧ more.map Event.outbound = sent
  flow : ∀ k, u.flowAt k = s.flowAt (polls + k)
  lines : linesOf u = linesOf s
  reset : u.resetIn = s.resetIn
  host : HostKept s u
  responses : u.responses = s.responses

/-- What a part of a command's run that has ended the command has done: the response `(err, result)` delivered, the block idle. -/
structure Concluded (s u : State) (err : BitVec 4) (result : Half) (sent : List Event) : Prop where
  trace : ∃ more, u.trace = s.trace ++ more ∧ more.map Event.outbound = sent
  idle : u.pc = [] ∧ u.busy = false
  flags : u.err = err ∧ u.result = result ∧ u.responses = ⟨err, result⟩ :: s.responses
  lines : linesOf u = linesOf s
  reset : u.resetIn = s.resetIn
  host : HostKept s u

/-- What the host holds and has had latched stays so from part to part. -/
theorem HostKept.trans {s t u : State} (h : HostKept s t) (h' : HostKept t u) : HostKept s u := by
  obtain ⟨a, b, c, d, e, f⟩ := h
  obtain ⟨a', b', c', d', e', f'⟩ := h'
  exact ⟨a'.trans a, b'.trans b, c'.trans c, d'.trans d, e'.trans e, f'.trans f⟩

/-- The events of two parts, one after the other. -/
theorem trace_trans {s t u : State} {a b : List Event} (h : ∃ more, t.trace = s.trace ++ more ∧ more.map Event.outbound = a)
    (h' : ∃ more, u.trace = t.trace ++ more ∧ more.map Event.outbound = b) :
    ∃ more, u.trace = s.trace ++ more ∧ more.map Event.outbound = a ++ b := by
  obtain ⟨m, hm, rfl⟩ := h
  obtain ⟨m', hm', rfl⟩ := h'
  exact ⟨m ++ m', by rw [hm', hm, List.append_assoc], List.map_append⟩

/-- Two parts, one after the other. -/
theorem Advanced.trans {s t u : State} {a b : List Event} {p q : Nat} (h : Advanced s t a p) (h' : Advanced t u b q) :
    Advanced s u (a ++ b) (p + q) where
  trace := trace_trans h.trace h'.trace
  flow k := by rw [h'.flow, h.flow, Nat.add_assoc]
  lines := h'.lines.trans h.lines
  reset := h'.reset.trans h.reset
  host := h.host.trans h'.host
  responses := h'.responses.trans h.responses

/-- A part that goes on, then one that ends the command. -/
theorem Advanced.concluded {s t u : State} {a b : List Event} {p : Nat} {err : BitVec 4} {result : Half}
    (h : Advanced s t a p) (h' : Concluded t u err result b) : Concluded s u err result (a ++ b) where
  trace := trace_trans h.trace h'.trace
  idle := h'.idle
  flags := h.responses ▸ h'.flags
  lines := h'.lines.trans h.lines
  reset := h'.reset.trans h.reset
  host := h.host.trans h'.host

/-- A part that does nothing to the link and the host's side, whatever it does to registers and `pc`. -/
theorem advanced_quiet (t s : State) (pc : List Frame) : Advanced s { withRegistersOf t s with pc := pc } [] 0 :=
  ⟨⟨[], (List.append_nil _).symm, rfl⟩, fun k => congrArg s.flowAt (Nat.zero_add k).symm, rfl, rfl,
    ⟨rfl, rfl, rfl, rfl, rfl, rfl⟩, rfl⟩

/-- A procedure that ran to its end. -/
theorem Sent.advanced {s u : State} {sent : List Event} {polls xchgs : Nat} (h : Sent s u sent polls xchgs) :
    Advanced s u sent polls := by
  obtain ⟨htrace, hflow, _, ⟨hcs, hds, hrst, _⟩, ⟨hcmd, hbase, hlen⟩, ⟨_, _, _, hresp⟩, ⟨hport, hbuf, hr, hcfg⟩, _⟩ := h
  exact ⟨htrace, hflow, by simp [linesOf, hcs, hds, hrst], hr, ⟨hcfg, hbuf, hport, hcmd, hbase, hlen⟩, hresp⟩

/-- A wait that timed out. -/
theorem Halted.concluded {s u : State} {sent : List Event} (h : Halted s u sent) : Concluded s u 2 0 sent := by
  obtain ⟨htrace, hidle, hflags, ⟨hcs, hds, hrst, _⟩, ⟨hcmd, hbase, hlen⟩, ⟨hport, hbuf, hr, hcfg⟩, _⟩ := h
  exact ⟨htrace, hidle, hflags, by simp [linesOf, hcs, hds, hrst], hr, ⟨hcfg, hbuf, hport, hcmd, hbase, hlen⟩⟩

/-- `done` ends the command and puts no event on the trace (R23). -/
theorem finish_concluded (e : ErrorCode) (r : Half) (s : State) : Concluded s (finish e r s) e.code r [] :=
  ⟨⟨[], (List.append_nil _).symm, rfl⟩, ⟨rfl, rfl⟩, ⟨rfl, rfl, rfl⟩, rfl, rfl, ⟨rfl, rfl, rfl, rfl, rfl, rfl⟩⟩

/-! ## Gates in a row -/

/-- From every state of `P` the run goes on to a state of `Q`, sends `sent` and takes no poll. -/
def Quiet (P : State → Prop) (sent : List Event) (Q : State → Prop) : Prop :=
  ∀ s, P s → ∃ u, Reaches s u ∧ Advanced s u sent 0 ∧ Q u

/-- From every state of `P` the run sends `bodies`, one behind each gate: it goes on to a state of `Q` where the gates pass, and
ends the command in a state of `H` where one of them times out (R74, R75, R130). -/
structure Leads (H P : State → Prop) (bodies : List (List Event)) (Q : State → Prop) : Prop where
  passes : ∀ s js, P s → GatesPass bodies.length js s →
    ∃ u, Reaches s u ∧ Advanced s u (gatedFrom js 0 bodies) (gateStart js bodies.length) ∧ Q u
  stops : ∀ s js m k, P s → m < bodies.length → GateTimesOut m k js s →
    ∃ u, Reaches s u ∧ Concluded s u 2 0 (stoppedAt m k js bodies) ∧ H u

/-- Gates are the same seen from a state before them that no poll separates from them. -/
theorem GatesPass.after_quiet {m : Nat} {js : Nat → Nat} {s t : State} {sent : List Event} (h : GatesPass m js s)
    (ht : Advanced s t sent 0) : GatesPass m js t := by
  simpa using GatesPass.rest (d := 0) (by rwa [Nat.zero_add]) ht.flow ht.host.1

/-- The same of gates of which one times out. -/
theorem GateTimesOut.after_quiet {m k : Nat} {js : Nat → Nat} {s t : State} {sent : List Event} (h : GateTimesOut m k js s)
    (ht : Advanced s t sent 0) : GateTimesOut m k js t := by
  simpa using GateTimesOut.rest (d := 0) (by rwa [Nat.zero_add]) ht.flow ht.host.1

/-- Two parts without a poll, one after the other. -/
theorem Quiet.trans {P Q R : State → Prop} {a b : List Event} (h : Quiet P a Q) (h' : Quiet Q b R) : Quiet P (a ++ b) R := by
  intro s hs
  obtain ⟨t, hst, hadv, ht⟩ := h s hs
  obtain ⟨u, htu, hadv', hu⟩ := h' t ht
  exact ⟨u, hst.trans htu, hadv.trans hadv', hu⟩

/-- Nothing done. -/
theorem quiet_refl (P : State → Prop) : Quiet P [] P := fun s hs => ⟨s, .refl s, advanced_quiet s s s.pc, hs⟩

section
variable {H P Q R : State → Prop} {as bs : List (List Event)} {b sent : List Event}

/-- A part that sends nothing, then gates. -/
theorem Quiet.leads (h : Quiet P [] Q) (h' : Leads H Q bs R) : Leads H P bs R where
  passes s js hs hg := by
    obtain ⟨t, hst, hadv, ht⟩ := h s hs
    obtain ⟨u, htu, hadv', hu⟩ := h'.passes t js ht (hg.after_quiet hadv)
    exact ⟨u, hst.trans htu, Nat.zero_add (gateStart js bs.length) ▸ hadv.trans hadv', hu⟩
  stops s js m k hs hm hg := by
    obtain ⟨t, hst, hadv, ht⟩ := h s hs
    obtain ⟨u, htu, hcon, hu⟩ := h'.stops t js m k ht hm (hg.after_quiet hadv)
    exact ⟨u, hst.trans htu, hadv.concluded hcon, hu⟩

/-- Gates, then a part that sends nothing. -/
theorem Leads.quiet (h : Leads H P bs Q) (h' : Quiet Q [] R) : Leads H P bs R where
  passes s js hs hg := by
    obtain ⟨t, hst, hadv, ht⟩ := h.passes s js hs hg
    obtain ⟨u, htu, hadv', hu⟩ := h' t ht
    exact ⟨u, hst.trans htu, List.append_nil (gatedFrom js 0 bs) ▸ hadv.trans hadv', hu⟩
  stops := h.stops

/-- Gates, then a part that sends more behind the last of them. -/
theorem Leads.tail (h : Leads H P (bs ++ [b]) Q) (h' : Quiet Q sent R) : Leads H P (bs ++ [b ++ sent]) R where
  passes s js hs hg := by
    have hlen : (bs ++ [b ++ sent]).length = (bs ++ [b]).length := by simp
    rw [hlen] at hg ⊢
    obtain ⟨t, hst, hadv, ht⟩ := h.passes s js hs hg
    obtain ⟨u, htu, hadv', hu⟩ := h' t ht
    refine ⟨u, hst.trans htu, ?_, hu⟩
    have hsent : gatedFrom js 0 (bs ++ [b ++ sent]) = gatedFrom js 0 (bs ++ [b]) ++ sent := by
      simp [gatedFrom_append, gatedFrom]
    rw [hsent]
    exact hadv.trans hadv'
  stops s js m k hs hm hg := by
    simp only [List.length_append, List.length_singleton] at hm
    have hle : m ≤ bs.length := Nat.le_of_lt_succ hm
    have hstop := h.stops s js m k hs (by simpa using hm) hg
    rw [stoppedAt, List.take_append_of_le_length hle] at hstop ⊢
    exact hstop

/-- Gates, then more gates. -/
theorem Leads.seq (h : Leads H P as Q) (h' : Leads H Q bs R) : Leads H P (as ++ bs) R where
  passes s js hs hg := by
    rw [List.length_append] at hg ⊢
    obtain ⟨t, hst, hadv, ht⟩ := h.passes s js hs (hg.mono (Nat.le_add_right _ _))
    obtain ⟨u, htu, hadv', hu⟩ := h'.passes t _ ht (hg.rest hadv.flow hadv.host.1)
    refine ⟨u, hst.trans htu, ?_, hu⟩
    rw [gatedFrom_append, gateStart_add]
    exact hadv.trans hadv'
  stops s js m k hs hm hg := by
    rcases Nat.lt_or_ge m as.length with hlt | hge
    · have hstop := h.stops s js m k hs hlt hg
      rw [stoppedAt] at hstop ⊢
      rwa [List.take_append_of_le_length hlt.le]
    · obtain ⟨d, rfl⟩ := Nat.exists_eq_add_of_le hge
      rw [List.length_append] at hm
      obtain ⟨t, hst, hadv, ht⟩ := h.passes s js hs (hg.2.2.1.mono (Nat.le_add_right _ _))
      obtain ⟨u, htu, hcon, hu⟩ := h'.stops t _ d k ht (by omega) (hg.rest hadv.flow hadv.host.1)
      refine ⟨u, hst.trans htu, ?_, hu⟩
      have hsent : stoppedAt (as.length + d) k js (as ++ bs) =
          gatedFrom js 0 as ++ stoppedAt d k (fun g => js (as.length + g)) bs := by
        rw [stoppedAt, stoppedAt, List.take_length_add_append, gatedFrom_append, List.append_assoc]
      rw [hsent]
      exact hadv.concluded hcon

/-- One gate. -/
theorem leads_one
    (hpass : ∀ s j, P s → ReadyAfter j s → ∃ u, Reaches s u ∧ Advanced s u (waitTrace j ++ b) (j + 1) ∧ Q u)
    (hstop : ∀ s k, P s → TimesOut k s → ∃ u, Reaches s u ∧ Concluded s u 2 0 (List.replicate k (.poll false)) ∧ H u) :
    Leads H P [b] Q where
  passes s js hs hg := by
    obtain ⟨u, hu, hadv, hQ⟩ := hpass s (js 0) hs (hg.first Nat.one_pos)
    exact ⟨u, hu, by simpa [gatedFrom, gateStart] using hadv, hQ⟩
  stops s js m k hs hm hg := by
    obtain rfl : m = 0 := Nat.lt_one_iff.mp hm
    exact hstop s k hs hg.now

/-- No gate. -/
theorem leads_none : Leads H P [] P where
  passes s _ hs _ := ⟨s, .refl s, advanced_quiet s s s.pc, hs⟩
  stops _ _ _ _ _ hm := absurd hm (Nat.not_lt_zero _)

end

/-! ## A whole command -/

section
variable {i : Instr} {p : Proc} {s : State} {speed : Bool} (hidle : LIdle s) (hcp : commandProc i = some p)
  (hx : exec i s = .next (acceptedAs i p s))
include hidle hcp hx

/-- A command whose run has ended completes (R161). -/
theorem completes_of_concluded {u : State} {err : BitVec 4} {result : Half} {sent : List Event}
    (hu : Reaches (acceptedAs i p s) u) (h : Concluded (acceptedAs i p s) u err result sent) (hkept : KeptBy p s u)
    (hspeed : u.speed = speed) : Completes i p s err result sent speed := by
  obtain ⟨_, _, hcs, hds, hrst, hr⟩ := hidle
  obtain ⟨htrace, ⟨hpc, hbusy⟩, ⟨herr, hresult, hresp⟩, hlines, hr', ⟨hcfg, hbuf, hport, hcmd, hbase, hlen⟩⟩ := h
  simp only [linesOf, Prod.mk.injEq] at hlines
  obtain ⟨hcs', hds', hrst'⟩ := hlines
  refine ⟨hcp, hx, u, hu, ⟨hpc, hbusy, hcs'.trans hcs, hds'.trans hds, hrst'.trans hrst, hr'.trans hr, herr, hresult, ?_,
    htrace, hbuf, hport, hcfg⟩, hspeed, hcmd, hbase, hlen, hkept⟩
  simp [State.responsesInOrder, hresp, acceptedAs]

variable {H O P Q : State → Prop} {head : List Event} {bodies : List (List Event)} {js : Nat → Nat}
  (hstart : O (acceptedAs i p s)) (hhead : Quiet O head P) (hleads : Leads H P bodies Q)
include hstart hhead hleads

/-- A command that starts with `head`, whose gates all pass and whose next line is then its `done`. -/
theorem completes_of_passes {e : ErrorCode} {r : Half} (hgates : GatesPass bodies.length js s)
    (hdone : ∀ u, Q u → u.resetIn = false ∧ (∃ f, u.pc = [f] ∧ lineOf f u = .done e r) ∧ KeptBy p s u ∧ u.speed = speed) :
    Completes i p s e.code r (head ++ gatedFrom js 0 bodies) speed := by
  obtain ⟨t, ht, hadv, hP⟩ := hhead _ hstart
  obtain ⟨u, hu, hadv', hQ⟩ := hleads.passes t js hP (GatesPass.after_quiet (s := acceptedAs i p s) hgates hadv)
  obtain ⟨hr, ⟨f, hpc, hl⟩, hkept, hspeed⟩ := hdone u hQ
  have hstep : step u = .next (finish e r u) := by
    rw [step_line u f [] hr hpc, runLine, hl]
    rfl
  have hcon := (hadv.trans hadv').concluded (finish_concluded e r u)
  rw [List.append_nil] at hcon
  refine completes_of_concluded hidle hcp hx (ht.trans (hu.trans (.one hstep))) hcon ?_ hspeed
  cases p <;> exact hkept

/-- A command that starts with `head` and of whose gates one times out. -/
theorem completes_of_stops {m k : Nat} (hm : m < bodies.length) (hgates : GateTimesOut m k js s)
    (hhalted : ∀ u, H u → KeptBy p s u ∧ u.speed = speed) :
    Completes i p s 2 0 (head ++ stoppedAt m k js bodies) speed := by
  obtain ⟨t, ht, hadv, hP⟩ := hhead _ hstart
  obtain ⟨u, hu, hcon, hH⟩ :=
    hleads.stops t js m k hP hm (GateTimesOut.after_quiet (s := acceptedAs i p s) hgates hadv)
  obtain ⟨hkept, hspeed⟩ := hhalted u hH
  exact completes_of_concluded hidle hcp hx (ht.trans hu) (hadv.concluded hcon) hkept hspeed

end

end Sys2Proof.Machine
end

section
/-! SUPPORT. The parts of a command's run, at a place of `pc`: what the lines between two gates, the register frames, the wait and the
transfers lead to (10_state.md R24, R25; 40_line_and_gate.md R74; 41_register_protocol.md R82, R83; 42_streaming_protocol.md R88,
R89). -/

namespace Sys2Proof.Machine

/-! ## Registers -/

/-- The working registers that no register frame writes, and SPEED, the same in `u` as in `s`. -/
def RegisterKept (s u : State) : Prop := KeptBy .hreset s u ∧ u.speed = s.speed

/-- The working registers that no transfer writes, and SPEED, the same in `u` as in `s`. -/
def TransferKept (s u : State) : Prop :=
  (u.addr = s.addr ∧ u.data = s.data ∧ u.fill = s.fill ∧ u.base = s.base ∧ u.bud = s.bud ∧ u.tmp = s.tmp) ∧ u.speed = s.speed

/-- `R` speaks of the working registers and SPEED only. -/
def OfRegisters (R : State → Prop) : Prop := ∀ s u, withRegistersOf s u = u → u.speed = s.speed → R s → R u

/-- `R` speaks of what no register frame writes only. -/
def FrameStable (R : State → Prop) : Prop := ∀ s u, RegisterKept s u → R s → R u

/-- `R` speaks of what no transfer writes only. -/
def TransferStable (R : State → Prop) : Prop := ∀ s u, TransferKept s u → R s → R u

/-- What no register frame writes is a matter of registers. -/
theorem FrameStable.ofRegisters {R : State → Prop} (h : FrameStable R) : OfRegisters R := by
  intro s u hu hspeed
  rw [← hu] at hspeed ⊢
  exact h _ _ ⟨⟨rfl, rfl, rfl, rfl, rfl, rfl, rfl, rfl⟩, hspeed⟩

/-- What no transfer writes is a matter of registers. -/
theorem TransferStable.ofRegisters {R : State → Prop} (h : TransferStable R) : OfRegisters R := by
  intro s u hu hspeed
  rw [← hu] at hspeed ⊢
  exact h _ _ ⟨⟨rfl, rfl, rfl, rfl, rfl, rfl⟩, hspeed⟩

/-- That the registers of `RegisterKept` are those of `t` is kept by every register frame. -/
theorem registerKept_stable (t : State) : FrameStable (RegisterKept t) := by
  rintro s u ⟨⟨h1, h2, h3, h4, h5, h6, h7, h8⟩, h⟩ ⟨⟨g1, g2, g3, g4, g5, g6, g7, g8⟩, g⟩
  exact ⟨⟨h1.trans g1, h2.trans g2, h3.trans g3, h4.trans g4, h5.trans g5, h6.trans g6, h7.trans g7, h8.trans g8⟩, h.trans g⟩

/-- That the registers of `TransferKept` are those of `t` is kept by every transfer. -/
theorem transferKept_stable (t : State) : TransferStable (TransferKept t) := by
  rintro s u ⟨⟨h1, h2, h3, h4, h5, h6⟩, h⟩ ⟨⟨g1, g2, g3, g4, g5, g6⟩, g⟩
  exact ⟨⟨h1.trans g1, h2.trans g2, h3.trans g3, h4.trans g4, h5.trans g5, h6.trans g6⟩, h.trans g⟩

/-! ## Places -/

/-- The run that started at `o` stands at `pc` between two frames: no line asserted, the host's side as it was, the next reply byte
that of exchange `n`, the registers as `R` says. -/
structure At (o : State) (R : State → Prop) (n : Nat) (pc : List Frame) (s : State) : Prop where
  pc : s.pc = pc
  reset : s.resetIn = false
  down : linesOf s = linesDown
  host : HostKept o s
  reply : ∀ k, s.replyAt k = o.replyAt (n + k)
  regs : R s

section
variable {o s u : State} {R R' H : State → Prop} {n k j polls xchgs : Nat} {f : Frame} {fs pc pc' : List Frame}
  {sent : List Event}

/-- A procedure that ran to its end leads to a place. -/
theorem Sent.at (h : Sent s u sent polls xchgs) (hs : At o R n pc s) (hpc : u.pc = pc') (hR : R' u) :
    At o R' (n + xchgs) pc' u where
  pc := hpc
  reset := h.advanced.reset.trans hs.reset
  down := h.advanced.lines.trans hs.down
  host := hs.host.trans h.advanced.host
  reply q := by rw [h.reply, hs.reply, Nat.add_assoc]
  regs := hR

/-- The select lines at a place. -/
theorem At.selects (h : At o R n pc s) : s.cs = false ∧ s.ds = false :=
  ⟨congrArg (·.1) h.down, congrArg (·.2.1) h.down⟩

/-! ### Lines that send nothing -/

/-- A line that moves `pc` and writes registers only. -/
theorem quiet_line (h : ∀ s, At o R n (f :: fs) s → ∃ t, runLine f s = .next { withRegistersOf t s with pc := pc } ∧
    R' { withRegistersOf t s with pc := pc }) : Quiet (At o R n (f :: fs)) [] (At o R' n pc) := by
  intro s hs
  obtain ⟨t, hl, hR⟩ := h s hs
  exact ⟨_, .one ((step_line s f fs hs.reset hs.pc).trans hl), advanced_quiet t s pc,
    ⟨rfl, hs.reset, hs.down, hs.host, hs.reply, hR⟩⟩

/-- A procedure call. -/
theorem quiet_call {p : Proc} (hR : OfRegisters R) (hl : ∀ s, At o R n (f :: fs) s → lineOf f s = .call p k j) :
    Quiet (At o R n (f :: fs)) [] (At o R n (⟨p, 1, 0⟩ :: ⟨f.proc, k, j⟩ :: fs)) :=
  quiet_line fun s hs => ⟨s, by rw [runLine, hl s hs, runAct, perform, call, hs.pc]; rfl, hR s _ rfl rfl hs.regs⟩

/-- A test or a jump. -/
theorem quiet_goto (hR : OfRegisters R') (hl : ∀ s, At o R n (f :: fs) s → lineOf f s = .goto k j ∧ R' s) :
    Quiet (At o R n (f :: fs)) [] (At o R' n (⟨f.proc, k, j⟩ :: fs)) := by
  refine quiet_line fun s hs => ?_
  obtain ⟨hl, hRs⟩ := hl s hs
  exact ⟨s, by rw [runLine, hl, runAct, perform, goTo, hs.pc]; rfl, hR s _ rfl rfl hRs⟩

/-- A return. -/
theorem quiet_ret (hR : OfRegisters R) (hl : ∀ s, lineOf f s = .ret) : Quiet (At o R n (f :: fs)) [] (At o R n fs) :=
  quiet_line fun s hs => ⟨s, by rw [runLine, hl s, runAct, perform, leave, hs.pc]; rfl, hR s _ rfl rfl hs.regs⟩

/-- An assignment. -/
theorem quiet_assign (hR : OfRegisters R')
    (hl : ∀ s, At o R n (f :: fs) s → ∃ t, lineOf f s = .assign t k j ∧ t.speed = s.speed ∧ R' t) :
    Quiet (At o R n (f :: fs)) [] (At o R' n (⟨f.proc, k, j⟩ :: fs)) := by
  refine quiet_line fun s hs => ?_
  obtain ⟨t, hl, hspeed, hR't⟩ := hl s hs
  refine ⟨t, ?_, hR t _ rfl hspeed.symm hR't⟩
  rw [runLine, hl, runAct, perform, mayAsk_of_lineOf hl, goTo]
  change Host.Outcome.next { withRegistersOf t s with pc := retop k j s.pc } = _
  rw [hs.pc]
  rfl

/-- A delay: an event and nothing else (R77). -/
theorem quiet_delay {t : Duration} (hR : OfRegisters R) (hl : ∀ s, lineOf f s = .micro (.delay t) .discard k j) :
    Quiet (At o R n (f :: fs)) [.delay t] (At o R n (⟨f.proc, k, j⟩ :: fs)) := by
  intro s hs
  refine ⟨atFrame ⟨f.proc, k, j⟩ fs (delayFor t s), .one ?_,
    ⟨⟨[.delay t], by simp [State.trace, atFrame], rfl⟩, fun q => congrArg s.flowAt (Nat.zero_add q).symm, rfl, rfl,
      ⟨rfl, rfl, rfl, rfl, rfl, rfl⟩, rfl⟩,
    ⟨rfl, hs.reset, hs.down, hs.host, hs.reply, hR s _ rfl rfl hs.regs⟩⟩
  rw [step_micro hs.reset hs.pc (hl s) (t := delayFor t s) rfl, afterMicro, goTo, keep_discard, delayFor_pc, hs.pc]
  rfl

/-! ### The wait and the register frames -/

/-- What a register frame that ran to its end leaves of the registers. -/
theorem Sent.registerKept (h : Sent s u sent polls xchgs) (hk : KeepsTransfer s u) : RegisterKept s u := by
  obtain ⟨hfill, hbase, hbud, htmp⟩ := h.registers
  obtain ⟨hrem, hoff, hn, hi, _⟩ := hk
  obtain ⟨_, _, _, hspeed⟩ := h.lines
  exact ⟨⟨hfill, hbase, hrem, hoff, hn, hi, hbud, htmp⟩, hspeed⟩

/-- What a register frame whose wait timed out leaves of the registers. -/
theorem Halted.registerKept (h : Halted s u sent) (hk : KeepsTransfer s u) : RegisterKept s u := by
  obtain ⟨hfill, hbase, hbud, htmp⟩ := h.registers
  obtain ⟨hrem, hoff, hn, hi, _⟩ := hk
  obtain ⟨_, _, _, hspeed⟩ := h.lines
  exact ⟨⟨hfill, hbase, hrem, hoff, hn, hi, hbud, htmp⟩, hspeed⟩

section
variable (hR : FrameStable R) (hH : ∀ u, R u → H u)
include hR hH

/-- `WaitReady` (R74). -/
theorem waitReady_leads : Leads H (At o R n (⟨.waitReady, 1, 0⟩ :: fs)) [[]] (At o R n fs) := by
  refine leads_one (fun s j hs hj => ?_) fun s k hs hk => ?_
  · obtain ⟨u, hu, hpc, hsent, hkeeps, _⟩ := waitReady_sent j s fs hs.pc hs.reset hj
    exact ⟨u, hu, (List.append_nil (waitTrace j)).symm ▸ hsent.advanced,
      hsent.at hs hpc (hR s u (hsent.registerKept hkeeps) hs.regs)⟩
  · obtain ⟨hcs, hds⟩ := hs.selects
    obtain ⟨u, hu, hhalted, hkeeps, _⟩ := waitReady_halted k s fs hs.pc hs.reset hcs hds hk
    exact ⟨u, hu, hhalted.concluded, hH u (hR s u (hhalted.registerKept hkeeps) hs.regs)⟩

/-- `SciWrite` (R82). -/
theorem sciWrite_leads (a : RegAddr) (v : Half) :
    Leads H (At o R n (⟨.sciWrite a v, 1, 0⟩ :: fs)) [writeFrame a v] (At o R (n + 4) fs) := by
  refine leads_one (fun s j hs hj => ?_) fun s k hs hk => ?_
  · obtain ⟨u, hu, hpc, hsent, hkeeps⟩ := sciWrite_sent a v j s fs hs.pc hs.reset hs.selects.1 hj
    exact ⟨u, hu, hsent.advanced, hsent.at hs hpc (hR s u (hsent.registerKept hkeeps) hs.regs)⟩
  · obtain ⟨hcs, hds⟩ := hs.selects
    obtain ⟨u, hu, hhalted, hkeeps⟩ := sciWrite_halted a v k s fs hs.pc hs.reset hcs hds hk
    exact ⟨u, hu, hhalted.concluded, hH u (hR s u (hhalted.registerKept hkeeps) hs.regs)⟩

/-- `SciRead` (R83): the value from the third and the fourth reply stands in `DATA`. -/
theorem sciRead_leads (a : RegAddr) :
    Leads H (At o R n (⟨.sciRead a, 1, 0⟩ :: fs)) [readFrame a o.cfg.dummyByte]
      (At o (fun u => R u ∧ u.data = o.replyAt (n + 2) ++ o.replyAt (n + 3)) (n + 4) fs) := by
  refine leads_one (fun s j hs hj => ?_) fun s k hs hk => ?_
  · obtain ⟨u, hu, hpc, hsent, hdata, hkeeps⟩ := sciRead_sent a j s fs hs.pc hs.reset hs.selects.1 hj
    rw [hs.reply, hs.reply] at hdata
    exact ⟨u, hu, hs.host.1 ▸ hsent.advanced, hsent.at hs hpc ⟨hR s u (hsent.registerKept hkeeps) hs.regs, hdata⟩⟩
  · obtain ⟨hcs, hds⟩ := hs.selects
    obtain ⟨u, hu, hhalted, hkeeps⟩ := sciRead_halted a k s fs hs.pc hs.reset hcs hds hk
    exact ⟨u, hu, hhalted.concluded, hH u (hR s u (hhalted.registerKept hkeeps) hs.regs)⟩

end

/-! ### Transfers -/

/-- What a transfer that ran to its end leaves of the registers. -/
theorem Sent.transferKept (h : Sent s u sent polls xchgs) (hk : KeepsRegisterFrame s u) : TransferKept s u := by
  obtain ⟨hfill, hbase, hbud, htmp⟩ := h.registers
  obtain ⟨_, _, _, hspeed⟩ := h.lines
  exact ⟨⟨hk.1, hk.2, hfill, hbase, hbud, htmp⟩, hspeed⟩

/-- What a transfer with a wait that timed out leaves of the registers. -/
theorem Halted.transferKept (h : Halted s u sent) (hk : KeepsRegisterFrame s u) : TransferKept s u := by
  obtain ⟨hfill, hbase, hbud, htmp⟩ := h.registers
  obtain ⟨_, _, _, hspeed⟩ := h.lines
  exact ⟨⟨hk.1, hk.2, hfill, hbase, hbud, htmp⟩, hspeed⟩

section
variable (hR : TransferStable R) (hH : ∀ u, R u → H u) (g : Source) {xs : List Byte} {len : Nat} (hlen : xs.length = len)
  (hb : ∀ s, HostKept o s → R s → Bytes g 0 xs s)
include hR hH hlen hb

/-- `Chunk` (R88). -/
theorem chunk_leads (hmax : len ≤ 32) :
    Leads H (At o R n (⟨.chunk g len, 1, 0⟩ :: fs)) [chunkFrame xs] (At o R (n + len) fs) := by
  subst hlen
  refine leads_one (fun s j hs hj => ?_) fun s k hs hk => ?_
  · obtain ⟨u, hu, hpc, hsent, _, _, _, hkeeps⟩ :=
      chunk_sent g xs j s fs hs.pc hs.reset hs.selects.2 hj (hb s hs.host hs.regs) hmax
    exact ⟨u, hu, hsent.advanced, hsent.at hs hpc (hR s u (hsent.transferKept hkeeps) hs.regs)⟩
  · obtain ⟨hcs, hds⟩ := hs.selects
    obtain ⟨u, hu, hhalted, hkeeps⟩ := chunk_halted g xs.length k s fs hs.pc hs.reset hcs hds hk
    exact ⟨u, hu, hhalted.concluded, hH u (hR s u (hhalted.transferKept hkeeps) hs.regs)⟩

/-- `Stream` (R89). -/
theorem stream_leads (hfit : len < 2 ^ o.cfg.lenW) :
    Leads H (At o R n (⟨.stream g len, 1, 0⟩ :: fs)) (streamBodies xs) (At o R (n + len) fs) where
  passes s js hs hg := by
    subst hlen
    rw [streamBodies_length _ xs rfl] at hg ⊢
    obtain ⟨u, hu, hpc, hsent, hkeeps⟩ :=
      stream_sent g xs js s fs hs.pc hs.reset hs.selects.2 (hs.host.1.symm ▸ hfit) (hb s hs.host hs.regs) hg
    exact ⟨u, hu, hsent.advanced, hsent.at hs hpc (hR s u (hsent.transferKept hkeeps) hs.regs)⟩
  stops s js m k hs hm hg := by
    subst hlen
    rw [streamBodies_length _ xs rfl] at hm
    obtain ⟨hcs, hds⟩ := hs.selects
    obtain ⟨u, hu, hhalted, hkeeps⟩ :=
      stream_halted g xs js m k s fs hs.pc hs.reset hcs hds (hs.host.1.symm ▸ hfit) (hb s hs.host hs.regs) hm hg
    exact ⟨u, hu, hhalted.concluded, hH u (hR s u (hhalted.transferKept hkeeps) hs.regs)⟩

end

/-! ### The start of a command -/

/-- An idle block accepts a command that `start` starts (R22). -/
theorem exec_of_start {i : Instr} {p : Proc} (hidle : LIdle s) (h : exec i s = start p i s) :
    exec i s = .next (acceptedAs i p s) :=
  h.trans ((start_next_iff hidle.2.1).mpr rfl)

/-- An accepted command stands at its first line (R22). -/
theorem at_accepted {i : Instr} {p : Proc} (hidle : LIdle s) (hR : R (acceptedAs i p s)) :
    At (acceptedAs i p s) R 0 [⟨p, 1, 0⟩] (acceptedAs i p s) := by
  obtain ⟨_, _, hcs, hds, hrst, hr⟩ := hidle
  refine ⟨rfl, hr, ?_, ⟨rfl, rfl, rfl, rfl, rfl, rfl⟩, fun q => by rw [Nat.zero_add], hR⟩
  simp [linesOf, acceptedAs, hcs, hds, hrst]

/-- A state's own registers are kept in it. -/
theorem transferKept_refl (s : State) : TransferKept s s := ⟨⟨rfl, rfl, rfl, rfl, rfl, rfl⟩, rfl⟩

/-- The same for the registers of `RegisterKept`. -/
theorem registerKept_refl (s : State) : RegisterKept s s := ⟨⟨rfl, rfl, rfl, rfl, rfl, rfl, rfl, rfl⟩, rfl⟩

end

end Sys2Proof.Machine
end

section
/-! The obligations of 42_streaming_protocol.md about WRDATA and FILL. -/

namespace Sys2Proof.Machine

/-! ## O31, O32 -/

section
variable {xs : List Byte} {s : State} (hbuf : BufferHolds xs s)
include hbuf

/-- WRDATA (R91): the base latched, then the stream out of the host buffer. -/
theorem wrdata_leads (hlen : xs.length = s.bufLen) (hfit : OperandsFit s) :
    Leads (TransferKept { s with base := s.bufBase })
      (At (acceptedAs .wrdata .wrdata s) (TransferKept s) 0 [⟨.wrdata, 1, 0⟩]) (streamBodies xs)
      (At (acceptedAs .wrdata .wrdata s) (TransferKept { s with base := s.bufBase }) (0 + s.bufLen) [⟨.wrdata, 3, 0⟩]) := by
  have hstable := transferKept_stable { s with base := s.bufBase }
  have hbytes (u : State) (hhost : HostKept (acceptedAs .wrdata .wrdata s) u)
      (hR : TransferKept { s with base := s.bufBase } u) : Bytes (.buffer 0) 0 xs u := by
    intro m hm
    obtain ⟨⟨_, _, _, hbase, _⟩, _⟩ := hR
    rw [Nat.zero_add, sourceByte, hbase, hhost.2.1]
    exact hbuf.2 m hm
  refine (quiet_assign hstable.ofRegisters fun u hu => ⟨{ u with base := u.bufBase }, rfl, rfl, ?_⟩).leads
    ((quiet_call hstable.ofRegisters fun u hu => ?_).leads (stream_leads hstable (fun _ h => h) (.buffer 0) hlen hbytes hfit.2))
  · obtain ⟨⟨haddr, hdata, hfill, _, hbud, htmp⟩, hspeed⟩ := hu.regs
    obtain ⟨_, _, _, _, hbase, _⟩ := hu.host
    exact ⟨⟨haddr, hdata, hfill, hbase, hbud, htmp⟩, hspeed⟩
  · obtain ⟨_, _, _, _, _, hbufLen⟩ := hu.host
    exact congrArg (fun l => Act.call (.stream (.buffer 0) l) 3 0) hbufLen

/-- An idle block accepts WRDATA where the buffer holds its bytes (R163). -/
theorem wrdata_accepted (hb : s.busy = false) (hlen : xs.length = s.bufLen) :
    exec .wrdata s = .next (acceptedAs .wrdata .wrdata s) :=
  (startTransfer_next_iff hb).mpr ⟨hlen ▸ ⟨hbuf.1, fun j hj => by rw [hbuf.2 j hj]; rfl⟩, rfl⟩

end

/-- What WRDATA leaves. -/
theorem keptBy_wrdata {s u : State} (h : TransferKept { s with base := s.bufBase } u) : KeptBy .wrdata s u ∧ u.speed = s.speed := by
  obtain ⟨⟨haddr, hdata, hfill, _, hbud, htmp⟩, hspeed⟩ := h
  exact ⟨⟨haddr, hdata, hfill, hbud, htmp⟩, hspeed⟩

/-- Settles O31: the gates of the stream pass. -/
theorem wrdataSendsTheBufferInChunks : Obligations.WrdataSendsTheBufferInChunks := by
  intro xs js s hidle hcfg hfit hlen hbuf hgates
  rw [← streamBodies_length _ xs rfl] at hgates
  exact completes_of_passes (e := .ok) hidle rfl (wrdata_accepted hbuf hidle.2.1 hlen)
    (at_accepted hidle (transferKept_refl _)) (quiet_refl _) (wrdata_leads hbuf hlen hfit) hgates
    fun u hu => ⟨hu.reset, ⟨_, hu.pc, rfl⟩, keptBy_wrdata hu.regs⟩

/-- Settles O32: a gate of the stream times out. -/
theorem wrdataStopsAtTheGateThatTimesOut : Obligations.WrdataStopsAtTheGateThatTimesOut := by
  intro xs js s m k hidle hcfg hfit hlen hbuf hm hgates
  rw [← streamBodies_length _ xs rfl] at hm
  exact completes_of_stops hidle rfl (wrdata_accepted hbuf hidle.2.1 hlen)
    (at_accepted hidle (transferKept_refl _)) (quiet_refl _) (wrdata_leads hbuf hlen hfit) hm hgates
    fun _ => keptBy_wrdata

/-! ## O33, O34 -/

section
variable (x : Byte) (n : BitVec 16) {s : State}

/-- The fill byte as the source of a transfer. -/
theorem bytes_fill {u : State} (h : u.fill = x) (len : Nat) : Bytes .fill 0 (List.replicate len x) u := by
  intro m _
  rw [sourceByte, h, List.getElem_replicate]

/-- A 16-bit length is a length of `Stream` (R89, R92). -/
theorem half_fits (hcfg : LCfg s) : n.toNat < 2 ^ s.cfg.lenW :=
  Nat.lt_of_lt_of_le n.isLt (Nat.pow_le_pow_right Nat.two_pos hcfg.2)

/-- FILL (R92): the byte latched, then the stream of it. -/
theorem fill_leads (hcfg : LCfg s) :
    Leads (TransferKept { s with fill := x }) (At (acceptedAs (.fill x n) .fill s) (TransferKept s) 0 [⟨.fill, 1, 0⟩])
      (streamBodies (List.replicate n.toNat x))
      (At (acceptedAs (.fill x n) .fill s) (TransferKept { s with fill := x }) (0 + n.toNat) [⟨.fill, 3, 0⟩]) := by
  have hstable := transferKept_stable { s with fill := x }
  have hbytes (u : State) (_ : HostKept (acceptedAs (.fill x n) .fill s) u) (hR : TransferKept { s with fill := x } u) :
      Bytes .fill 0 (List.replicate n.toNat x) u := by
    obtain ⟨⟨_, _, hfill, _⟩, _⟩ := hR
    exact bytes_fill x hfill _
  refine (quiet_assign hstable.ofRegisters fun u hu => ⟨{ u with fill := cmdA u }, rfl, rfl, ?_⟩).leads
    ((quiet_call hstable.ofRegisters fun u hu => ?_).leads
      (stream_leads hstable (fun _ h => h) .fill List.length_replicate hbytes (half_fits n hcfg)))
  · obtain ⟨⟨haddr, hdata, _, hbase, hbud, htmp⟩, hspeed⟩ := hu.regs
    obtain ⟨_, _, _, hcmd, _⟩ := hu.host
    have hfill : cmdA u = x := by simp [cmdA, hcmd, acceptedAs, commandWord]
    exact ⟨⟨haddr, hdata, hfill, hbase, hbud, htmp⟩, hspeed⟩
  · obtain ⟨_, _, _, hcmd, _⟩ := hu.host
    simp [lineOf, fillLine, cmdV, hcmd, acceptedAs, commandWord]

/-- What FILL leaves. -/
theorem keptBy_fill {x : Byte} {u : State} (h : TransferKept { s with fill := x } u) : KeptBy .fill s u ∧ u.speed = s.speed := by
  obtain ⟨⟨haddr, hdata, _, hbase, hbud, htmp⟩, hspeed⟩ := h
  exact ⟨⟨haddr, hdata, hbase, hbud, htmp⟩, hspeed⟩

/-- The number of frames of a FILL (R93). -/
theorem fillBodies_length : (streamBodies (List.replicate n.toNat x)).length = chunkCount n.toNat :=
  streamBodies_length _ _ (by rw [List.length_replicate])

end

/-- Settles O33: the gates of the stream pass. -/
theorem fillSendsTheByteCountTimes : Obligations.FillSendsTheByteCountTimes := by
  intro x n js s hidle hcfg hgates
  rw [← fillBodies_length x n] at hgates
  exact completes_of_passes (e := .ok) hidle rfl (exec_of_start (i := .fill x n) hidle rfl)
    (at_accepted hidle (transferKept_refl _)) (quiet_refl _) (fill_leads x n hcfg) hgates
    fun u hu => ⟨hu.reset, ⟨_, hu.pc, rfl⟩, keptBy_fill hu.regs⟩

/-- Settles O34: a gate of the stream times out. -/
theorem fillStopsAtTheGateThatTimesOut : Obligations.FillStopsAtTheGateThatTimesOut := by
  intro x n js s m k hidle hcfg hm hgates
  rw [← fillBodies_length x n] at hm
  exact completes_of_stops hidle rfl (exec_of_start (i := .fill x n) hidle rfl)
    (at_accepted hidle (transferKept_refl _)) (quiet_refl _) (fill_leads x n hcfg) hm hgates
    fun _ => keptBy_fill

end Sys2Proof.Machine
end

section
/-! SUPPORT. The two resets as sequences of gates (43_reset_sequencer.md R99, R100). -/

namespace Sys2Proof.Machine

/-- Bodies behind gates: the polls that the gates take, and the bodies. -/
theorem gatedFrom_length (js : Nat → Nat) (bodies : List (List Event)) :
    (gatedFrom js 0 bodies).length = bodies.flatten.length + gateStart js bodies.length := by
  induction bodies generalizing js with
  | nil => rfl
  | cons b bs ih =>
    rw [gatedFrom_cons, List.length_append, ih, List.length_cons, Nat.add_comm bs.length 1, gateStart_add]
    simp [waitTrace, gateStart]
    omega

/-- The run of a reset that started at `o` stands at `pc` between two frames; the registers that it does not write are as before. -/
abbrev ResetAt (o : State) (n : Nat) (pc : List Frame) : State → Prop := At o (RegisterKept o) n pc

section
variable {o : State} {n k j : Nat} {f : Frame} {fs : List Frame}

/-! ## Frames and lines -/

/-- Lines 7 to 9 of `SoftReset` (R100): a data frame of four zero bytes. -/
theorem softReset_frame_run (s : State) (hr : s.resetIn = false) :
    run 6 (atFrame ⟨.softReset, 7, 0⟩ fs s) =
      .next (atFrame ⟨.softReset, 10, 0⟩ fs (deassertDs (exchangeAll [0, 0, 0, 0] (assertDs s)))) := by
  let s1 := assertDs s
  let s2 := exchange 0 s1
  let s3 := exchange 0 s2
  let s4 := exchange 0 s3
  let s5 := exchange 0 s4
  calc run 6 (atFrame ⟨.softReset, 7, 0⟩ fs s)
      = run 5 (atFrame ⟨.softReset, 8, 0⟩ fs s1) := run_micro s hr .dsa .discard rfl rfl
    _ = run 4 (atFrame ⟨.softReset, 8, 1⟩ fs s2) := run_micro s1 hr (.xchg 0) .discard rfl rfl
    _ = run 3 (atFrame ⟨.softReset, 8, 2⟩ fs s3) := run_micro s2 hr (.xchg 0) .discard rfl rfl
    _ = run 2 (atFrame ⟨.softReset, 8, 3⟩ fs s4) := run_micro s3 hr (.xchg 0) .discard rfl rfl
    _ = run 1 (atFrame ⟨.softReset, 9, 0⟩ fs s5) := run_micro s4 hr (.xchg 0) .discard rfl rfl
    _ = run 0 (atFrame ⟨.softReset, 10, 0⟩ fs (deassertDs s5)) := run_micro s5 hr .dsd .discard rfl rfl

/-- The same as a part of the run. -/
theorem softReset_frame : Quiet (ResetAt o n (⟨.softReset, 7, 0⟩ :: fs)) (chunkFrame [0, 0, 0, 0])
    (ResetAt o (n + 4) (⟨.softReset, 10, 0⟩ :: fs)) := by
  intro s hs
  have hrun := softReset_frame_run (fs := fs) s hs.reset
  rw [atFrame_self hs.pc] at hrun
  have hlines : linesOf (deassertDs (exchangeAll [0, 0, 0, 0] (assertDs s))) = linesOf s := by
    simp [linesOf, exchangeAll, hs.selects.2]
  refine ⟨_, ⟨6, hrun⟩,
    ⟨?_, fun q => congrArg s.flowAt (Nat.zero_add q).symm, hlines, rfl, ⟨rfl, rfl, rfl, rfl, rfl, rfl⟩, rfl⟩,
    ⟨rfl, hs.reset, hlines.trans hs.down, hs.host, fun q => ?_, hs.regs⟩⟩
  · exact ⟨.dsOn :: [.xchg 0 (s.replyAt 0), .xchg 0 (s.replyAt 1), .xchg 0 (s.replyAt 2), .xchg 0 (s.replyAt 3)] ++ [.dsOff],
      by simp [State.trace, atFrame, exchangeAll], rfl⟩
  · rw [Nat.add_assoc, Nat.add_comm 4, ← hs.reply]
    exact exchangeAll_replyAt [0, 0, 0, 0] (assertDs s) q

/-- Lines 1 to 4 of `HardReset` (R99). -/
theorem hardReset_head_run (s : State) (hr : s.resetIn = false) :
    run 6 (atFrame ⟨.hardReset, 1, 0⟩ fs s) =
      .next (atFrame ⟨.hardReset, 5, 0⟩ fs
        (deassertRst (deassertDs (deassertCs (exchange s.cfg.dummyByte (delayFor .rstHold (assertRst s))))))) := by
  let s1 := assertRst s
  let s2 := delayFor .rstHold s1
  let s3 := exchange s.cfg.dummyByte s2
  let s4 := deassertCs s3
  let s5 := deassertDs s4
  calc run 6 (atFrame ⟨.hardReset, 1, 0⟩ fs s)
      = run 5 (atFrame ⟨.hardReset, 2, 0⟩ fs s1) := run_micro s hr .rsta .discard rfl rfl
    _ = run 4 (atFrame ⟨.hardReset, 3, 0⟩ fs s2) := run_micro s1 hr (.delay .rstHold) .discard rfl rfl
    _ = run 3 (atFrame ⟨.hardReset, 4, 0⟩ fs s3) := run_micro s2 hr (.xchg s.cfg.dummyByte) .discard rfl rfl
    _ = run 2 (atFrame ⟨.hardReset, 4, 1⟩ fs s4) := run_micro s3 hr .csd .discard rfl rfl
    _ = run 1 (atFrame ⟨.hardReset, 4, 2⟩ fs s5) := run_micro s4 hr .dsd .discard rfl rfl
    _ = run 0 (atFrame ⟨.hardReset, 5, 0⟩ fs (deassertRst s5)) := run_micro s5 hr .rstd .discard rfl rfl

/-- The same as a part of the run. -/
theorem hardReset_head : Quiet (ResetAt o n (⟨.hardReset, 1, 0⟩ :: fs)) (hardResetHead o.cfg)
    (ResetAt o (n + 1) (⟨.hardReset, 5, 0⟩ :: fs)) := by
  intro s hs
  have hrun := hardReset_head_run (fs := fs) s hs.reset
  rw [atFrame_self hs.pc] at hrun
  refine ⟨_, ⟨6, hrun⟩,
    ⟨?_, fun q => congrArg s.flowAt (Nat.zero_add q).symm, hs.down.symm, rfl, ⟨rfl, rfl, rfl, rfl, rfl, rfl⟩, rfl⟩,
    ⟨rfl, hs.reset, rfl, hs.host, fun q => ?_, hs.regs⟩⟩
  · exact ⟨[.rstOn, .delay .rstHold, .xchg s.cfg.dummyByte (s.replyAt 0), .csOff, .dsOff, .rstOff],
      by simp [State.trace, atFrame]; rfl, by simp [hardResetHead, Event.outbound, hs.host.1]⟩
  · rw [Nat.add_assoc, Nat.add_comm 1, ← hs.reply]
    exact exchange_replyAt s.cfg.dummyByte (delayFor .rstHold (assertRst s)) q

/-- Line 14 of `HardReset` (R99): SPEED goes up. -/
theorem hardReset_speedUp : Quiet (ResetAt o n (⟨.hardReset, 14, 0⟩ :: fs)) [.speedUp]
    (At o (fun u => KeptBy .hreset o u ∧ u.speed = true) n (⟨.hardReset, 15, 0⟩ :: fs)) := by
  intro s hs
  refine ⟨atFrame ⟨.hardReset, 15, 0⟩ fs (speedHigh s), ⟨1, ?_⟩,
    ⟨⟨[.speedUp], by simp [State.trace, atFrame], rfl⟩, fun q => congrArg s.flowAt (Nat.zero_add q).symm, rfl, rfl,
      ⟨rfl, rfl, rfl, rfl, rfl, rfl⟩, rfl⟩,
    ⟨rfl, hs.reset, hs.down, hs.host, hs.reply, ⟨hs.regs.1, rfl⟩⟩⟩
  have hrun : run 1 (atFrame ⟨.hardReset, 14, 0⟩ fs s) = run 0 (atFrame ⟨.hardReset, 15, 0⟩ fs (speedHigh s)) :=
    run_micro s hs.reset .speedhi .discard rfl rfl
  rwa [atFrame_self hs.pc] at hrun

/-! ## Gates of a reset -/

/-- A line of a reset that writes a register (R82, R99, R100). -/
theorem reset_write (a : RegAddr) (v : Half) (hl : ∀ s : State, s.cfg = o.cfg → lineOf f s = .call (.sciWrite a v) k j) :
    Leads (RegisterKept o) (ResetAt o n (f :: fs)) [writeFrame a v] (ResetAt o (n + 4) (⟨f.proc, k, j⟩ :: fs)) :=
  (quiet_call (registerKept_stable o).ofRegisters fun s hs => hl s hs.host.1).leads
    (sciWrite_leads (registerKept_stable o) (fun _ h => h) a v)

/-- A line of a reset that waits (R74, R99, R100). -/
theorem reset_wait (hl : ∀ s : State, lineOf f s = .call .waitReady k j) :
    Leads (RegisterKept o) (ResetAt o n (f :: fs)) [[]] (ResetAt o n (⟨f.proc, k, j⟩ :: fs)) :=
  (quiet_call (registerKept_stable o).ofRegisters fun s _ => hl s).leads
    (waitReady_leads (registerKept_stable o) fun _ h => h)

/-- A line of a reset that delays (R77). -/
theorem reset_delay {t : Duration} (hl : ∀ s : State, lineOf f s = .micro (.delay t) .discard k j) :
    Quiet (ResetAt o n (f :: fs)) [.delay t] (ResetAt o n (⟨f.proc, k, j⟩ :: fs)) :=
  quiet_delay (registerKept_stable o).ofRegisters hl

/-- `SoftReset` (R100): lines 1 and 2, 3, 4 and 5, 6 to 9. -/
theorem softReset_leads :
    Leads (RegisterKept o) (ResetAt o n (⟨.softReset, 1, 0⟩ :: fs)) (softResetBodies o.cfg) (ResetAt o (n + 12) fs) := by
  have h1 : Leads (RegisterKept o) (ResetAt o n (⟨.softReset, 1, 0⟩ :: fs)) [writeFrame 0x0 0x0804]
      (ResetAt o (n + 4) (⟨.softReset, 2, 0⟩ :: fs)) := reset_write _ _ fun _ _ => rfl
  have h3 : Leads (RegisterKept o) (ResetAt o (n + 4) (⟨.softReset, 3, 0⟩ :: fs)) [[]]
      (ResetAt o (n + 4) (⟨.softReset, 4, 0⟩ :: fs)) := reset_wait fun _ => rfl
  have h4 : Leads (RegisterKept o) (ResetAt o (n + 4) (⟨.softReset, 4, 0⟩ :: fs)) [writeFrame 0x3 o.cfg.clockfValue]
      (ResetAt o (n + 8) (⟨.softReset, 5, 0⟩ :: fs)) := reset_write _ _ fun _ hc => hc ▸ rfl
  have h6 : Leads (RegisterKept o) (ResetAt o (n + 8) (⟨.softReset, 6, 0⟩ :: fs)) [[]]
      (ResetAt o (n + 8) (⟨.softReset, 7, 0⟩ :: fs)) := reset_wait fun _ => rfl
  have h12 := h1.tail (bs := []) (reset_delay fun _ => rfl)
  have h45 := h4.tail (bs := []) (reset_delay fun _ => rfl)
  have h69 := h6.tail (bs := []) softReset_frame
  exact (h12.seq (h3.seq (h45.seq h69))).quiet (quiet_ret (registerKept_stable o).ofRegisters fun _ => rfl)

/-- `HardReset` from its first gate to its last action (R99): lines 5, 6, 7, 8 and 9, 10, 11, 12, 13 and 14. -/
theorem hardReset_leads : Leads (RegisterKept o) (ResetAt o n (⟨.hardReset, 5, 0⟩ :: fs)) (hardResetBodies o.cfg)
    (At o (fun u => KeptBy .hreset o u ∧ u.speed = true) (n + 36) (⟨.hardReset, 15, 0⟩ :: fs)) := by
  have h5 : Leads (RegisterKept o) (ResetAt o n (⟨.hardReset, 5, 0⟩ :: fs)) [writeFrame 0xB o.cfg.volMute]
      (ResetAt o (n + 4) (⟨.hardReset, 6, 0⟩ :: fs)) := reset_write _ _ fun _ hc => hc ▸ rfl
  have h6 : Leads (RegisterKept o) (ResetAt o (n + 4) (⟨.hardReset, 6, 0⟩ :: fs)) [writeFrame 0x3 o.cfg.clockfValue]
      (ResetAt o (n + 8) (⟨.hardReset, 7, 0⟩ :: fs)) := reset_write _ _ fun _ hc => hc ▸ rfl
  have h7 : Leads (RegisterKept o) (ResetAt o (n + 8) (⟨.hardReset, 7, 0⟩ :: fs)) [[]]
      (ResetAt o (n + 8) (⟨.hardReset, 8, 0⟩ :: fs)) := reset_wait fun _ => rfl
  have h8 : Leads (RegisterKept o) (ResetAt o (n + 8) (⟨.hardReset, 8, 0⟩ :: fs)) [writeFrame 0x5 o.cfg.audataSlow]
      (ResetAt o (n + 12) (⟨.hardReset, 9, 0⟩ :: fs)) := reset_write _ _ fun _ hc => hc ▸ rfl
  have h89 := h8.tail (bs := []) (reset_delay fun _ => rfl)
  have h10 : Leads (RegisterKept o) (ResetAt o (n + 12) (⟨.hardReset, 10, 0⟩ :: fs)) [writeFrame 0xB o.cfg.volAnalogOn]
      (ResetAt o (n + 16) (⟨.hardReset, 11, 0⟩ :: fs)) := reset_write _ _ fun _ hc => hc ▸ rfl
  have h11 : Leads (RegisterKept o) (ResetAt o (n + 16) (⟨.hardReset, 11, 0⟩ :: fs)) [writeFrame 0x5 o.cfg.audataTarget]
      (ResetAt o (n + 20) (⟨.hardReset, 12, 0⟩ :: fs)) := reset_write _ _ fun _ hc => hc ▸ rfl
  have h12 : Leads (RegisterKept o) (ResetAt o (n + 20) (⟨.hardReset, 12, 0⟩ :: fs)) [writeFrame 0xB o.cfg.volDefault]
      (ResetAt o (n + 24) (⟨.hardReset, 13, 0⟩ :: fs)) := reset_write _ _ fun _ hc => hc ▸ rfl
  have h13 : Leads (RegisterKept o) (ResetAt o (n + 24) (⟨.hardReset, 13, 0⟩ :: fs)) (softResetBodies o.cfg)
      (ResetAt o (n + 36) (⟨.hardReset, 14, 0⟩ :: fs)) :=
    (quiet_call (registerKept_stable o).ofRegisters fun _ _ => rfl).leads softReset_leads
  have hall : Leads (RegisterKept o) (ResetAt o n (⟨.hardReset, 5, 0⟩ :: fs))
      ((hardResetBodies o.cfg).take 10 ++ [chunkFrame [0, 0, 0, 0]]) (ResetAt o (n + 36) (⟨.hardReset, 14, 0⟩ :: fs)) :=
    h5.seq (h6.seq (h7.seq (h89.seq (h10.seq (h11.seq (h12.seq h13))))))
  exact hall.tail hardReset_speedUp

end

/-! ## The two commands -/

/-- SRESET (R102) is the soft reset. -/
theorem sreset_leads (o : State) : Leads (RegisterKept o) (ResetAt o 0 [⟨.sreset, 1, 0⟩]) (softResetBodies o.cfg)
    (ResetAt o 12 [⟨.sreset, 2, 0⟩]) :=
  (quiet_call (registerKept_stable o).ofRegisters fun _ _ => rfl).leads softReset_leads

/-- HRESET (R101) starts with the hard reset's lines before the first gate. -/
theorem hreset_head (o : State) :
    Quiet (ResetAt o 0 [⟨.hreset, 1, 0⟩]) (hardResetHead o.cfg) (ResetAt o 1 [⟨.hardReset, 5, 0⟩, ⟨.hreset, 2, 0⟩]) :=
  (quiet_call (registerKept_stable o).ofRegisters fun _ _ => rfl).trans hardReset_head

/-- Without SPEED, the registers that no register frame writes are registers. -/
theorem keptBy_hreset_ofRegisters (o : State) (b : Bool) : OfRegisters fun u => KeptBy .hreset o u ∧ u.speed = b := by
  intro s u hu hspeed hs
  rw [← hu] at hspeed ⊢
  exact ⟨hs.1, hspeed.trans hs.2⟩

/-- HRESET (R101) is the hard reset. -/
theorem hreset_leads (o : State) :
    Leads (RegisterKept o) (ResetAt o 1 [⟨.hardReset, 5, 0⟩, ⟨.hreset, 2, 0⟩]) (hardResetBodies o.cfg)
      (At o (fun u => KeptBy .hreset o u ∧ u.speed = true) 37 [⟨.hreset, 2, 0⟩]) :=
  hardReset_leads.quiet (quiet_ret (keptBy_hreset_ofRegisters o true) fun _ => rfl)

end Sys2Proof.Machine
end

section
/-! The obligations of 43_reset_sequencer.md. -/

namespace Sys2Proof.Machine

/-! ## O37, O38, O39 -/

/-- Settles O37: the gates of the soft reset pass. -/
theorem sresetRunsTheSoftReset : Obligations.SresetRunsTheSoftReset := by
  intro js s hidle hgates
  refine ⟨?_, ?_, gateStart_zero 4⟩
  · exact completes_of_passes (e := .ok) hidle rfl (exec_of_start (i := .sreset) hidle rfl)
      (at_accepted hidle (registerKept_refl _)) (quiet_refl _) (sreset_leads _) hgates
      fun u hu => ⟨hu.reset, ⟨_, hu.pc, rfl⟩, hu.regs⟩
  · rw [gatedFrom_length]
    simp [softResetBodies, writeFrame, chunkFrame]

/-- HRESET whose gates all pass (R99, R101). -/
theorem hreset_completes {js : Nat → Nat} {s : State} (hidle : LIdle s) (hgates : GatesPass 11 js s) :
    Completes .hreset .hreset s 0 0 (hardResetHead s.cfg ++ gatedFrom js 0 (hardResetBodies s.cfg)) true :=
  completes_of_passes (e := .ok) hidle rfl (exec_of_start (i := .hreset) hidle rfl)
    (at_accepted hidle (registerKept_refl _)) (hreset_head _) (hreset_leads _) hgates
    fun _ hu => ⟨hu.reset, ⟨_, hu.pc, rfl⟩, hu.regs⟩

/-- The trace of a hard reset has SPEED+ (R99), which has no reply byte. -/
theorem speedUp_mem_of_hardReset {more : List Event} {js : Nat → Nat} {c : Config}
    (h : more.map Event.outbound = hardResetHead c ++ gatedFrom js 0 (hardResetBodies c)) : Event.speedUp ∈ more := by
  have hmem : Event.speedUp ∈ more.map Event.outbound := by
    rw [h]
    simp [hardResetBodies, gatedFrom]
  obtain ⟨e, he, hout⟩ := List.mem_map.mp hmem
  cases e with
  | speedUp => exact he
  | _ => cases hout

/-- Settles O38: the gates of the hard reset pass; the state it ends in is the one that `Completes` gives. -/
theorem hresetRunsTheHardReset : Obligations.HresetRunsTheHardReset := by
  intro js s hidle hgates
  have hcompletes := hreset_completes hidle hgates
  refine ⟨hcompletes, ?_, gateStart_zero 11, ?_⟩
  · rw [List.length_append, gatedFrom_length]
    simp [hardResetHead, hardResetBodies, writeFrame, chunkFrame]
    omega
  · obtain ⟨_, _, u, hu, ⟨hpc, hbusy, hcs, hds, hrst, hr, _, _, _, ⟨more, htrace, hmore⟩, _⟩, hspeed, _⟩ := hcompletes
    refine ⟨u, hu, ⟨hpc, hbusy, hcs, hds, hrst, hr⟩, hspeed, hpc, ?_⟩
    rw [htrace]
    exact List.mem_append_right _ (speedUp_mem_of_hardReset hmore)

/-- Settles O39: a gate of either reset times out. -/
theorem resetStopsAtAWaitThatTimesOut : Obligations.ResetStopsAtAWaitThatTimesOut := by
  refine fun js s m k hidle hgates => ⟨fun hm => ?_, fun hm => ?_⟩
  · exact completes_of_stops hidle rfl (exec_of_start (i := .hreset) hidle rfl) (at_accepted hidle (registerKept_refl _))
      (hreset_head _) (hreset_leads _) hm hgates fun _ h => h
  · exact completes_of_stops hidle rfl (exec_of_start (i := .sreset) hidle rfl) (at_accepted hidle (registerKept_refl _))
      (quiet_refl _) (sreset_leads _) hm hgates fun _ h => h

end Sys2Proof.Machine
end

section
/-! SUPPORT. CANCEL as a sequence of gates (44_playback_cancel.md R107 to R115). -/

namespace Sys2Proof.Machine

/-! ## Registers -/

/-- What a CANCEL leaves, at every one of its lines. -/
def CancelKept (o u : State) : Prop := KeptBy .cancel o u ∧ u.speed = o.speed

/-- What the lines of a CANCEL find: what it leaves, the fill byte, the budget. -/
def CancelRegs (o : State) (x : Byte) (b : BitVec 12) (u : State) : Prop := CancelKept o u ∧ u.fill = x ∧ u.bud = b

/-- The budget after `M` rounds (R113). -/
def budgetAfter (M : Nat) : BitVec 12 := BitVec.ofNat 12 (2048 - 32 * M)

/-- What the test of line 10 finds after round `M`: the mode register as read (R111, R112). -/
def CancelTested (o : State) (x : Byte) (M : Nat) (u : State) : Prop :=
  CancelRegs o x (budgetAfter M) u ∧ u.tmp = o.replyAt (2062 + 36 * M) ++ o.replyAt (2063 + 36 * M)

/-- What the `done` of a CANCEL finds (R114, R115). -/
def CancelAnswered (o : State) (r : Half) (u : State) : Prop := CancelKept o u ∧ u.r = r

/-- Register frames write none of these registers. -/
theorem cancelRegs_frameStable (o : State) (x : Byte) (b : BitVec 12) : FrameStable (CancelRegs o x b) := by
  rintro s u ⟨⟨hfill, hbase, _, _, _, _, hbud, _⟩, hspeed⟩ ⟨⟨gbase, gspeed⟩, gfill, gbud⟩
  exact ⟨⟨hbase.trans gbase, hspeed.trans gspeed⟩, hfill.trans gfill, hbud.trans gbud⟩

/-- Nor do transfers. -/
theorem cancelRegs_transferStable (o : State) (x : Byte) (b : BitVec 12) : TransferStable (CancelRegs o x b) := by
  rintro s u ⟨⟨_, _, hfill, hbase, hbud, _⟩, hspeed⟩ ⟨⟨gbase, gspeed⟩, gfill, gbud⟩
  exact ⟨⟨hbase.trans gbase, hspeed.trans gspeed⟩, hfill.trans gfill, hbud.trans gbud⟩

/-- They are registers, as are those that the test and the `done` find. -/
theorem cancelRegs_ofRegisters (o : State) (x : Byte) (b : BitVec 12) : OfRegisters (CancelRegs o x b) :=
  (cancelRegs_frameStable o x b).ofRegisters

theorem cancelTested_ofRegisters (o : State) (x : Byte) (M : Nat) : OfRegisters (CancelTested o x M) := by
  intro s u hu hspeed hs
  exact ⟨cancelRegs_ofRegisters _ _ _ s u hu hspeed hs.1, (congrArg State.tmp hu).symm.trans hs.2⟩

theorem cancelAnswered_ofRegisters (o : State) (r : Half) : OfRegisters (CancelAnswered o r) := by
  rintro s u hu hspeed ⟨⟨hbase, hspeed'⟩, hr⟩
  exact ⟨⟨(congrArg State.base hu).symm.trans hbase, hspeed.trans hspeed'⟩, (congrArg State.r hu).symm.trans hr⟩

/-- The cancel bit of a mode register value stands in its low byte (R112). -/
theorem cancelClear_append (hi lo : Byte) : cancelClear (hi ++ lo) = !lo.getLsbD 3 := by
  rw [cancelClear, BitVec.getLsbD_append]
  rfl

/-- The budget is left as long as fewer than 64 rounds are over (R113). -/
theorem budgetAfter_pos {M : Nat} : 0 < budgetAfter M ↔ M < 64 := by
  change 0 < (2048 - 32 * M) % 2 ^ 12 ↔ M < 64
  omega

/-- A round takes 32 of the budget (R113). -/
theorem budgetAfter_succ {M : Nat} (h : M < 64) : budgetAfter M - BitVec.ofNat 12 chunkMax = budgetAfter (M + 1) := by
  apply BitVec.eq_of_toNat_eq
  simp only [budgetAfter, chunkMax, BitVec.toNat_sub, BitVec.toNat_ofNat]
  omega

/-! ## The parts -/

section
variable {o : State} {x : Byte} {b : BitVec 12} {n k j : Nat} {f : Frame} {fs : List Frame}

/-- A CANCEL's run that started at `o` stands at line `k`, place `j`. -/
abbrev CancelAt (o : State) (R : State → Prop) (n k j : Nat) : State → Prop := At o R n [⟨.cancel, k, j⟩]

/-- A line that reads a register and stores the value (R83, R107). -/
theorem cancel_read {R : State → Prop} (a : RegAddr) (l : Nat)
    (hl : ∀ s : State, s.cfg = o.cfg → lineOf ⟨.cancel, l, 0⟩ s = .call (.sciRead a) l 1) (hR : OfRegisters R)
    (hstore : ∀ s, CancelRegs o x b s → s.data = o.replyAt (n + 2) ++ o.replyAt (n + 3) →
      ∃ t, lineOf ⟨.cancel, l, 1⟩ s = .assign t k j ∧ t.speed = s.speed ∧ R t) :
    Leads (CancelKept o) (CancelAt o (CancelRegs o x b) n l 0) [readFrame a o.cfg.dummyByte] (CancelAt o R (n + 4) k j) :=
  ((quiet_call (cancelRegs_ofRegisters o x b) fun s hs => hl s hs.host.1).leads
    (sciRead_leads (cancelRegs_frameStable o x b) (fun _ h => h.1) a)).quiet
    (quiet_assign hR fun s hs => hstore s hs.regs.1 hs.regs.2)

/-- Lines 1 and 2: the fill byte fetched (R107, R108). -/
theorem cancel_fetch : Leads (CancelKept o) (CancelAt o (CancelRegs o o.fill o.bud) 0 1 0)
    [writeFrame 0x7 o.cfg.endfillAddr, readFrame 0x6 o.cfg.dummyByte]
    (CancelAt o (CancelRegs o (o.replyAt 7) o.bud) 8 3 0) := by
  have h1 : Leads (CancelKept o) (CancelAt o (CancelRegs o o.fill o.bud) 0 1 0) [writeFrame 0x7 o.cfg.endfillAddr]
      (CancelAt o (CancelRegs o o.fill o.bud) 4 2 0) :=
    (quiet_call (cancelRegs_ofRegisters o o.fill o.bud) fun s hs => hs.host.1 ▸ rfl).leads
      (sciWrite_leads (cancelRegs_frameStable o o.fill o.bud) (fun _ h => h.1) _ _)
  refine h1.seq (cancel_read regRamdata 2 (fun _ _ => rfl) (cancelRegs_ofRegisters o _ _) fun s hregs hdata => ?_)
  obtain ⟨hkept, _, hbud⟩ := hregs
  exact ⟨{ s with tmp := s.data, fill := loByte s.data }, rfl, rfl, hkept, hdata ▸ (bytes_of_value _ _).2, hbud⟩

/-- Line 3: the pre-fill (R109). -/
theorem cancel_prefill (hcfg : LCfg o) : Leads (CancelKept o) (CancelAt o (CancelRegs o x b) n 3 0)
    (streamBodies (List.replicate 2052 x)) (CancelAt o (CancelRegs o x b) (n + 2052) 4 0) :=
  (quiet_call (cancelRegs_ofRegisters o x b) fun _ _ => rfl).leads (stream_leads (cancelRegs_transferStable o x b)
    (fun _ h => h.1) .fill List.length_replicate (fun _ _ h => bytes_fill x h.2.1 2052) (half_fits 2052 hcfg))

/-- Lines 4 and 5: the request, the budget set (R110, R113). -/
theorem cancel_request : Leads (CancelKept o) (CancelAt o (CancelRegs o x b) n 4 0) [writeFrame 0x0 0x0808]
    (CancelAt o (CancelRegs o x (budgetAfter 0)) (n + 4) 6 0) :=
  ((quiet_call (cancelRegs_ofRegisters o x b) fun _ _ => rfl).leads
    (sciWrite_leads (cancelRegs_frameStable o x b) (fun _ h => h.1) _ _)).quiet
    (quiet_assign (cancelRegs_ofRegisters o x _) fun s hs => by
      obtain ⟨hkept, hfill, _⟩ := hs.regs
      exact ⟨{ s with bud := BitVec.ofNat 12 cancelBudget }, rfl, rfl, hkept, hfill, rfl⟩)

/-- One round of the loop, lines 6 to 9: a chunk, the budget, a read of the mode register (R111, R113). -/
theorem cancel_round {M : Nat} (hM : M < 64) :
    Leads (CancelKept o) (CancelAt o (CancelRegs o x (budgetAfter M)) (2064 + 36 * M) 6 0)
      [chunkFrame (List.replicate 32 x), readFrame 0x0 o.cfg.dummyByte]
      (CancelAt o (CancelTested o x (M + 1)) (2064 + 36 * (M + 1)) 10 0) := by
  have hregs := cancelRegs_ofRegisters o x (budgetAfter M)
  have hregs' := cancelRegs_ofRegisters o x (budgetAfter (M + 1))
  have h6 : Quiet (CancelAt o (CancelRegs o x (budgetAfter M)) (2064 + 36 * M) 6 0) []
      (CancelAt o (CancelRegs o x (budgetAfter M)) (2064 + 36 * M) 7 0) :=
    quiet_goto hregs fun s hs => by
      obtain ⟨_, _, hbud⟩ := hs.regs
      exact ⟨if_pos (hbud ▸ budgetAfter_pos.mpr hM), hs.regs⟩
  have h7 : Leads (CancelKept o) (CancelAt o (CancelRegs o x (budgetAfter M)) (2064 + 36 * M) 7 0)
      [chunkFrame (List.replicate 32 x)] (CancelAt o (CancelRegs o x (budgetAfter M)) (2064 + 36 * M + 32) 8 0) :=
    (quiet_call hregs fun s hs => rfl).leads (chunk_leads (cancelRegs_transferStable o x (budgetAfter M)) (fun _ h => h.1) .fill
      List.length_replicate (fun _ _ h => bytes_fill x h.2.1 32) (Nat.le_refl 32))
  have h8 : Quiet (CancelAt o (CancelRegs o x (budgetAfter M)) (2064 + 36 * M + 32) 8 0) []
      (CancelAt o (CancelRegs o x (budgetAfter (M + 1))) (2064 + 36 * M + 32) 9 0) :=
    quiet_assign hregs' fun s hs => by
      obtain ⟨hkept, hfill, hbud⟩ := hs.regs
      exact ⟨{ s with bud := s.bud - BitVec.ofNat 12 chunkMax }, rfl, rfl, hkept, hfill, hbud ▸ budgetAfter_succ hM⟩
  have h9 : Leads (CancelKept o) (CancelAt o (CancelRegs o x (budgetAfter (M + 1))) (2064 + 36 * M + 32) 9 0)
      [readFrame 0x0 o.cfg.dummyByte] (CancelAt o (CancelTested o x (M + 1)) (2064 + 36 * (M + 1)) 10 0) :=
    cancel_read regMode 9 (fun _ _ => rfl) (cancelTested_ofRegisters o x _) fun s hregs hdata => by
      rw [show 2064 + 36 * M + 32 + 2 = 2062 + 36 * (M + 1) by omega,
        show 2064 + 36 * M + 32 + 3 = 2063 + 36 * (M + 1) by omega] at hdata
      exact ⟨{ s with tmp := s.data }, rfl, rfl, hregs, hdata⟩
  exact (h6.leads h7).seq (h8.leads h9)

/-- Line 10 where the bit is set: the loop goes on (R112). -/
theorem cancel_again {M : Nat} (hset : (o.replyAt (2063 + 36 * M)).getLsbD 3 = true) :
    Quiet (CancelAt o (CancelTested o x M) n 10 0) [] (CancelAt o (CancelRegs o x (budgetAfter M)) n 6 0) :=
  quiet_goto (cancelRegs_ofRegisters o x _) fun s hs =>
    ⟨if_neg (by rw [hs.regs.2, cancelClear_append, hset]; simp), hs.regs.1⟩

/-- Line 10 where the bit is clear: the loop is left (R112). -/
theorem cancel_confirmed {M : Nat} (hclear : (o.replyAt (2063 + 36 * M)).getLsbD 3 = false) :
    Quiet (CancelAt o (CancelTested o x M) n 10 0) [] (CancelAt o (CancelRegs o x (budgetAfter M)) n 11 0) :=
  quiet_goto (cancelRegs_ofRegisters o x _) fun s hs =>
    ⟨if_pos (by rw [hs.regs.2, cancelClear_append, hclear]; rfl), hs.regs.1⟩

/-- Line 6 where the budget is used up: the loop is left (R113). -/
theorem cancel_exhausted :
    Quiet (CancelAt o (CancelRegs o x (budgetAfter 64)) n 6 0) [] (CancelAt o (CancelRegs o x (budgetAfter 64)) n 12 0) :=
  quiet_goto (cancelRegs_ofRegisters o x _) fun s hs => by
    obtain ⟨_, _, hbud⟩ := hs.regs
    exact ⟨if_neg (by rw [hbud, budgetAfter_pos]; exact Nat.lt_irrefl 64), hs.regs⟩

/-- The first `M` rounds, all of whose reads show the bit set (R111 to R113). -/
theorem cancel_rounds {M : Nat} (hM : M ≤ 64) (hset : CancelBitSet M o) :
    Leads (CancelKept o) (CancelAt o (CancelRegs o x (budgetAfter 0)) 2064 6 0) (cancelRounds M x o.cfg.dummyByte)
      (CancelAt o (CancelRegs o x (budgetAfter M)) (2064 + 36 * M) 6 0) := by
  induction M with
  | zero => exact leads_none
  | succ M ih =>
    have hrest := ih (Nat.le_of_succ_le hM) fun q hq hqM => hset q hq (Nat.le_succ_of_le hqM)
    have hround := (cancel_round (x := x) hM).quiet (cancel_again (hset (M + 1) M.succ_pos (Nat.le_refl _)))
    rw [cancelRounds, List.replicate_succ', List.flatten_append, List.flatten_singleton]
    exact hrest.seq hround

/-- `N` rounds up to the test of line 10, of whose reads all but the last show the bit set (R111 to R113). -/
theorem cancel_tested {N : Nat} (hN : 1 ≤ N) (hN64 : N ≤ 64) (hset : CancelBitSet (N - 1) o) :
    Leads (CancelKept o) (CancelAt o (CancelRegs o x (budgetAfter 0)) 2064 6 0) (cancelRounds N x o.cfg.dummyByte)
      (CancelAt o (CancelTested o x N) (2064 + 36 * N) 10 0) := by
  obtain ⟨M, rfl⟩ := Nat.exists_eq_add_of_le' hN
  rw [Nat.add_sub_cancel] at hset
  rw [cancelRounds, List.replicate_succ', List.flatten_append, List.flatten_singleton]
  exact (cancel_rounds (Nat.le_of_succ_le hN64) hset).seq (cancel_round hN64)

/-- The gates of a CANCEL of `N` rounds before the one of its result. -/
def cancelGates (N : Nat) (c : Config) (x : Byte) : List (List Event) :=
  [writeFrame 0x7 c.endfillAddr, readFrame 0x6 c.dummyByte] ++ streamBodies (List.replicate 2052 x) ++
    [writeFrame 0x0 0x0808] ++ cancelRounds N x c.dummyByte

/-- The last gate of a CANCEL is that of its result (R114). -/
theorem cancelBodies_eq (N : Nat) (c : Config) (x : Byte) :
    cancelBodies N c x = cancelGates N c x ++ [readFrame c.cancelResultAddr c.dummyByte] := rfl

/-- A CANCEL up to the test of its `N`-th read (R107 to R113). -/
theorem cancelGates_leads (hcfg : LCfg o) {N : Nat} (hN : 1 ≤ N) (hN64 : N ≤ 64) (hset : CancelBitSet (N - 1) o) :
    Leads (CancelKept o) (CancelAt o (CancelRegs o o.fill o.bud) 0 1 0) (cancelGates N o.cfg (o.replyAt 7))
      (CancelAt o (CancelTested o (o.replyAt 7) N) (2064 + 36 * N) 10 0) :=
  ((cancel_fetch.seq (cancel_prefill hcfg)).seq cancel_request).seq (cancel_tested hN hN64 hset)

/-- Line 11: the result read (R114). -/
theorem cancel_result : Leads (CancelKept o) (CancelAt o (CancelRegs o x b) n 11 0) [readFrame o.cfg.cancelResultAddr o.cfg.dummyByte]
    (CancelAt o (CancelAnswered o (o.replyAt (n + 2) ++ o.replyAt (n + 3))) (n + 4) 11 2) :=
  cancel_read o.cfg.cancelResultAddr 11 (fun _ hc => hc ▸ rfl) (cancelAnswered_ofRegisters o _) fun s hregs hdata =>
    ⟨{ s with r := s.data }, rfl, rfl, hregs.1, hdata⟩

/-- Line 12: the result read, the cancel unconfirmed (R115). -/
theorem cancel_result_unconfirmed :
    Leads (CancelKept o) (CancelAt o (CancelRegs o x b) n 12 0) [readFrame o.cfg.cancelResultAddr o.cfg.dummyByte]
      (CancelAt o (CancelAnswered o (o.replyAt (n + 2) ++ o.replyAt (n + 3))) (n + 4) 13 0) :=
  cancel_read o.cfg.cancelResultAddr 12 (fun _ hc => hc ▸ rfl) (cancelAnswered_ofRegisters o _) fun s hregs hdata =>
    ⟨{ s with r := s.data }, rfl, rfl, hregs.1, hdata⟩

/-- A CANCEL whose `N`-th read is the first to show the bit clear (R114). -/
theorem cancel_leads_confirmed (hcfg : LCfg o) {N : Nat} (hN64 : N ≤ 64) (henv : EnvCancel N o) :
    Leads (CancelKept o) (CancelAt o (CancelRegs o o.fill o.bud) 0 1 0) (cancelBodies N o.cfg (o.replyAt 7))
      (CancelAt o (CancelAnswered o (o.replyAt (2066 + 36 * N) ++ o.replyAt (2067 + 36 * N))) (2068 + 36 * N) 11 2) := by
  obtain ⟨hN, hset, hclear⟩ := henv
  have hresult := (cancel_confirmed (x := o.replyAt 7) (n := 2064 + 36 * N) hclear).leads cancel_result
  rw [cancelBodies_eq, show 2066 + 36 * N = 2064 + 36 * N + 2 by omega, show 2067 + 36 * N = 2064 + 36 * N + 3 by omega,
    show 2068 + 36 * N = 2064 + 36 * N + 4 by omega]
  exact (cancelGates_leads hcfg hN hN64 hset).seq hresult

/-- A CANCEL whose 64 reads all show the bit set (R115). -/
theorem cancel_leads_unconfirmed (hcfg : LCfg o) (hset : CancelBitSet 64 o) :
    Leads (CancelKept o) (CancelAt o (CancelRegs o o.fill o.bud) 0 1 0) (cancelBodies 64 o.cfg (o.replyAt 7))
      (CancelAt o (CancelAnswered o (o.replyAt 4370 ++ o.replyAt 4371)) 4372 13 0) := by
  have hgates := cancelGates_leads hcfg (N := 64) (by omega) (Nat.le_refl 64) fun q hq hq64 => hset q hq (by omega)
  have hresult := ((cancel_again (x := o.replyAt 7) (n := 4368) (hset 64 (by omega) (Nat.le_refl 64))).trans cancel_exhausted).leads
    cancel_result_unconfirmed
  rw [cancelBodies_eq]
  exact hgates.seq hresult

end

end Sys2Proof.Machine
end

section
/-! SUPPORT. How often an event stands in the trace of bodies behind gates (R74, R93, R116). -/

namespace Sys2Proof.Machine

/-! ## Gates -/

/-- Each gate takes one poll at least (R74). -/
theorem le_gateStart (js : Nat → Nat) (m : Nat) : m ≤ gateStart js m := by
  induction m with
  | zero => exact Nat.le_refl 0
  | succ m ih => exact Nat.succ_le_succ (ih.trans (Nat.le_add_right _ _))

/-- Events of a wait: its ready poll and its busy polls (R74). -/
theorem waitTrace_countP (p : Event → Bool) (j : Nat) :
    (waitTrace j).countP p = (if p (.poll true) then 1 else 0) + (if p (.poll false) then j else 0) := by
  rw [waitTrace, List.countP_append, List.countP_replicate, List.countP_singleton, Nat.add_comm]

/-- Events of bodies behind gates: those of the bodies, a ready poll for each gate, the busy polls. -/
theorem gatedFrom_countP (p : Event → Bool) (js : Nat → Nat) (bodies : List (List Event)) :
    (gatedFrom js 0 bodies).countP p = bodies.flatten.countP p + (if p (.poll true) then bodies.length else 0) +
      (if p (.poll false) then gateStart js bodies.length - bodies.length else 0) := by
  induction bodies generalizing js with
  | nil => simp [gatedFrom, gateStart]
  | cons b bs ih =>
    have hle := le_gateStart (fun g => js (1 + g)) bs.length
    have hstart : gateStart js (b :: bs).length = js 0 + 1 + gateStart (fun g => js (1 + g)) bs.length := by
      rw [List.length_cons, Nat.add_comm bs.length 1, gateStart_add]
      simp [gateStart]
    rw [gatedFrom_cons, List.countP_append, List.countP_append, waitTrace_countP, ih, hstart, List.flatten_cons,
      List.countP_append, List.length_cons]
    split <;> split <;> omega

/-! ## Frames -/

section
variable {p : Event → Bool} (hx : ∀ out inp, p (.xchg out inp) = p (.xchg 0 0))
include hx

/-- Events of a write frame (R53). -/
theorem writeFrame_countP (a : RegAddr) (v : Half) : (writeFrame a v).countP p =
    (if p .csOn then 1 else 0) + (if p .csOff then 1 else 0) + 4 * (if p (.xchg 0 0) then 1 else 0) := by
  simp only [writeFrame, List.countP_cons, List.countP_nil, hx]
  ring

/-- Events of a read frame (R54). -/
theorem readFrame_countP (a : RegAddr) (d : Byte) : (readFrame a d).countP p =
    (if p .csOn then 1 else 0) + (if p .csOff then 1 else 0) + 4 * (if p (.xchg 0 0) then 1 else 0) := by
  simp only [readFrame, List.countP_cons, List.countP_nil, hx]
  ring

/-- Events of a data frame (R55). -/
theorem chunkFrame_countP (xs : List Byte) : (chunkFrame xs).countP p =
    (if p .dsOn then 1 else 0) + (if p .dsOff then 1 else 0) + xs.length * (if p (.xchg 0 0) then 1 else 0) := by
  have hbytes : (xs.map fun x => Event.xchg x 0).countP p = xs.length * (if p (.xchg 0 0) then 1 else 0) := by
    induction xs with
    | nil => simp
    | cons x xs ih =>
      rw [List.map_cons, List.countP_cons, ih, hx x 0, List.length_cons]
      ring
  rw [chunkFrame, List.cons_append, List.countP_cons, List.countP_append, hbytes, List.countP_singleton]
  ring

/-- Events of a transfer (R89, R93). -/
theorem streamBodies_countP {c : Nat} (xs : List Byte) (hc : chunkCount xs.length = c) : (streamBodies xs).flatten.countP p =
    c * ((if p .dsOn then 1 else 0) + (if p .dsOff then 1 else 0)) + xs.length * (if p (.xchg 0 0) then 1 else 0) := by
  induction c generalizing xs with
  | zero => simp [eq_nil_of_chunkCount xs hc]
  | succ c ih =>
    have hpos : 0 < xs.length := Nat.pos_of_ne_zero fun h0 => by simp [h0, chunkCount] at hc
    have hrest : chunkCount (xs.drop 32).length = c := by
      rw [chunkCount_step xs.length hpos] at hc
      rw [List.length_drop]
      omega
    have hsplit : xs.length = (xs.take 32).length + (xs.drop 32).length := by rw [← List.length_append, List.take_append_drop]
    rw [streamBodies_step xs (List.ne_nil_of_length_pos hpos), List.flatten_cons, List.countP_append, chunkFrame_countP hx,
      ih _ hrest, hsplit]
    ring

/-- Events of a CANCEL of `N` rounds, but for the polls (R116). -/
theorem cancelBodies_countP (N : Nat) (c : Config) (x : Byte) : (cancelBodies N c x).flatten.countP p =
    (N + 4) * ((if p .csOn then 1 else 0) + (if p .csOff then 1 else 0)) +
      (N + 65) * ((if p .dsOn then 1 else 0) + (if p .dsOff then 1 else 0)) +
      (36 * N + 2068) * (if p (.xchg 0 0) then 1 else 0) := by
  have hrounds : (cancelRounds N x c.dummyByte).flatten.countP p = N * ((if p .csOn then 1 else 0) + (if p .csOff then 1 else 0) +
      ((if p .dsOn then 1 else 0) + (if p .dsOff then 1 else 0)) + 36 * (if p (.xchg 0 0) then 1 else 0)) := by
    induction N with
    | zero => simp [cancelRounds]
    | succ N ih =>
      rw [cancelRounds] at ih ⊢
      rw [List.replicate_succ, List.flatten_cons, List.flatten_append, List.countP_append, ih]
      simp only [List.flatten_cons, List.flatten_nil, List.append_nil, List.countP_append, chunkFrame_countP hx,
        readFrame_countP hx, List.length_replicate]
      ring
  have hstream := streamBodies_countP hx (c := 65) (List.replicate 2052 x) (by rw [List.length_replicate]; rfl)
  rw [List.length_replicate] at hstream
  simp only [cancelBodies, List.flatten_append, List.flatten_cons, List.flatten_nil, List.append_nil, List.countP_append,
    writeFrame_countP hx, readFrame_countP hx, hstream, hrounds]
  ring

end

/-- The gates of a CANCEL of `N` rounds (R116). -/
theorem cancelBodies_length (N : Nat) (c : Config) (x : Byte) : (cancelBodies N c x).length = 2 * N + 69 := by
  have hstream : (streamBodies (List.replicate 2052 x)).length = 65 :=
    streamBodies_length 65 _ (by rw [List.length_replicate]; rfl)
  have hrounds : (cancelRounds N x c.dummyByte).length = 2 * N := by
    simp [cancelRounds, List.length_flatten, Nat.mul_comm]
  rw [cancelBodies, List.length_append, List.length_append, List.length_append, List.length_append, hstream, hrounds]
  simp only [List.length_cons, List.length_nil]
  omega

end Sys2Proof.Machine
end

section
/-! The obligations of 44_playback_cancel.md. -/

namespace Sys2Proof.Machine

/-! ## O42, O43, O45 -/

/-- An accepted CANCEL stands at its line 1, the registers as they were. -/
theorem cancel_started {s : State} (hidle : LIdle s) : CancelAt (acceptedAs .cancel .cancel s)
    (CancelRegs (acceptedAs .cancel .cancel s) s.fill s.bud) 0 1 0 (acceptedAs .cancel .cancel s) :=
  at_accepted hidle ⟨⟨rfl, rfl⟩, rfl, rfl⟩

/-- A CANCEL whose gates all pass, where its run leads through them to its `done`. -/
theorem cancel_passes {s : State} {bodies : List (List Event)} {e : ErrorCode} {r : Half} {n k j : Nat} {js : Nat → Nat}
    (hidle : LIdle s)
    (hleads : Leads (CancelKept (acceptedAs .cancel .cancel s)) (CancelAt (acceptedAs .cancel .cancel s)
      (CancelRegs (acceptedAs .cancel .cancel s) s.fill s.bud) 0 1 0) bodies
      (CancelAt (acceptedAs .cancel .cancel s) (CancelAnswered (acceptedAs .cancel .cancel s) r) n k j))
    (hdone : ∀ u : State, lineOf ⟨.cancel, k, j⟩ u = .done e u.r) (hgates : GatesPass bodies.length js s) :
    Completes .cancel .cancel s e.code r (gatedFrom js 0 bodies) s.speed :=
  completes_of_passes hidle rfl (exec_of_start (i := .cancel) hidle rfl) (cancel_started hidle) (quiet_refl _) hleads hgates
    fun u hu => ⟨hu.reset, ⟨_, hu.pc, hu.regs.2 ▸ hdone u⟩, hu.regs.1⟩

/-- A CANCEL of whose gates one times out, where its run leads through them all. -/
theorem cancel_stops {s : State} {bodies : List (List Event)} {Q : State → Prop} {js : Nat → Nat} {m k : Nat} (hidle : LIdle s)
    (hleads : Leads (CancelKept (acceptedAs .cancel .cancel s)) (CancelAt (acceptedAs .cancel .cancel s)
      (CancelRegs (acceptedAs .cancel .cancel s) s.fill s.bud) 0 1 0) bodies Q)
    (hm : m < bodies.length) (hgates : GateTimesOut m k js s) :
    Completes .cancel .cancel s 2 0 (stoppedAt m k js bodies) s.speed :=
  completes_of_stops hidle rfl (exec_of_start (i := .cancel) hidle rfl) (cancel_started hidle) (quiet_refl _) hleads hm hgates
    fun _ h => h

/-- Settles O42: the gates pass, and the `N`-th read is the first to show the bit clear. -/
theorem cancelConfirmedAtTheNthRead : Obligations.CancelConfirmedAtTheNthRead := by
  intro js s N hidle hcfg hN64 hgates henv
  have hleads := cancel_leads_confirmed (o := acceptedAs .cancel .cancel s) hcfg hN64 henv
  refine cancel_passes hidle hleads (fun _ => rfl) ?_
  rwa [cancelBodies_length]

/-- Settles O43: the gates pass, and all 64 reads show the bit set. -/
theorem cancelUnconfirmedAfterTheBudget : Obligations.CancelUnconfirmedAfterTheBudget := by
  intro js s hidle hcfg hgates hset
  have hleads := cancel_leads_unconfirmed (o := acceptedAs .cancel .cancel s) hcfg hset
  refine cancel_passes hidle hleads (fun _ => rfl) ?_
  rwa [cancelBodies_length]

/-- Settles O45: the gates before the result's are passed whatever the last read shows; the result's gate stands behind a read that
shows the bit clear or behind the 64th. -/
theorem cancelStopsAtAWaitThatTimesOut : Obligations.CancelStopsAtAWaitThatTimesOut := by
  intro js s N m k hidle hcfg hN hN64 hset hm hlast hgates
  let o := acceptedAs .cancel .cancel s
  rcases Nat.lt_or_ge m (2 * N + 68) with hlt | hge
  · have hlen := cancelBodies_length N s.cfg (s.replyAt 7)
    rw [cancelBodies_eq, List.length_append, List.length_singleton, Nat.succ_inj] at hlen
    have hstop := cancel_stops hidle (cancelGates_leads (o := o) hcfg hN hN64 hset) (hlen.symm ▸ hlt) hgates
    rw [cancelBodies_eq, stoppedAt, List.take_append_of_le_length (hlen ▸ hlt.le)]
    exact hstop
  · obtain rfl : m = 2 * N + 68 := by omega
    rw [← cancelBodies_length N s.cfg (s.replyAt 7)] at hm
    cases hbit : (s.replyAt (2063 + 36 * N)).getLsbD 3 with
    | false => exact cancel_stops hidle (cancel_leads_confirmed (o := o) hcfg hN64 ⟨hN, hset, hbit⟩) hm hgates
    | true =>
      obtain rfl : N = 64 := (hlast rfl).resolve_right (by simp [hbit])
      have hall : CancelBitSet 64 o := fun q hq hq64 => by
        obtain h | rfl := Nat.le_succ_iff.mp hq64
        · exact hset q hq h
        · exact hbit
      exact cancel_stops hidle (cancel_leads_unconfirmed (o := o) hcfg hall) hm hgates

/-! ## O44 -/

/-- Settles O44: the counts of `cancelBodies_countP` with the polls of its gates. -/
theorem cancelTotals : Obligations.CancelTotals := by
  intro N js c x
  have hlen := cancelBodies_length N c x
  have hle := le_gateStart js (2 * N + 69)
  have hlength (js : Nat → Nat) :
      (gatedFrom js 0 (cancelBodies N c x)).length = 40 * N + 2206 + gateStart js (2 * N + 69) := by
    rw [gatedFrom_length, hlen, ← List.countP_true, cancelBodies_countP fun _ _ => rfl]
    simp only [if_true]
    omega
  refine ⟨hlen, ?_, hlength js, ?_, ?_, ?_, ?_, ?_⟩
  · rw [hlength, gateStart_zero]
    omega
  all_goals rw [gatedFrom_countP, hlen, cancelBodies_countP (by simp)]
  · simp
  · simp
    omega
  · simp
  · simp [Nat.add_comm]
  · simp

end Sys2Proof.Machine
end

section
/-! SUPPORT. A command of one gate (40_line_and_gate.md R74, R75); the words of WRREG and RDREG, legal and illegal (30_encoding.md R60,
R61); WRREG and RDREG as one gate (41_register_protocol.md R84, R85); that no line stands in a broken trace (R86, R148 to R150). -/

namespace Sys2Proof.Machine

/-! ## A command of one gate -/

/-- A wait that ends well is one gate that passes. -/
theorem gatesPass_one {j : Nat} {s : State} (h : ReadyAfter j s) : GatesPass 1 (fun _ => j) s := by
  obtain ⟨hbusy, hready, hlimit⟩ := h
  refine ⟨fun g hg => ?_, fun _ _ => hlimit⟩
  obtain rfl : g = 0 := Nat.lt_one_iff.mp hg
  simpa [gateStart] using And.intro hbusy hready

/-- A wait that times out is a gate that times out, none passed before it. -/
theorem gateTimesOut_zero {k : Nat} {js : Nat → Nat} {s : State} (h : TimesOut k s) : GateTimesOut 0 k js s := by
  obtain ⟨hlimit, hpos, hbusy⟩ := h
  exact ⟨hlimit, hpos, ⟨nofun, nofun⟩, by simpa [gateStart] using hbusy⟩

/-- A command of one gate: it sends its frame behind the wait and answers, or the wait times out (R130). -/
theorem completes_of_one_gate {i : Instr} {p : Proc} {s : State} {H P Q : State → Prop} {b : List Event} {e : ErrorCode} {r : Half}
    (hidle : LIdle s) (hcp : commandProc i = some p) (hx : exec i s = .next (acceptedAs i p s))
    (hstart : P (acceptedAs i p s)) (hleads : Leads H P [b] Q)
    (hdone : ∀ u, Q u → u.resetIn = false ∧ (∃ f, u.pc = [f] ∧ lineOf f u = .done e r) ∧ KeptBy p s u ∧ u.speed = s.speed)
    (hhalted : ∀ u, H u → KeptBy p s u ∧ u.speed = s.speed) :
    (∀ j, ReadyAfter j s → Completes i p s e.code r (waitTrace j ++ b) s.speed) ∧
    (∀ k, TimesOut k s → Completes i p s 2 0 (List.replicate k (.poll false)) s.speed) := by
  refine ⟨fun j hj => ?_, fun k hk => ?_⟩
  · simpa [gatedFrom] using
      completes_of_passes hidle hcp hx hstart (quiet_refl P) hleads (gatesPass_one hj) hdone
  · simpa [stoppedAt, gatedFrom] using
      completes_of_stops hidle hcp hx hstart (quiet_refl P) hleads Nat.one_pos (gateTimesOut_zero (js := fun _ => 0) hk) hhalted

/-! ## Command words -/

/-- A word with an operation's `op` byte and operand fields that it does not take is illegal (R61). -/
theorem illegal_of_operands {o : CommandOp} {a : Byte} {v : BitVec 16} (h : commandOperands o a v = none) :
    Illegal (packCommand o.byte a v) :=
  ⟨.reservedBits o.byte, by simp [decode, decodeCommand, commandOp_byte, h]⟩

/-- A command word with a register address in its `a` field: four bits 0, then the address (R56, R58). -/
theorem packCommand_addressByte (op : Byte) (a : RegAddr) (v : BitVec 16) :
    packCommand op (addressByte a) v = (op ++ 0#4) ++ a ++ v :=
  congrArg (· ++ v) (BitVec.append_assoc (x₁ := op) (x₂ := 0#4) (x₃ := a)).symm

/-! ## WRREG and RDREG -/

/-- `R` holds the value `r` to be answered; what no register frame writes is as in `o`. -/
def RegisterAnswered (o : State) (r : Half) (u : State) : Prop := RegisterKept o u ∧ u.r = r

/-- An answer waiting in `R` is a matter of registers. -/
theorem registerAnswered_ofRegisters (o : State) (r : Half) : OfRegisters (RegisterAnswered o r) := by
  intro s u hu hspeed hs
  exact ⟨(registerKept_stable o).ofRegisters s u hu hspeed hs.1, (congrArg State.r hu).symm.trans hs.2⟩

section
variable (a : RegAddr) (v : Half) {o : State}

/-- WRREG (R84) is one register write. -/
theorem wrreg_leads (hcmd : o.cmd = commandWord (.wrreg a v)) :
    Leads (RegisterKept o) (At o (RegisterKept o) 0 [⟨.wrreg, 1, 0⟩]) [writeFrame a v]
      (At o (RegisterKept o) 4 [⟨.wrreg, 2, 0⟩]) := by
  refine (quiet_call (registerKept_stable o).ofRegisters fun u hu => ?_).leads
    (sciWrite_leads (registerKept_stable o) (fun _ h => h) a v)
  obtain ⟨_, _, _, hcmd', _⟩ := hu.host
  simp [lineOf, wrregLine, cmdAddr, cmdV, hcmd', hcmd, commandWord]

/-- RDREG (R85) is one register read, whose value it keeps for the answer. -/
theorem rdreg_leads (hcmd : o.cmd = commandWord (.rdreg a)) :
    Leads (RegisterKept o) (At o (RegisterKept o) 0 [⟨.rdreg, 1, 0⟩]) [readFrame a o.cfg.dummyByte]
      (At o (RegisterAnswered o (o.replyAt 2 ++ o.replyAt 3)) 4 [⟨.rdreg, 2, 0⟩]) := by
  refine ((quiet_call (k := 1) (j := 1) (registerKept_stable o).ofRegisters fun u hu => ?_).leads
    (sciRead_leads (registerKept_stable o) (fun _ h => h) a)).quiet
    (quiet_assign (registerAnswered_ofRegisters o _) fun u hu => ?_)
  · obtain ⟨_, _, _, hcmd', _⟩ := hu.host
    simp [lineOf, rdregLine, cmdAddr, hcmd', hcmd, commandWord]
  · obtain ⟨hkept, hdata⟩ := hu.regs
    exact ⟨{ u with r := u.data }, rfl, rfl, hkept, hdata⟩

end

/-! ## No broken trace

Each line of a procedure names the phase that it finds, and never the broken one. -/

@[simp] theorem not_phaseSciWrite_broken (k : Nat) : ¬ phaseSciWrite k .broken := by
  unfold phaseSciWrite
  split_ifs <;> nofun

@[simp] theorem not_phaseSciRead_broken (k : Nat) : ¬ phaseSciRead k .broken := by
  unfold phaseSciRead
  split_ifs <;> nofun

@[simp] theorem not_phaseChunk_broken (n k : Nat) (s : State) : ¬ phaseChunk n k s .broken := by
  unfold phaseChunk
  split_ifs <;> nofun

@[simp] theorem not_phaseHardReset_broken (k : Nat) : ¬ phaseHardReset k .broken := by
  unfold phaseHardReset
  split_ifs <;> nofun

@[simp] theorem not_phaseSoftReset_broken (k j : Nat) : ¬ phaseSoftReset k j .broken := by
  unfold phaseSoftReset
  split_ifs <;> nofun

/-- No line of a procedure finds a broken trace. -/
theorem framePhase_ne_broken {f : Frame} {s : State} (h : FramePhase f s) : phaseOf s.trace ≠ .broken := by
  intro hbroken
  obtain ⟨p, k, j⟩ := f
  cases p with
  | waitReady | sciWrite | sciRead | chunk | hardReset | softReset | stream => simp [hbroken, Phase.isFree] at h
  | wrreg | rdreg | wrdata | wrchunk | fill | hreset | sreset | cancel | verq | flowrd | waitrdy =>
    rw [framePhase_command rfl, hbroken] at h
    cases h

/-- No state of the invariant has a broken trace. -/
theorem WireInv.ne_broken {s : State} (h : WireInv s) : phaseOf s.trace ≠ .broken := by
  obtain ⟨_, hphase, _⟩ := h
  cases hp : s.pc with
  | nil =>
    intro hbroken
    simp [phaseAt_idle hp, hbroken, Phase.isFree] at hphase
  | cons f fs => exact framePhase_ne_broken ((phaseAt_cons hp).mp hphase)

end Sys2Proof.Machine
end

section
/-! The obligations of 41_register_protocol.md. -/

namespace Sys2Proof.Machine

/-! ## O28, O29 -/

/-- Settles O28: the command is one gate with the write frame behind it. -/
theorem wrregSendsOneWriteFrame : Obligations.WrregSendsOneWriteFrame := by
  refine ⟨fun a v s hidle => ?_, fun a v => packCommand_addressByte 0x02 a v, fun x v hx => ?_⟩
  · exact completes_of_one_gate (e := .ok) hidle rfl (exec_of_start (i := .wrreg a v) hidle rfl)
      (at_accepted hidle (registerKept_refl _)) (wrreg_leads a v rfl)
      (fun u hu => ⟨hu.reset, ⟨_, hu.pc, rfl⟩, hu.regs⟩) fun _ h => h
  · exact illegal_of_operands (o := .wrreg) (if_neg hx)

/-- Settles O29: the command is one gate with the read frame behind it, and its `done` answers the value that the frame read. -/
theorem rdregReturnsTheValueRead : Obligations.RdregReturnsTheValueRead := by
  refine ⟨fun a s hidle => ?_, fun a => packCommand_addressByte 0x03 a 0, fun x v hx => ?_⟩
  · refine completes_of_one_gate (e := .ok) hidle rfl (exec_of_start (i := .rdreg a) hidle rfl)
      (at_accepted hidle (registerKept_refl _)) (rdreg_leads a rfl) (fun u hu => ?_) fun _ h => h
    obtain ⟨hkept, hr⟩ := hu.regs
    exact ⟨hu.reset, ⟨_, hu.pc, congrArg (Act.done .ok) hr⟩, hkept⟩
  · exact illegal_of_operands (o := .rdreg) (if_neg (not_and_or.mpr hx))

/-! ## O52 -/

/-- Settles O52: the invariant of the wire along the run, and what it says of the trace. -/
theorem noRunBreaksTheShapeOfTheTrace : Obligations.NoRunBreaksTheShapeOfTheTrace := by
  intro s u hinv h
  have hwire : WireInv u := reaches_keeps everyStepKeepsTheShapeOfTheTrace hinv h
  have ⟨_, hphase, _⟩ := hwire
  exact ⟨hwire.ne_broken, fun hp => (phaseAt_idle hp).mp hphase⟩

end Sys2Proof.Machine
end

section
/-! SUPPORT. The split of a transfer, chunk by chunk (42_streaming_protocol.md R93); `Chunk` with the registers of `Stream` as they
were, and WRCHUNK as one gate (R88, R90); FILL of length 0 (R94). -/

namespace Sys2Proof.Machine

/-! ## The split of a transfer -/

/-- No byte, no chunk (R94). -/
theorem splitChunks_nil (fuel : Nat) : splitChunks fuel [] = [] := by cases fuel <;> rfl

/-- The chunks are the bytes in order, where the fuel is at least the number of bytes. -/
theorem splitChunks_flatten (fuel : Nat) (xs : List Byte) (h : xs.length ≤ fuel) : (splitChunks fuel xs).flatten = xs := by
  fun_induction splitChunks fuel xs with
  | case1 xs => exact (List.eq_nil_of_length_eq_zero (Nat.le_zero.mp h)).symm
  | case2 => rfl
  | case3 k x rest ih =>
    have hrest : ((x :: rest).drop 32).length ≤ k := by
      simp only [List.length_drop, List.length_cons] at h ⊢
      omega
    rw [List.flatten_cons, ih hrest, List.take_append_drop]

/-- Every chunk holds 1 to 32 bytes. -/
theorem length_of_mem_splitChunks (fuel : Nat) (xs : List Byte) :
    ∀ c ∈ splitChunks fuel xs, 1 ≤ c.length ∧ c.length ≤ 32 := by
  fun_induction splitChunks fuel xs with
  | case1 => exact nofun
  | case2 => exact nofun
  | case3 k x rest ih =>
    refine List.forall_mem_cons.mpr ⟨?_, ih⟩
    simp only [List.length_take, List.length_cons]
    omega

/-- A chunk that another one follows is full: bytes were left when it was taken. -/
theorem length_of_mem_dropLast_splitChunks (fuel : Nat) (xs : List Byte) :
    ∀ c ∈ (splitChunks fuel xs).dropLast, c.length = 32 := by
  fun_induction splitChunks fuel xs with
  | case1 => exact nofun
  | case2 => exact nofun
  | case3 k x rest ih =>
    by_cases hlast : splitChunks k ((x :: rest).drop 32) = []
    · rw [hlast]
      exact nofun
    · have hleft : 32 < (x :: rest).length := by
        by_contra hle
        rw [List.drop_of_length_le (Nat.le_of_not_lt hle), splitChunks_nil] at hlast
        exact hlast rfl
      rw [List.dropLast_cons_of_ne_nil hlast]
      exact List.forall_mem_cons.mpr ⟨List.length_take_of_le hleft.le, ih⟩

/-! ## `Chunk` outside a `Stream` -/

/-- What no line of `Chunk` writes, the registers of `Stream` among it, the same in `u` as in `s`. -/
def ChunkKept (s u : State) : Prop := TransferKept s u ∧ u.rem = s.rem ∧ u.off = s.off

/-- A state's own registers are kept in it. -/
theorem chunkKept_refl (s : State) : ChunkKept s s := ⟨transferKept_refl s, rfl, rfl⟩

/-- What is kept stays so from part to part. -/
theorem ChunkKept.trans {s t u : State} (h : ChunkKept s t) (h' : ChunkKept t u) : ChunkKept s u := by
  obtain ⟨hkept, hrem, hoff⟩ := h
  obtain ⟨hkept', hrem', hoff'⟩ := h'
  exact ⟨transferKept_stable s t u hkept' hkept, hrem'.trans hrem, hoff'.trans hoff⟩

/-- What no line of `Chunk` writes is a matter of registers. -/
theorem chunkKept_ofRegisters (o : State) : OfRegisters (ChunkKept o) := by
  intro s u hu hspeed ⟨hkept, hrem, hoff⟩
  refine ⟨(transferKept_stable o).ofRegisters s u hu hspeed hkept, ?_, ?_⟩
  · rw [← hu]
    exact hrem
  · rw [← hu]
    exact hoff

section
variable {o t : State} {n len : Nat} {fs : List Frame}

/-- Lines 1 and 2 of `Chunk` (R88): the counters written, the wait called. -/
theorem chunk_called (g : Source) : Quiet (At o (ChunkKept t) n (⟨.chunk g len, 1, 0⟩ :: fs)) []
    (At o (ChunkKept t) n (⟨.waitReady, 1, 0⟩ :: ⟨.chunk g len, 3, 0⟩ :: fs)) :=
  (quiet_assign (chunkKept_ofRegisters t) fun s hs => ⟨{ s with n := BitVec.ofNat 6 len, i := 0 }, rfl, rfl, hs.regs⟩).trans
    (quiet_call (chunkKept_ofRegisters t) fun _ _ => rfl)

/-- `Chunk` (R88) leaves the registers of `Stream`, also where its wait times out. -/
theorem chunk_leads_kept (g : Source) {xs : List Byte} (hlen : xs.length = len) (hmax : len ≤ 32)
    (hb : ∀ s, HostKept o s → ChunkKept t s → Bytes g 0 xs s) :
    Leads (ChunkKept t) (At o (ChunkKept t) n (⟨.chunk g len, 1, 0⟩ :: fs)) [chunkFrame xs]
      (At o (ChunkKept t) (n + len) fs) := by
  refine leads_one (fun s j hs hj => ?_) fun s k hs hk => ?_
  · subst hlen
    obtain ⟨u, hu, hpc, hsent, hoff, hrem, _, hkeeps⟩ :=
      chunk_sent g xs j s fs hs.pc hs.reset hs.selects.2 hj (hb s hs.host hs.regs) hmax
    exact ⟨u, hu, hsent.advanced, hsent.at hs hpc (hs.regs.trans ⟨hsent.transferKept hkeeps, hrem, hoff⟩)⟩
  · obtain ⟨v, hv, hadv, hat⟩ := chunk_called g s hs
    obtain ⟨hcs, hds⟩ := hat.selects
    have hkv : TimesOut k v := ((gateTimesOut_zero (js := fun _ => 0) hk).after_quiet hadv).now
    obtain ⟨u, hu, hhalted, ⟨hrem, hoff, _⟩, hkeeps⟩ := waitReady_halted k v _ hat.pc hat.reset hcs hds hkv
    exact ⟨u, hv.trans hu, hadv.concluded hhalted.concluded, hat.regs.trans ⟨hhalted.transferKept hkeeps, hrem, hoff⟩⟩

end

/-! ## WRCHUNK -/

/-- `CMD.v` of a WRCHUNK is its length (R59). -/
theorem cmdV_wrchunk {n : BitVec 16} {u : State} (h : u.cmd = commandWord (.wrchunk n)) : cmdV u = n := by
  simp [cmdV, h, commandWord]

section
variable {n : BitVec 16} {xs : List Byte} {s : State} (hmax : n.toNat ≤ 32) (hlen : xs.length = n.toNat)
  (hbuf : BufferHolds xs s)
include hmax hlen hbuf

/-- An idle block accepts WRCHUNK of at most 32 bytes where the buffer holds them (R163). -/
theorem wrchunk_accepted (hb : s.busy = false) : exec (.wrchunk n) s = .next (acceptedAs (.wrchunk n) .wrchunk s) := by
  obtain ⟨hspace, hbytes⟩ := hbuf
  rw [exec_wrchunk_of_le hmax, ← hlen]
  exact (startTransfer_next_iff hb).mpr ⟨⟨hspace, fun j hj => by rw [hbytes j hj]; rfl⟩, rfl⟩

/-- WRCHUNK (R90) of at most 32 bytes: the base latched, then one chunk out of the host buffer. -/
theorem wrchunk_leads :
    Leads (ChunkKept { s with base := s.bufBase }) (At (acceptedAs (.wrchunk n) .wrchunk s) (ChunkKept s) 0 [⟨.wrchunk, 1, 0⟩])
      [chunkFrame xs]
      (At (acceptedAs (.wrchunk n) .wrchunk s) (ChunkKept { s with base := s.bufBase }) (0 + n.toNat) [⟨.wrchunk, 4, 0⟩]) := by
  have hlength (u : State) (hhost : HostKept (acceptedAs (.wrchunk n) .wrchunk s) u) : cmdV u = n := by
    obtain ⟨_, _, _, hcmd, _⟩ := hhost
    exact cmdV_wrchunk hcmd
  have hbytes (u : State) (hhost : HostKept (acceptedAs (.wrchunk n) .wrchunk s) u)
      (hR : ChunkKept { s with base := s.bufBase } u) : Bytes (.buffer 0) 0 xs u := by
    intro m hm
    obtain ⟨⟨⟨_, _, _, hbase, _⟩, _⟩, _⟩ := hR
    obtain ⟨_, hhostbuf, _⟩ := hhost
    rw [Nat.zero_add, sourceByte, hbase, hhostbuf]
    exact hbuf.2 m hm
  have htest : Quiet (At (acceptedAs (.wrchunk n) .wrchunk s) (ChunkKept s) 0 [⟨.wrchunk, 1, 0⟩]) []
      (At (acceptedAs (.wrchunk n) .wrchunk s) (ChunkKept s) 0 [⟨.wrchunk, 2, 0⟩]) :=
    quiet_goto (chunkKept_ofRegisters s) fun u hu =>
      ⟨if_neg (by rw [hlength u hu.host]; exact Nat.not_lt_of_le hmax), hu.regs⟩
  refine htest.leads
    ((quiet_assign (chunkKept_ofRegisters _) fun u hu => ⟨{ u with base := u.bufBase }, rfl, rfl, ?_⟩).leads
      ((quiet_call (chunkKept_ofRegisters _) fun u hu => ?_).leads (chunk_leads_kept (.buffer 0) hlen hmax hbytes)))
  · obtain ⟨⟨⟨haddr, hdata, hfill, _, hbud, htmp⟩, hspeed⟩, hrem, hoff⟩ := hu.regs
    obtain ⟨_, _, _, _, hbase, _⟩ := hu.host
    exact ⟨⟨⟨haddr, hdata, hfill, hbase, hbud, htmp⟩, hspeed⟩, hrem, hoff⟩
  · exact congrArg (fun v : BitVec 16 => Act.call (.chunk (.buffer 0) v.toNat) 4 0) (hlength u hu.host)

end

/-- What WRCHUNK leaves. -/
theorem keptBy_wrchunk {s u : State} (h : ChunkKept { s with base := s.bufBase } u) :
    KeptBy .wrchunk s u ∧ u.speed = s.speed := by
  obtain ⟨⟨⟨haddr, hdata, hfill, _, hbud, htmp⟩, hspeed⟩, hrem, hoff⟩ := h
  exact ⟨⟨haddr, hdata, hfill, hrem, hoff, hbud, htmp⟩, hspeed⟩

/-- WRCHUNK of at most 32 bytes that the buffer holds is a command of one gate (R90). -/
theorem wrchunk_completes {n : BitVec 16} {xs : List Byte} {s : State} (hidle : LIdle s) (hmax : n.toNat ≤ 32)
    (hlen : xs.length = n.toNat) (hbuf : BufferHolds xs s) :
    (∀ j, ReadyAfter j s → Completes (.wrchunk n) .wrchunk s 0 0 (waitTrace j ++ chunkFrame xs) s.speed) ∧
    (∀ k, TimesOut k s → Completes (.wrchunk n) .wrchunk s 2 0 (List.replicate k (.poll false)) s.speed) :=
  completes_of_one_gate (e := .ok) hidle rfl (wrchunk_accepted hmax hlen hbuf hidle.2.1)
    (at_accepted hidle (chunkKept_refl _)) (wrchunk_leads hmax hlen hbuf)
    (fun _ hu => ⟨hu.reset, ⟨_, hu.pc, rfl⟩, keptBy_wrchunk hu.regs⟩) fun _ => keptBy_wrchunk

/-- WRCHUNK of more than 32 bytes ends at its first line (R90, R95). -/
theorem wrchunk_oversize {n : BitVec 16} {s : State} (hidle : LIdle s) (hmax : 32 < n.toNat) :
    Completes (.wrchunk n) .wrchunk s 1 0 [] s.speed := by
  have ⟨_, hb, hcs, hds, _, hr⟩ := hidle
  have hx : exec (.wrchunk n) s = .next (acceptedAs (.wrchunk n) .wrchunk s) :=
    (if_pos hmax).trans ((start_next_iff hb).mpr rfl)
  have hline : lineOf ⟨.wrchunk, 1, 0⟩ (acceptedAs (.wrchunk n) .wrchunk s) = .raise .oversize 0 :=
    if_pos (by rw [cmdV_wrchunk rfl]; exact hmax)
  have hraise : raiseError .oversize 0 (acceptedAs (.wrchunk n) .wrchunk s) =
      finish .oversize 0 (acceptedAs (.wrchunk n) .wrchunk s) := raiseError_lines_down _ _ _ hcs hds
  have hstep : step (acceptedAs (.wrchunk n) .wrchunk s) = .next (finish .oversize 0 (acceptedAs (.wrchunk n) .wrchunk s)) := by
    rw [step_line (acceptedAs (.wrchunk n) .wrchunk s) _ [] hr rfl, runLine, hline, runAct, perform, hraise]
  exact completes_of_concluded hidle rfl hx (.one hstep) (finish_concluded .oversize 0 _)
    ⟨rfl, rfl, rfl, rfl, rfl, rfl, rfl⟩ rfl

/-! ## Zero lengths -/

/-- A buffer of no byte holds it wherever it begins (R37). -/
theorem bufferHolds_nil {s : State} (hfit : OperandsFit s) : BufferHolds [] s := ⟨hfit.1.le, nofun⟩

/-- The working registers that FILL does not write, and SPEED, the same in `u` as in `s`. -/
def FillKept (s u : State) : Prop := KeptBy .fill s u ∧ u.speed = s.speed

/-- What FILL does not write no transfer writes. -/
theorem fillKept_stable (o : State) : TransferStable (FillKept o) := by
  rintro s u ⟨⟨haddr, hdata, _, hbase, hbud, htmp⟩, hspeed⟩ ⟨⟨haddr', hdata', hbase', hbud', htmp'⟩, hspeed'⟩
  exact ⟨⟨haddr.trans haddr', hdata.trans hdata', hbase.trans hbase', hbud.trans hbud', htmp.trans htmp'⟩, hspeed.trans hspeed'⟩

/-- FILL of length 0 comes to its `done` with no gate, whatever `LEN_W` (R92, R94). -/
theorem fill_zero_leads (x : Byte) (s : State) :
    Leads (FillKept s) (At (acceptedAs (.fill x 0) .fill s) (FillKept s) 0 [⟨.fill, 1, 0⟩]) []
      (At (acceptedAs (.fill x 0) .fill s) (FillKept s) 0 [⟨.fill, 3, 0⟩]) := by
  have hstable := fillKept_stable s
  refine (quiet_assign hstable.ofRegisters fun u hu => ⟨{ u with fill := cmdA u }, rfl, rfl, hu.regs⟩).leads
    ((quiet_call hstable.ofRegisters fun u hu => ?_).leads
      (stream_leads hstable (fun _ h => h) .fill (xs := []) rfl (fun _ _ _ => nofun) (Nat.two_pow_pos _)))
  obtain ⟨_, _, _, hcmd, _⟩ := hu.host
  simp [lineOf, fillLine, cmdV, hcmd, acceptedAs, commandWord]

/-- Before no gate nothing has to pass. -/
theorem gatesPass_zero (s : State) : GatesPass 0 (fun _ => 0) s := ⟨nofun, nofun⟩

end Sys2Proof.Machine
end

section
/-! The obligations of 42_streaming_protocol.md about WRCHUNK, zero lengths and the split. -/

namespace Sys2Proof.Machine

/-! ## O30 -/

/-- Settles O30: up to 32 bytes the command is one gate with the data frame behind it; a longer one ends at its first line. -/
theorem wrchunkSendsOneChunk : Obligations.WrchunkSendsOneChunk :=
  ⟨fun _ _ _ hidle hmax hlen hbuf => wrchunk_completes hidle hmax hlen hbuf, fun _ _ => wrchunk_oversize, fun _ => rfl,
    fun _ _ hx => illegal_of_operands (o := .wrchunk) (if_neg hx)⟩

/-! ## O35 -/

/-- Settles O35: a stream of no byte has no gate, a chunk of no byte has one and the empty frame behind it. -/
theorem zeroLengthTransfers : Obligations.ZeroLengthTransfers := by
  intro s hidle
  refine ⟨fun hfit hlen => ?_, fun x => ?_, fun j hfit hj => ?_⟩
  · have hbuf := bufferHolds_nil hfit
    exact completes_of_passes (e := .ok) hidle rfl (wrdata_accepted hbuf hidle.2.1 hlen.symm)
      (at_accepted hidle (transferKept_refl _)) (quiet_refl _) (wrdata_leads hbuf hlen.symm hfit) (gatesPass_zero s)
      fun u hu => ⟨hu.reset, ⟨_, hu.pc, rfl⟩, keptBy_wrdata hu.regs⟩
  · exact completes_of_passes (e := .ok) hidle rfl (exec_of_start (i := .fill x 0) hidle rfl)
      (at_accepted hidle ⟨⟨rfl, rfl, rfl, rfl, rfl⟩, rfl⟩) (quiet_refl _) (fill_zero_leads x s) (gatesPass_zero s)
      fun u hu => ⟨hu.reset, ⟨_, hu.pc, rfl⟩, hu.regs⟩
  · have hchunk := wrchunk_completes (n := 0) (xs := []) hidle (Nat.zero_le 32) rfl (bufferHolds_nil hfit)
    exact hchunk.1 j hj

/-! ## O36 -/

/-- Settles O36, the chunks taken one by one. -/
theorem greedySplitIntoChunks : Obligations.GreedySplitIntoChunks := by
  intro xs
  have hcount : (splitChunks xs.length xs).length = chunkCount xs.length := by
    rw [← streamBodies_length _ xs rfl, streamBodies, List.length_map]
  exact ⟨hcount, splitChunks_flatten _ xs le_rfl, length_of_mem_splitChunks _ xs, length_of_mem_dropLast_splitChunks _ xs⟩

end Sys2Proof.Machine
end

section
/-! The test of the cancel bit, and the obligation of 44_playback_cancel.md about it. -/

namespace Sys2Proof.Machine

/-- A test or a jump moves `pc` within its procedure (R24). -/
theorem step_goto {s : State} {f : Frame} {fs : List Frame} {k j : Nat} (hr : s.resetIn = false) (hp : s.pc = f :: fs)
    (hl : lineOf f s = .goto k j) : step s = .next { s with pc := ⟨f.proc, k, j⟩ :: fs } := by
  rw [step_line s f fs hr hp, runLine, hl, runAct, perform, goTo, hp, retop]

/-- The mask of the cancel bit takes bit 3 out of a mode register value (R29, R112). -/
theorem and_smCancel_eq_zero_iff (mode : Half) : mode &&& smCancel = 0 ↔ mode.getLsbD 3 = false := by
  have hmask : smCancel = BitVec.twoPow 16 3 := rfl
  rw [hmask, BitVec.and_twoPow]
  cases mode.getLsbD 3 with
  | false => exact iff_of_true rfl rfl
  | true => exact iff_of_false (by decide) (by decide)

/-- The test of line 10, by the mask (R112). -/
theorem cancelClear_iff_and_smCancel (mode : Half) : cancelClear mode = true ↔ mode &&& smCancel = 0 := by
  rw [cancelClear, Bool.not_eq_true', and_smCancel_eq_zero_iff]

/-- Line 10 of CANCEL leads out of the loop where the masked bit is clear and back to line 6 where it is set (R112). -/
theorem lineOf_cancel_test (s : State) :
    lineOf ⟨.cancel, 10, 0⟩ s = .goto (if s.tmp &&& smCancel = 0 then 11 else 6) 0 := by
  change (if cancelClear s.tmp = true then Act.goto 11 0 else .goto 6 0) = _
  rw [apply_ite (Act.goto · 0)]
  exact if_congr (cancelClear_iff_and_smCancel s.tmp) rfl rfl

/-! ## O41 -/

/-- Settles O41: the step is the jump that line 10 asks for, and the mask takes out bit 3. -/
theorem cancelTestsBitThree : Obligations.CancelTestsBitThree :=
  fun s _ hr hp => ⟨step_goto hr hp (lineOf_cancel_test s), and_smCancel_eq_zero_iff s.tmp⟩

end Sys2Proof.Machine
end

section
/-! SUPPORT. A command of one gate that ends by `done` or by `raise` behind it (10_state.md R23; 60_exceptions.md R130); VERQ as one
gate (45_version_query.md R119 to R121). -/

namespace Sys2Proof.Machine

/-! ## The end of a command -/

/-- A `done` and a `raise` at a place between two frames end the command alike, no select line being asserted there (R23, R130). -/
theorem At.step_finish {o s : State} {R : State → Prop} {n : Nat} {f : Frame} {fs : List Frame} {e : ErrorCode} {r : Half}
    (hs : At o R n (f :: fs) s) (hl : lineOf f s = .done e r ∨ lineOf f s = .raise e r) : step s = .next (finish e r s) := by
  rw [step_line s f fs hs.reset hs.pc, runLine]
  rcases hl with hl | hl
  · rw [hl, runAct, perform]
  · obtain ⟨hcs, hds⟩ := hs.selects
    rw [hl, runAct, perform, raiseError_lines_down e r s hcs hds]

/-- A command of one gate whose run behind the gate ends in a state of `H` with the response `(err, result)`; or the wait times out
(R130). -/
theorem completes_of_one_gate_concluded {i : Instr} {p : Proc} {s : State} {H P Q : State → Prop} {b : List Event} {err : BitVec 4}
    {result : Half} (hidle : LIdle s) (hcp : commandProc i = some p) (hx : exec i s = .next (acceptedAs i p s))
    (hstart : P (acceptedAs i p s)) (hleads : Leads H P [b] Q)
    (hend : ∀ t, Q t → ∃ u, Reaches t u ∧ Concluded t u err result [] ∧ H u)
    (hkept : ∀ u, H u → KeptBy p s u ∧ u.speed = s.speed) :
    (∀ j, ReadyAfter j s → Completes i p s err result (waitTrace j ++ b) s.speed) ∧
    (∀ k, TimesOut k s → Completes i p s 2 0 (List.replicate k (.poll false)) s.speed) := by
  refine ⟨fun j hj => ?_, fun k hk => ?_⟩
  · obtain ⟨t, ht, hadv, hQ⟩ := hleads.passes _ (fun _ => j) hstart (gatesPass_one (s := acceptedAs i p s) hj)
    obtain ⟨u, hu, hcon, hH⟩ := hend t hQ
    obtain ⟨hkeeps, hspeed⟩ := hkept u hH
    simpa [gatedFrom] using completes_of_concluded hidle hcp hx (ht.trans hu) (hadv.concluded hcon) hkeeps hspeed
  · simpa [stoppedAt, gatedFrom] using
      completes_of_stops hidle hcp hx hstart (quiet_refl P) hleads Nat.one_pos (gateTimesOut_zero (js := fun _ => 0) hk) hkept

/-! ## VERQ -/

/-- What no line of VERQ writes is as in `o`. -/
def VerqKept (o u : State) : Prop := KeptBy .verq o u ∧ u.speed = o.speed

/-- `TMP` holds the status register's value `x`. -/
def StatusRead (o : State) (x : Half) (u : State) : Prop := VerqKept o u ∧ u.tmp = x

/-- The version nibble `v` is taken out. -/
def VersionRead (o : State) (v : Nibble) (u : State) : Prop := VerqKept o u ∧ u.v = v

/-- A register frame keeps what VERQ keeps. -/
theorem RegisterKept.verqKept {o u : State} (h : RegisterKept o u) : VerqKept o u := by
  obtain ⟨⟨hfill, hbase, hrem, hoff, hn, hi, hbud, _⟩, hspeed⟩ := h
  exact ⟨⟨hfill, hbase, hrem, hoff, hn, hi, hbud⟩, hspeed⟩

/-- What VERQ keeps is a matter of registers. -/
theorem verqKept_ofRegisters (o : State) : OfRegisters (VerqKept o) := by
  rintro s u hu hspeed ⟨hkept, hs⟩
  refine ⟨?_, hspeed.trans hs⟩
  rw [← hu]
  exact hkept

/-- The same of the value in `TMP`. -/
theorem statusRead_ofRegisters (o : State) (x : Half) : OfRegisters (StatusRead o x) := fun s u hu hspeed hs =>
  ⟨verqKept_ofRegisters o s u hu hspeed hs.1, (congrArg State.tmp hu).symm.trans hs.2⟩

/-- The same of the nibble. -/
theorem versionRead_ofRegisters (o : State) (v : Nibble) : OfRegisters (VersionRead o v) := fun s u hu hspeed hs =>
  ⟨verqKept_ofRegisters o s u hu hspeed hs.1, (congrArg State.v hu).symm.trans hs.2⟩

section
variable {o : State} {n : Nat} {v : Nibble}

/-- Line 1 of VERQ: the status register read and stored (R119). -/
theorem verq_read : Leads (VerqKept o) (At o (RegisterKept o) 0 [⟨.verq, 1, 0⟩]) [readFrame regStatus o.cfg.dummyByte]
    (At o (StatusRead o (o.replyAt 2 ++ o.replyAt 3)) 4 [⟨.verq, 2, 0⟩]) := by
  refine ((quiet_call (k := 1) (j := 1) (registerKept_stable o).ofRegisters fun _ _ => rfl).leads
    (sciRead_leads (registerKept_stable o) (fun _ h => h.verqKept) regStatus)).quiet
    (quiet_assign (statusRead_ofRegisters o _) fun u hu => ?_)
  obtain ⟨hkept, hdata⟩ := hu.regs
  exact ⟨{ u with tmp := u.data }, rfl, rfl, hkept.verqKept, hdata⟩

/-- Line 2 of VERQ: the version nibble taken out of the value read (R119, R120). -/
theorem verq_nibble {x : Half} : Quiet (At o (StatusRead o x) n [⟨.verq, 2, 0⟩]) []
    (At o (VersionRead o (versionNibble o.cfg x)) n [⟨.verq, 3, 0⟩]) :=
  quiet_assign (versionRead_ofRegisters o _) fun u hu => by
    obtain ⟨hkept, htmp⟩ := hu.regs
    exact ⟨{ u with v := versionNibble u.cfg u.tmp }, rfl, rfl, hkept, by rw [hu.host.1, htmp]⟩

/-- Line 3 of VERQ where the nibble is an index of the table (R121). -/
theorem verq_inTable (hv : v.toNat < verTableLen) :
    Quiet (At o (VersionRead o v) n [⟨.verq, 3, 0⟩]) [] (At o (VersionRead o v) n [⟨.verq, 4, 0⟩]) :=
  quiet_goto (versionRead_ofRegisters o v) fun s hs => ⟨if_pos (by rw [hs.regs.2]; exact decide_eq_true hv), hs.regs⟩

/-- Lines 3 and 4 of VERQ: `done` with a nibble of the table, `raise` with another (R119, R121, R131). -/
theorem verq_ends {t : State} (ht : At o (VersionRead o v) n [⟨.verq, 3, 0⟩] t) :
    ∃ u, Reaches t u ∧ Concluded t u (if v.toNat < verTableLen then 0 else 4) (nibbleHalf v) [] ∧ VerqKept o u := by
  by_cases hv : v.toNat < verTableLen
  · obtain ⟨u, hu, hadv, hat⟩ := verq_inTable hv t ht
    obtain ⟨hkept, hver⟩ := hat.regs
    have hdone : lineOf ⟨.verq, 4, 0⟩ u = .done .ok (nibbleHalf v) := hver ▸ rfl
    rw [if_pos hv]
    exact ⟨_, hu.trans (.one (hat.step_finish (.inl hdone))), hadv.concluded (finish_concluded .ok _ u), hkept⟩
  · obtain ⟨hkept, hver⟩ := ht.regs
    have hraise : lineOf ⟨.verq, 3, 0⟩ t = .raise .badVersion (nibbleHalf v) :=
      hver ▸ if_neg (by rw [hver, versionInTable, decide_eq_true_iff]; exact hv)
    rw [if_neg hv]
    exact ⟨_, .one (ht.step_finish (.inr hraise)), finish_concluded .badVersion _ t, hkept⟩

end

end Sys2Proof.Machine
end

section
/-! The obligation of 45_version_query.md. -/

namespace Sys2Proof.Machine

/-! ## O40 -/

/-- Settles O40: the command is one gate with the read frame behind it, and the nibble read decides how it ends. -/
theorem verqReturnsTheVersionNibble : Obligations.VerqReturnsTheVersionNibble := fun _ hidle =>
  completes_of_one_gate_concluded hidle rfl (exec_of_start (i := .verq) hidle rfl) (at_accepted hidle (registerKept_refl _))
    (verq_read.quiet verq_nibble) (fun _ => verq_ends) fun _ h => h

end Sys2Proof.Machine
end

section
/-! SUPPORT. The codes that a step can leave in `ERR`; and the obligation of 60_exceptions.md about them (R126). -/

namespace Sys2Proof.Machine

/-! ## The codes written into `ERR` -/

/-- The codes of the six outcomes are 0 to 5 (R126). -/
theorem code_toNat_le_five (e : ErrorCode) : e.code.toNat ≤ 5 := by
  cases e <;> decide

/-- A line leaves `ERR` or writes the code of an outcome into it; only `done` and `raise` write it (R13). -/
theorem line_err (f : Frame) (s : State) :
    (actEffect (lineOf f s) s).err = s.err ∨ ∃ e : ErrorCode, (actEffect (lineOf f s) s).err = e.code := by
  cases h : lineOf f s with
  | micro u d k j =>
    obtain ⟨evs, hu⟩ := microEffect_withLinkOf u s
    left
    rw [actEffect, hu]
    simp [afterMicro, withLinkOf]
  | assign t k j =>
    left
    rw [mayAsk_of_lineOf h]
    rfl
  | goto | call | ret | stop => left; simp [actEffect]
  | done e r => exact .inr ⟨e, finish_err e r s⟩
  | raise e r => exact .inr ⟨e, raiseError_err e r s⟩

/-- So does every step: an illegal word writes the code of `IllegalCmd`, block reset that of `Ok` (R35, R61). -/
theorem step_err {s t : State} (h : step s = .next t) : t.err = s.err ∨ ∃ e : ErrorCode, t.err = e.code := by
  cases stepTo_of_step h with
  | reset => exact .inr ⟨.ok, blockReset_err s⟩
  | still | accepted => left; simp
  | illegal l rest => exact .inr ⟨.illegalCmd, raiseError_err _ _ _⟩
  | line f fs => exact line_err f s

/-- The responses after a step are those before it, or one more that holds the new `ERR`; or block reset has emptied them
(R23, R143). -/
theorem err_of_mem_responses {s t : State} (h : step s = .next t) {r : Response} (hr : r ∈ t.responses) :
    r ∈ s.responses ∨ r.err = t.err := by
  cases hreset : s.resetIn with
  | true =>
    cases (step_reset s hreset).symm.trans h
    cases hr
  | false =>
    obtain ⟨_, _, hkept, _⟩ | ⟨hdone, _, _⟩ := flagsChangeOnlyAtDone s t hreset h
    · exact .inl (hkept ▸ hr)
    · rw [hdone, List.mem_cons] at hr
      exact hr.symm.imp_right (congrArg Response.err)

/-! ## O57 -/

/-- Settles O57: `ERR` is kept or holds the code of an outcome, and a new response holds the new `ERR`. -/
theorem errorCodesStayBelowSix : Obligations.ErrorCodesStayBelowSix := by
  intro s t herr hresponses h
  have ht : t.err.toNat ≤ 5 := by
    obtain hkept | ⟨e, he⟩ := step_err h
    · exact hkept ▸ herr
    · exact he ▸ code_toNat_le_five e
  refine ⟨ht, fun r hr => ?_⟩
  obtain hold | hnew := err_of_mem_responses h hr
  · exact hresponses r hold
  · exact hnew ▸ ht

end Sys2Proof.Machine
end
